-- ==== Sys2Proof/Word.lean ====
section
/-! DEFINITION. The fixed-width values of the spec: bytes, 32-bit register words, 80-bit command words
(spec/00_scope.md R11: bits are numbered from 0 at the least significant end, every value is unsigned). -/

namespace Sys2Proof

/-- Eight bits: a chip opcode, a status byte, one byte of the Flash array. -/
abbrev Byte := BitVec 8

/-- Thirty-two bits: a register of the peripheral's interface, a chip address, a data word. -/
abbrev Word := BitVec 32

/-- Eighty bits: one command word of the command port (spec/30_encoding.md R90). -/
abbrev CmdWord := BitVec 80

end Sys2Proof
end

