-- ==== Sys2Proof/Config.lean ====
section
/-! DEFINITION. What an implementation fixes (spec/00_scope.md R10: the source-fixed constants and the open
parameters with their defaults) and the free values: constants without a body, which no proof can see through. -/

namespace Sys2Proof

/-- The four agents that take steps (spec/00_scope.md R9). -/
inductive Agent where
  | host
  | sequencer
  | peripheral
  | chip
  deriving DecidableEq, Repr, Inhabited

/-- The chip's two status registers (spec/10_state.md R29). -/
inductive StatusReg where
  | a
  | b
  deriving DecidableEq, Repr

/-- The one of the two that is not `r`. -/
def StatusReg.other : StatusReg → StatusReg
  | .a => .b
  | .b => .a

/-- The open parameters of spec/00_scope.md R10. They stand in State as a field no step writes, so a statement about
every state holds for every value of every parameter. -/
structure Params where
  /-- `FLASH_SIZE`: capacity of the chip in bytes. -/
  flashSize : Nat
  /-- `MMAP_BASE`: system address of the window's first byte. -/
  mmapBase : Nat
  /-- `PAGE_SIZE`: the chip's program page in bytes. -/
  pageSize : Nat
  /-- `ERASED_BYTE`: value of an erased byte. spec/92 D23 fixes it to 0xFF and spec/93 U4 also calls it a parameter: that it
  is any byte here, with 0xFF the default, is the model's choice (notes/assumptions/35.md). -/
  erasedByte : Byte
  /-- `POLL_INTERVAL`: value written to `P.PINT`. -/
  pollInterval : BitVec 16
  /-- `MMAP_DUMMY_CYCLES`: dummy cycles of the mapped read, 0 to 31. -/
  dummyCycles : BitVec 5
  /-- `SPIN_LIMIT`: `none`, or a bound on the iterations of every busy-wait. -/
  spinLimit : Option Nat
  /-- `CHIP_RESPONSIVE`: whether the peripheral and chip agents are weakly fair. -/
  chipResponsive : Bool
  /-- Which status register 0x05 reads; 0x15 reads the other. It fixes `OPC_RDSR_A` and `OPC_RDSR_B` (D13, U24). -/
  reads05 : StatusReg
  /-- `WIP_MASK`: bit of status register A that shows write-in-progress. -/
  wipMask : Byte
  /-- `WEL_MASK`: bit of status register A that shows the write-enable latch. -/
  welMask : Byte
  /-- `QUAD_REG`: the status register that shows quad mode. -/
  quadReg : StatusReg
  /-- `QUAD_MASK`: the bit of it. -/
  quadMask : Byte
  /-- `ADDR4_REG`: the status register that shows 4-byte addressing. -/
  addr4Reg : StatusReg
  /-- `ADDR4_MASK`: the bit of it. -/
  addr4Mask : Byte
  /-- `CORE_CLOCK_HZ`: the core clock frequency; no rule reads it. -/
  coreClockHz : Nat
  /-- `PRESC`: the baud-rate divisor boot software writes to `P.CTRL.PRESC`; no rule reads it. -/
  prescaler : BitVec 8
  /-- What a Flash byte that nothing has written holds: the launch's parameter of spec/10_state.md R55
  (DESIGN CHOICE, notes/assumptions/4.md). -/
  launchByte : Byte
  deriving DecidableEq, Repr

/-- IMPLEMENTATION'S VALUE. The core clock frequency of a system; spec/00_scope.md R10 gives it no default. -/
opaque Config.coreClockHz : Nat

/-- IMPLEMENTATION'S VALUE. The baud-rate divisor of a system; R10 gives it no default. -/
opaque Config.prescaler : BitVec 8

/-- The defaults of spec/00_scope.md R10; the launch byte is the 0xA5 of spec/95_test_vectors.md P2. -/
def Params.default : Params where
  flashSize := 67108864
  mmapBase := 0x90000000
  pageSize := 256
  erasedByte := 0xFF
  pollInterval := 0x10
  dummyCycles := 6
  spinLimit := none
  chipResponsive := true
  reads05 := .a
  wipMask := 0x01
  welMask := 0x02
  quadReg := .a
  quadMask := 0x40
  addr4Reg := .b
  addr4Mask := 0x20
  coreClockHz := Config.coreClockHz
  prescaler := Config.prescaler
  launchByte := 0xA5

/-- `m` has exactly one bit set. -/
def oneBit (m : Byte) : Bool := m != 0 && (m &&& (m - 1)) == 0

/-- Parameters that make sense. spec/00_scope.md R10 asks for a capacity that is a multiple of 4096 and a spin bound of
at least 1. The rest is the model's choice (DEDUCED, notes/assumptions/31.md): a capacity above zero whose addresses fit
32 bits, a page of at least one byte, and masks that are single bits, distinct inside one status register. -/
def Params.wf (p : Params) : Bool :=
  p.flashSize % 4096 == 0 && decide (0 < p.flashSize) && decide (p.flashSize ≤ 2 ^ 32) &&
  decide (0 < p.pageSize) && (p.spinLimit != some 0) &&
  oneBit p.wipMask && oneBit p.welMask && oneBit p.quadMask && oneBit p.addr4Mask &&
  (p.wipMask &&& p.welMask) == 0 &&
  (p.quadReg != .a || (p.quadMask &&& (p.wipMask ||| p.welMask)) == 0) &&
  (p.addr4Reg != .a || (p.addr4Mask &&& (p.wipMask ||| p.welMask)) == 0) &&
  (p.quadReg != p.addr4Reg || (p.quadMask &&& p.addr4Mask) == 0)

/-- `SECTOR_SIZE`, fixed by the source. -/
def sectorSize : Nat := 4096

/-- `OPC_WREN`, chip opcode write-enable. -/
def opcWren : Byte := 0x06
/-- `OPC_SE`, chip opcode 4KB sector erase. -/
def opcSe : Byte := 0x20
/-- `OPC_PP4B`, chip opcode page program with a 4-byte address. -/
def opcPp4b : Byte := 0x12
/-- `OPC_EQIO`, chip opcode enter quad mode. -/
def opcEqio : Byte := 0x35
/-- `OPC_EN4B`, chip opcode enable 4-byte addressing. -/
def opcEn4b : Byte := 0xB7
/-- `OPC_QREAD`, chip opcode quad-I/O fast read. -/
def opcQread : Byte := 0xEC
/-- The first of the two status-register read opcodes. -/
def opcRead05 : Byte := 0x05
/-- The second of the two. -/
def opcRead15 : Byte := 0x15

/-- The opcode that reads a given status register (R10, spec/10_state.md R29). -/
def Params.statusOpcode (p : Params) (r : StatusReg) : Byte := if r = p.reads05 then opcRead05 else opcRead15

/-- The status register that 0x05 or 0x15 reads (R29, spec/46_peripheral_and_chip.md R221). -/
def Params.statusReg (p : Params) (op : Byte) : StatusReg := if op = opcRead05 then p.reads05 else p.reads05.other

/-- `OPC_RDSR_A`, the opcode that reads status register A. -/
def Params.opcRdsrA (p : Params) : Byte := p.statusOpcode .a

/-- `OPC_RDSR_B`, the opcode that reads status register B. -/
def Params.opcRdsrB (p : Params) : Byte := p.statusOpcode .b

/-- FREE VALUE. Which agent moves at the step after the `n`-th (spec/20_memory.md R71: no order is promised). -/
opaque Config.agentAt : Nat → Agent

/-- FREE VALUE. The status-register bits no modelled flag occupies, at step `n` (spec/10_state.md R29, D38). -/
opaque Config.freeStatus : Nat → Byte

/-- FREE VALUE. The bits of `P.STAT` other than BUSY and SMF, at step `n` (spec/10_state.md R35). -/
opaque Config.freeStat : Nat → Word

/-- FREE VALUE. What a read of `P.STAT.BUSY` in `P3_MMAP` gives at step `n` (spec/45_memory_map.md R197(e)). -/
opaque Config.freeBusy : Nat → Bool

/-- FREE VALUE. What byte `a` of Flash holds after step `n` made its contents unknown: a power-on reset that lost the
operation addressing it (spec/70_reset_and_hazards.md R267) or found the REFUSED mark set (spec/60_exceptions.md R252),
or that a Timeout stands after (spec/93_implementation_defined.md U16). -/
opaque Config.lostByte : Nat → Nat → Byte

/-- FREE VALUE. WEL, WIP, QUAD and ADDR4 (bits 0 to 3) after step `n`, where a Timeout stands (U16). -/
opaque Config.lostFlags : Nat → BitVec 4

/-- FREE VALUE. Whether the operation pending after step `n`, where a Timeout stands, if any, is an erase (U16, R287). -/
opaque Config.lostErase : Nat → Bool

/-- FREE VALUE. Where that operation lies. -/
opaque Config.lostAddress : Nat → Word

/-- FREE VALUE. What it programs. -/
opaque Config.lostData : Nat → Word

end Sys2Proof
end

