-- ==== Sys2Proof/Syntax.lean ====
section
/-! DEFINITION. The instructions: the seven commands of the command port (spec/30_encoding.md R91) and the eight
chip opcodes of the bus (R100), one constructor for each row of spec/opcode_table.json, with the operands each
carries; and the records of the Quad-SPI bus that carry the chip opcodes (R103). -/

namespace Sys2Proof

/-- Number of data lines of an instruction phase (R103 `ilines : 1 | 4`). -/
inductive Lines where
  | one
  | four
  deriving DecidableEq, Repr

/-- Every row of the opcode table. -/
inductive Instr where
  /-- WAIT_STATUS (R131): poll the status register `opcode` reads until `(byte AND mask) = pattern`. -/
  | waitStatus (opcode mask pattern : Byte)
  /-- WRITE_ENABLE (R145). -/
  | writeEnable
  /-- ERASE_SECTOR (R155): the sector index. -/
  | eraseSector (index : Word)
  /-- WRITE_WORD (R165): byte address and data word. -/
  | writeWord (addr data : Word)
  /-- ENTER_QUAD (R175). -/
  | enterQuad
  /-- ENTER_ADDR4 (R179). -/
  | enterAddr4
  /-- ENTER_MMAP (R190). -/
  | enterMmap
  /-- CHIP_WREN, 0x06 write-enable (R216). -/
  | chipWren
  /-- CHIP_SE4K, 0x20 sector erase (R217): the 32-bit address. -/
  | chipSe4k (addr : Word)
  /-- CHIP_PP4B, 0x12 page program (R218): the 32-bit address and the four data bytes in bus order. -/
  | chipPp4b (addr : Word) (d0 d1 d2 d3 : Byte)
  /-- CHIP_EQIO, 0x35 enter quad mode (R219): on one line, or on four where it leaves the flag set. -/
  | chipEqio (lines : Lines)
  /-- CHIP_EN4B, 0xB7 enable 4-byte addressing (R220). -/
  | chipEn4b
  /-- CHIP_RDSR_A, 0x05: read of a status register, A by default (R221, R29). -/
  | chipRdsrA (lines : Lines)
  /-- CHIP_RDSR_B, 0x15: read of the other, B by default (R221, R29). -/
  | chipRdsrB (lines : Lines)
  /-- CHIP_QIOFR, 0xEC quad-I/O fast read (R223): address, dummy cycles, number of bytes asked for. -/
  | chipQiofr (addr : Word) (dummy : BitVec 5) (count : Nat)
  deriving DecidableEq, Repr

/-- Direction of a data phase (R103 `dir`). -/
inductive DataDir where
  | toChip
  | fromChip
  deriving DecidableEq, Repr

/-- One bus transaction of the history `BUS` (R103). An address phase is always 32 bits on four lines and a data
phase always on four lines, so the record keeps the address value and the bytes alone. -/
structure BusTxn where
  ilines : Lines
  instr : Byte
  addr : Option Word
  dummy : BitVec 5
  data : Option (DataDir × List Byte)
  deriving DecidableEq, Repr

/-- The data phase the peripheral asks for, before the chip has answered. -/
inductive DataReq where
  | none
  | toChip (bytes : List Byte)
  | fromChip (count : Nat)
  deriving DecidableEq, Repr

/-- What travels from the peripheral to the chip: a bus transaction without the chip's answer. It is the word in
which a chip instruction is encoded (R97, R100). -/
structure BusReq where
  ilines : Lines
  instr : Byte
  addr : Option Word
  dummy : BitVec 5
  data : DataReq
  deriving DecidableEq, Repr

/-- An encoded instruction: a command word, or a bus request. -/
inductive Words where
  | command (w : CmdWord)
  | bus (r : BusReq)
  deriving DecidableEq, Repr

end Sys2Proof
end

