-- ==== Sys2Proof/WellFormed.lean ====
section
/-! DEFINITION. Which instructions have an encoding. Every operand is held at its own width, so one check is left:
a quad-I/O read asks for 1, 2 or 4 bytes (spec/20_memory.md R63, R64). -/

namespace Sys2Proof

/-- A window read moves 1, 2 or 4 bytes (R64). -/
def readCountOk (n : Nat) : Bool := n == 1 || n == 2 || n == 4

/-- The instruction has an encoding. -/
def Instr.wellFormed : Instr → Bool
  | .chipQiofr _ _ n => readCountOk n
  | .waitStatus _ _ _ | .writeEnable | .eraseSector _ | .writeWord _ _ | .enterQuad | .enterAddr4 | .enterMmap
  | .chipWren | .chipSe4k _ | .chipPp4b _ _ _ _ _ | .chipEqio _ | .chipEn4b | .chipRdsrA _ | .chipRdsrB _ => true

end Sys2Proof
end

