-- ==== Sys2Proof/Decode.lean ====
section
/-! DEFINITION. The decoder of command words (spec/30_encoding.md R90 to R93) and of bus requests (R97, R100,
spec/46_peripheral_and_chip.md R216 to R224), total, rejecting by name; and the encoder, from the same tables. -/

namespace Sys2Proof

/-- Why a word is no instruction. -/
inductive DecodeError where
  /-- `op` outside 0x01 to 0x07 (R93). -/
  | unknownOp
  /-- A field the command does not use is not zero (R92). -/
  | nonzeroUnused
  /-- A chip opcode outside the eight of R100 (R224). -/
  | unknownOpcode
  /-- One of the eight chip opcodes in a transaction of a shape no rule gives it. -/
  | undefinedShape
  deriving DecidableEq, Repr

/-- Field `op` of a command word, bits 79:72 (R90). -/
def cmdOp (w : CmdWord) : Byte := w.extractLsb' 72 8
/-- Field `a`, bits 71:40. -/
def cmdA (w : CmdWord) : Word := w.extractLsb' 40 32
/-- Field `b`, bits 39:8. -/
def cmdB (w : CmdWord) : Word := w.extractLsb' 8 32
/-- Field `c`, bits 7:0. -/
def cmdC (w : CmdWord) : Byte := w.extractLsb' 0 8

/-- `legal_encoding(W)` (R93), from the table of R92 alone: `op` is one of 0x01 to 0x07 and every field that `op`
does not use is zero. -/
def legalEncoding (w : CmdWord) : Bool :=
  if cmdOp w = 0x01 then (cmdA w) >>> 8 == 0 && (cmdB w) >>> 8 == 0
  else if cmdOp w = 0x03 then cmdB w == 0 && cmdC w == 0
  else if cmdOp w = 0x04 then cmdC w == 0
  else if cmdOp w = 0x02 ∨ cmdOp w = 0x05 ∨ cmdOp w = 0x06 ∨ cmdOp w = 0x07 then
    cmdA w == 0 && cmdB w == 0 && cmdC w == 0
  else false

/-- The command a word with operand fields all zero stands for, or the rejection of the others. -/
def noOperands (w : CmdWord) (i : Instr) : Except DecodeError Instr :=
  if cmdA w = 0 ∧ cmdB w = 0 ∧ cmdC w = 0 then .ok i else .error .nonzeroUnused

/-- Decoding of a command word (R91 to R93): total on all 80-bit words. -/
def decodeCommand (w : CmdWord) : Except DecodeError Instr :=
  if cmdOp w = 0x01 then
    if (cmdA w).extractLsb' 8 24 = 0 ∧ (cmdB w).extractLsb' 8 24 = 0 then
      .ok (.waitStatus (cmdC w) ((cmdA w).extractLsb' 0 8) ((cmdB w).extractLsb' 0 8))
    else .error .nonzeroUnused
  else if cmdOp w = 0x02 then noOperands w .writeEnable
  else if cmdOp w = 0x03 then
    if cmdB w = 0 ∧ cmdC w = 0 then .ok (.eraseSector (cmdA w)) else .error .nonzeroUnused
  else if cmdOp w = 0x04 then
    if cmdC w = 0 then .ok (.writeWord (cmdA w) (cmdB w)) else .error .nonzeroUnused
  else if cmdOp w = 0x05 then noOperands w .enterQuad
  else if cmdOp w = 0x06 then noOperands w .enterAddr4
  else if cmdOp w = 0x07 then noOperands w .enterMmap
  else .error .unknownOp

/-- A bus request with an instruction phase and nothing else (the shape of 0x06, 0x35 and 0xB7, R97). -/
def instructionOnly (r : BusReq) : Bool :=
  r.addr.isNone && r.dummy == 0 && r.data == .none

/-- The shape of a status read: instruction, then one byte from the chip (R97, R103). -/
def oneStatusByte (r : BusReq) : Bool :=
  r.addr.isNone && r.dummy == 0 && r.data == .fromChip 1

/-- Decoding of a bus request by the chip (R100; the shapes are those of R97 and of R216 to R223). -/
def decodeBus (r : BusReq) : Except DecodeError Instr :=
  if r.instr = opcWren then
    if r.ilines = .four ∧ instructionOnly r then .ok .chipWren else .error .undefinedShape
  else if r.instr = opcSe then
    match r.addr, r.data with
    | some a, .none =>
      if r.ilines = .four ∧ r.dummy = 0 then .ok (.chipSe4k a) else .error .undefinedShape
    | _, _ => .error .undefinedShape
  else if r.instr = opcPp4b then
    match r.addr, r.data with
    | some a, .toChip [d0, d1, d2, d3] =>
      if r.ilines = .four ∧ r.dummy = 0 then .ok (.chipPp4b a d0 d1 d2 d3) else .error .undefinedShape
    | _, _ => .error .undefinedShape
  else if r.instr = opcEqio then
    if instructionOnly r then .ok (.chipEqio r.ilines) else .error .undefinedShape
  else if r.instr = opcEn4b then
    if r.ilines = .four ∧ instructionOnly r then .ok .chipEn4b else .error .undefinedShape
  else if r.instr = opcRead05 then
    if oneStatusByte r then .ok (.chipRdsrA r.ilines) else .error .undefinedShape
  else if r.instr = opcRead15 then
    if oneStatusByte r then .ok (.chipRdsrB r.ilines) else .error .undefinedShape
  else if r.instr = opcQread then
    match r.addr, r.data with
    | some a, .fromChip n =>
      if r.ilines = .four ∧ readCountOk n then .ok (.chipQiofr a r.dummy n) else .error .undefinedShape
    | _, _ => .error .undefinedShape
  else .error .unknownOpcode

/-- The decoder on either kind of encoded instruction. -/
def decode : Words → Except DecodeError Instr
  | .command w => decodeCommand w
  | .bus r => decodeBus r

/-- A command word from its four fields (R90). -/
def cmdWord (op : Byte) (a b : Word) (c : Byte) : CmdWord := op ++ a ++ b ++ c

/-- The encoder, from the tables R90 to R92 and R97. -/
def encode : Instr → Words
  | .waitStatus o m t => .command (cmdWord 0x01 (m.setWidth 32) (t.setWidth 32) o)
  | .writeEnable => .command (cmdWord 0x02 0 0 0)
  | .eraseSector i => .command (cmdWord 0x03 i 0 0)
  | .writeWord a d => .command (cmdWord 0x04 a d 0)
  | .enterQuad => .command (cmdWord 0x05 0 0 0)
  | .enterAddr4 => .command (cmdWord 0x06 0 0 0)
  | .enterMmap => .command (cmdWord 0x07 0 0 0)
  | .chipWren => .bus ⟨.four, opcWren, none, 0, .none⟩
  | .chipSe4k a => .bus ⟨.four, opcSe, some a, 0, .none⟩
  | .chipPp4b a d0 d1 d2 d3 => .bus ⟨.four, opcPp4b, some a, 0, .toChip [d0, d1, d2, d3]⟩
  | .chipEqio l => .bus ⟨l, opcEqio, none, 0, .none⟩
  | .chipEn4b => .bus ⟨.four, opcEn4b, none, 0, .none⟩
  | .chipRdsrA l => .bus ⟨l, opcRead05, none, 0, .fromChip 1⟩
  | .chipRdsrB l => .bus ⟨l, opcRead15, none, 0, .fromChip 1⟩
  | .chipQiofr a d n => .bus ⟨.four, opcQread, some a, d, .fromChip n⟩

/-- The bus request of the shape R100 gives a chip opcode, its operand phases zero: no dummy cycle, one byte where
bytes come from the chip. An opcode outside the eight has an instruction phase alone. -/
def opcodeRequest (op : Byte) : BusReq :=
  if op = opcSe then ⟨.four, op, some 0, 0, .none⟩
  else if op = opcPp4b then ⟨.four, op, some 0, 0, .toChip [0, 0, 0, 0]⟩
  else if op = opcEqio then ⟨.one, op, none, 0, .none⟩
  else if op = opcRead05 ∨ op = opcRead15 then ⟨.four, op, none, 0, .fromChip 1⟩
  else if op = opcQread then ⟨.four, op, some 0, 0, .fromChip 1⟩
  else ⟨.four, op, none, 0, .none⟩

/-- The instruction the decoder reads from a word numbered as spec/opcode_table.json numbers it: an 80-bit command
word, or the 8-bit opcode of a bus request whose other phases are zero. -/
def decodeTableWord (nbits w : Nat) : Option Instr :=
  if nbits = 80 then (decodeCommand (BitVec.ofNat 80 w)).toOption
  else if nbits = 8 then (decodeBus (opcodeRequest (BitVec.ofNat 8 w))).toOption
  else none

end Sys2Proof
end

