-- ==== Sys2Proof/Machine/State.lean ====
section
/-! DEFINITION. The state of the machine as plain data: the sequencer, the peripheral's register interface, the
chip (spec/10_state.md R20 to R52), the host's pending moves and received events (R24, spec/46 R226), the
reasons a step can stop, and the state after reset (R54). -/

namespace Sys2Proof.Machine

/-! ## The reasons a step stops -/

/-- A fault of the MODEL: the machine is asked for something that does not exist. The spec's own three faults
(IllegalCommand, PreconditionViolation, Timeout) are no stops: they are `raise`, a next state. -/
inductive Fault where
  /-- Raised by the host's access to a system address outside the window, which is outside the block
  (spec/20_memory.md R69). Safe: the machine stops where the spec has no rule. -/
  | outsideWindow
  /-- Raised by the sequencer when the top frame's step is past its routine's list (spec/10_state.md R23: steps
  are bounded by the list lengths). No run reaches it. Safe. -/
  | noSuchStep
  /-- Raised by a call on a stack that already holds three frames (R23: at most three frames). No run reaches
  it. Safe. -/
  | stackOverflow
  /-- Raised when a pending operation addresses bytes the chip does not have (R46: `0 ≤ a < FLASH_SIZE`). No run
  reaches it. Safe. -/
  | flashOutOfRange
  deriving DecidableEq, Repr

/-- Why an agent set the `REFUSED` mark (spec/60_exceptions.md R252), kept with the mark; and the outcome of every
step but power-on reset once the mark is set. All are safe: no claim about the run survives the mark. -/
inductive Refusal where
  /-- Raised by exec for an instruction of the table without a meaning; no arm raises it. -/
  | notModelled (mnemonic : String)
  /-- Set by a sequencer write to a descriptor register or APMS while BUSY = 1 (spec/46 R211(a)). -/
  | registerWriteWhileBusy
  /-- Set by `P.CTRL.EN <- 0` while BUSY = 1 (R211(b)). -/
  | disableWhileBusy
  /-- Set by the peripheral on a live descriptor with a mode code the block never writes (R211(c)) or without an instruction
  phase, and by a window read on a configuration that skips the instruction or the data phase (both
  notes/assumptions/24.md). -/
  | unusedModeCode
  /-- Set by the peripheral on an auto-polling transaction with `P.DLEN ≠ 0` (R211(d)). -/
  | pollLength
  /-- Set by the peripheral on an indirect-read transaction with a data phase (R208). -/
  | indirectReadData
  /-- Set by the peripheral on an indirect write of more than the four bytes `P.DATA` holds (no rule). -/
  | dataLength
  /-- Set by the chip on an instruction on the wrong number of lines for its mode (R214). -/
  | lineDiscipline
  /-- Set by the chip on an instruction other than a status read while WIP = 1 (R215). -/
  | chipBusy
  /-- Set by the chip on an erase without 4-byte addressing or without the latch (R217). -/
  | eraseNotEnabled
  /-- Set by the chip on an erase at or above `FLASH_SIZE` (R217). -/
  | eraseOutOfRange
  /-- Set by the chip on a program without the latch (R218). -/
  | programNotEnabled
  /-- Set by the chip on a program at or above `FLASH_SIZE - 3` (R218). -/
  | programOutOfRange
  /-- Set by the chip on a program that crosses a page boundary (R218). -/
  | programPageCross
  /-- Set by the chip on an opcode outside the eight (R224). -/
  | unknownOpcode
  /-- Set by the chip on one of the eight opcodes in a transaction of a shape no rule gives it, and by a window read on a
  configuration without an address phase. -/
  | undefinedTransaction
  /-- Set by the chip on a mapped read without 4-byte addressing (spec/45 R196, spec/93 U12). -/
  | readNotEnabled
  /-- Set by the chip on a mapped read past the end of its array (R223). -/
  | readOutOfRange
  /-- Set by the host's write to the window (spec/20_memory.md R65(a)). -/
  | windowWrite
  /-- Set by the host's read of the window outside `P3_MMAP` or during a command (R65(b)). -/
  | windowReadEarly
  /-- Set by the host's read of the window when the peripheral is disabled or not memory-mapped: R212 does not enable it
  (notes/assumptions/34.md). -/
  | windowNotServed
  deriving DecidableEq, Repr

/-! ## The sequencer -/

/-- The four operand latches (R20). -/
structure Latches where
  op : Byte
  a : Word
  b : Word
  c : Byte
  deriving DecidableEq, Repr

/-- The progress record (R25). -/
inductive Phase where
  | p0Reset
  | p1Quad
  | p2Ready
  | p3Mmap
  deriving DecidableEq, Repr

/-- The seven step lists (R15, R23). A frame of WS carries its locals; the others have none. -/
inductive Routine where
  | ws (op mask pattern : Byte)
  | we
  | er
  | pw
  | eq
  | e4
  | mm
  deriving DecidableEq, Repr

/-- A routine's name without its locals, as a Timeout reports it (spec/60_exceptions.md R243). -/
inductive RoutineName where
  | ws
  | we
  | er
  | pw
  | eq
  | e4
  | mm
  deriving DecidableEq, Repr

/-- One frame of `SEQ.STACK` (R23). -/
structure Frame where
  routine : Routine
  step : Nat
  deriving DecidableEq, Repr

/-- The block proper (R20 to R27). -/
structure Seq where
  /-- `x[OP]`, `x[A]`, `x[B]`, `x[C]`. -/
  x : Latches
  /-- `SEQ.STACK`, top frame first. -/
  stack : List Frame
  /-- `SEQ.ACTIVE`. -/
  active : Bool
  /-- `SEQ.PHASE`. -/
  phase : Phase
  /-- `SEQ.FAULT`. -/
  fault : Bool
  /-- `SEQ.CAUSE`: 0 none, 1 IllegalCommand, 2 PreconditionViolation, 3 Timeout. -/
  cause : BitVec 2
  /-- `SEQ.SPINCNT`. -/
  spincnt : Nat
  deriving DecidableEq, Repr

/-! ## The peripheral's register interface -/

/-- The eleven registers (R32). -/
inductive Reg where
  | ctrl
  | devcfg
  | stat
  | fclr
  | dlen
  | pcfg
  | addr
  | data
  | psmask
  | psmatch
  | pint
  deriving DecidableEq, Repr

/-- The descriptor the arming write captures (R50). -/
structure Descriptor where
  pcfg : Word
  addr : Word
  dlen : Word
  data : Word
  psmask : Word
  psmatch : Word
  deriving DecidableEq, Repr

/-- The peripheral (R30 to R45, R50). `P.FCLR` holds no state of its own (R36). -/
structure Periph where
  /-- `P.CTRL.EN`, bit 0. -/
  en : Bool
  /-- `P.CTRL.APMS`, bit 22. -/
  apms : Bool
  /-- `P.CTRL.PRESC`, bits 31:24. -/
  presc : BitVec 8
  /-- `P.DEVCFG.FSIZE`, bits 20:16 (PRESUMED layout, notes/assumptions/9.md). -/
  fsize : BitVec 5
  /-- `P.STAT.BUSY`, bit 5. -/
  busy : Bool
  /-- `P.STAT.SMF`, bit 3. -/
  smf : Bool
  /-- `P.DLEN`: number of data bytes minus one. -/
  dlen : Word
  /-- `P.PCFG`, the phase configuration. -/
  pcfg : Word
  /-- `P.ADDR`. -/
  addr : Word
  /-- `P.DATA`. -/
  data : Word
  /-- `P.PSMASK`. -/
  psmask : Word
  /-- `P.PSMATCH`. -/
  psmatch : Word
  /-- `P.PINT`. -/
  pint : BitVec 16
  /-- `P.LIVE`. -/
  live : Option Descriptor
  deriving DecidableEq, Repr

/-! ## The chip -/

/-- `C.PENDING` (R51): the operation accepted but not yet applied to the array. -/
inductive PendingOp where
  | erase (base : Word)
  | program (addr : Word) (d0 d1 d2 d3 : Byte)
  deriving DecidableEq, Repr

/-- The chip's array as address and byte pairs, addresses strictly rising, none equal to the launch byte, which is
what an unlisted address reads as. -/
abbrev Memory := List Host.Cell

/-- The chip (R28, R47, R51). -/
structure Chip where
  /-- `C.WEL`, the write-enable latch. -/
  wel : Bool
  /-- `C.WIP`, write-in-progress. -/
  wip : Bool
  /-- `C.QUAD`, quad mode enabled. -/
  quad : Bool
  /-- `C.ADDR4`, 4-byte addressing enabled. -/
  addr4 : Bool
  /-- `C.PENDING`. -/
  pending : Option PendingOp
  /-- `Flash`. -/
  flash : Memory
  deriving DecidableEq, Repr

/-! ## The host -/

/-- What the host does next (spec/46_peripheral_and_chip.md R226). `await` is the model's: the host waits until its
command is done or has faulted (notes/assumptions/3.md). -/
inductive HostMove where
  | command (w : CmdWord)
  | read (addr count : Nat)
  | write (addr count : Nat) (value : Word)
  | await
  | powerOnReset
  deriving DecidableEq, Repr

/-- The information a fault event passes (spec/60_exceptions.md R241 to R243). -/
inductive FaultInfo where
  | opByte (op : Byte)
  | position (routine : RoutineName) (step : Nat)
  deriving DecidableEq, Repr

/-- What the block tells the host: `done`, `fault(code, info)`, the result of a window read. -/
inductive HostEvent where
  | done
  | fault (cause : BitVec 2) (info : FaultInfo)
  | readData (count : Nat) (value : Word)
  deriving DecidableEq, Repr

/-! ## The whole machine -/

/-- The state of the four agents and the model-level history. -/
structure State where
  /-- The open parameters; no step writes them. -/
  params : Params
  seq : Seq
  p : Periph
  c : Chip
  /-- `BUS`, oldest first (R52). -/
  bus : List BusTxn
  /-- The `REFUSED` mark, with the reason it was set for (R52, R252). -/
  refused : Option Refusal
  /-- The host's pending moves, next first: the model's own field. -/
  moves : List HostMove
  /-- The events the host has received, oldest first: the model's own field. -/
  events : List HostEvent
  /-- Which agent moves next: the model's own field. -/
  turn : Agent
  /-- How many steps have been taken, the index of the free values: the model's own field. -/
  draws : Nat
  deriving DecidableEq, Repr

/-- The sequencer after power-on reset (R54). -/
def Seq.reset : Seq where
  x := ⟨0, 0, 0, 0⟩
  stack := []
  active := false
  phase := .p0Reset
  fault := false
  cause := 0
  spincnt := 0

/-- The peripheral after power-on reset (R54). -/
def Periph.reset : Periph where
  en := false
  apms := false
  presc := 0
  fsize := 0
  busy := false
  smf := false
  dlen := 0
  pcfg := 0
  addr := 0
  data := 0
  psmask := 0
  psmatch := 0
  pint := 0
  live := none

/-- The chip's flags after power-on reset (R54) over an array that reset does not touch (R55). -/
def Chip.reset (flash : Memory) : Chip where
  wel := false
  wip := false
  quad := false
  addr4 := false
  pending := none
  flash := flash

/-- The machine right after the first power-on: R54, default parameters, no byte of Flash listed, no host move. -/
def State.reset : State where
  params := Params.default
  seq := Seq.reset
  p := Periph.reset
  c := Chip.reset []
  bus := []
  refused := none
  moves := []
  events := []
  turn := .host
  draws := 0

end Sys2Proof.Machine
end

