-- ==== Sys2Proof/Machine/Memory.lean ====
section
/-! DEFINITION. The chip's array `Flash` (spec/10_state.md R46, R47): reading a byte, writing a run of bytes, and
the canonical form that makes equal contents equal lists. -/

namespace Sys2Proof.Machine

/-- What an address holds; an unlisted one holds the launch byte `fill` (R55). -/
def Memory.read (fill : Byte) (m : Memory) (a : Nat) : Byte :=
  match m with
  | [] => fill
  | (k, v) :: rest => if k = a then v else Memory.read fill rest a

/-- The cells of a run of `n` bytes from `base` with contents `f`, those equal to `fill` left out. -/
def Memory.run (fill : Byte) (f : Nat → Byte) : Nat → Nat → Memory
  | _, 0 => []
  | base, n + 1 =>
    if f base = fill then Memory.run fill f (base + 1) n
    else (base, f base) :: Memory.run fill f (base + 1) n

/-- Write `f a` to every address `a` of the run of `n` bytes from `base`. -/
def Memory.setRun (fill : Byte) (m : Memory) (base n : Nat) (f : Nat → Byte) : Memory :=
  m.filter (fun cell => cell.1 < base) ++ Memory.run fill f base n ++
    m.filter (fun cell => base + n ≤ cell.1)

/-- Every key is at least `low`, keys rise strictly, no byte equals `fill`. -/
def Memory.canonicalFrom (fill : Byte) : Nat → Memory → Bool
  | _, [] => true
  | low, (k, v) :: rest => decide (low ≤ k) && v != fill && Memory.canonicalFrom fill (k + 1) rest

/-- The canonical form: strictly rising addresses below the chip's capacity, no entry equal to what an unlisted
address reads as. -/
def Memory.wf (p : Params) (m : Memory) : Bool :=
  Memory.canonicalFrom p.launchByte 0 m && m.all (fun cell => decide (cell.1 < p.flashSize))

/-- `n` bytes from chip address `a`, lowest address first. -/
def Memory.readBytes (fill : Byte) (m : Memory) (a n : Nat) : List Byte :=
  (List.range n).map fun k => Memory.read fill m (a + k)

end Sys2Proof.Machine
end

