-- ==== Sys2Proof/Machine/Operands.lean ====
section
/-! DEFINITION. How operands become descriptor values (spec/30_encoding.md R99), the fields of `P.PCFG`
(spec/10_state.md R38, R39), and the bus request a live descriptor stands for (R103). -/

namespace Sys2Proof.Machine

/-- The address of a sector: `index * 4096` modulo 2^32 (R99, D22). -/
def eraseAddress (index : Word) : Word := index * 4096

/-- Byte `k` of a word, byte 0 the least significant (spec/20_memory.md R60). -/
def wordByte (w : Word) (k : Nat) : Byte := w.extractLsb' (8 * k) 8

/-- The bytes of a data word in bus order, least significant first (R60). -/
def dataBytes (w : Word) : List Byte := [wordByte w 0, wordByte w 1, wordByte w 2, wordByte w 3]

/-- The little-endian value of at most four bytes (R60, R63). -/
def littleEndian : List Byte → Word
  | [] => 0
  | b :: rest => b.setWidth 32 ||| (littleEndian rest <<< 8)

/-- `P.PCFG.INSTR`, bits 7:0. -/
def pcfgInstr (w : Word) : Byte := w.extractLsb' 0 8
/-- `P.PCFG.IMODE`, bits 9:8. -/
def pcfgImode (w : Word) : BitVec 2 := w.extractLsb' 8 2
/-- `P.PCFG.ADMODE`, bits 11:10. -/
def pcfgAdmode (w : Word) : BitVec 2 := w.extractLsb' 10 2
/-- `P.PCFG.ADSIZE`, bits 13:12. -/
def pcfgAdsize (w : Word) : BitVec 2 := w.extractLsb' 12 2
/-- `P.PCFG.DCYC`, bits 22:18. -/
def pcfgDcyc (w : Word) : BitVec 5 := w.extractLsb' 18 5
/-- `P.PCFG.DMODE`, bits 25:24. -/
def pcfgDmode (w : Word) : BitVec 2 := w.extractLsb' 24 2
/-- `P.PCFG.FMODE`, bits 27:26. -/
def pcfgFmode (w : Word) : BitVec 2 := w.extractLsb' 26 2

/-- Width code: phase skipped (R39). -/
def modeNone : BitVec 2 := 0
/-- Width code: one line. -/
def modeOne : BitVec 2 := 1
/-- Width code: four lines. -/
def modeFour : BitVec 2 := 3
/-- Address size code: 32 bits. -/
def size32 : BitVec 2 := 3
/-- Function mode code: indirect-write. -/
def fmodeWrite : BitVec 2 := 0
/-- Function mode code: indirect-read. -/
def fmodeRead : BitVec 2 := 1
/-- Function mode code: auto-polling. -/
def fmodePoll : BitVec 2 := 2
/-- Function mode code: memory-mapped. -/
def fmodeMapped : BitVec 2 := 3

/-- The constant WS ORs into the cleared `P.PCFG`: IMODE and DMODE 4-wire, auto-polling (R97). -/
def kPoll : Word := 0x0B000300
/-- WE: IMODE 4-wire. -/
def kWren : Word := 0x00000300
/-- ER: IMODE and ADMODE 4-wire, ADSIZE 32-bit. -/
def kErase : Word := 0x00003F00
/-- PW: IMODE, ADMODE and DMODE 4-wire, ADSIZE 32-bit. -/
def kProgram : Word := 0x03003F00
/-- EQ: IMODE 1-wire, indirect-read. -/
def kQuad : Word := 0x04000100
/-- E4: IMODE 4-wire, indirect-read. -/
def kAddr4 : Word := 0x04000300
/-- MM step 2: opcode 0xEC, every phase 4-wire, ADSIZE 32-bit, and the dummy cycles (spec/45 R191). -/
def kMapped (p : Params) : Word := 0x03003FEC ||| (p.dummyCycles.setWidth 32 <<< 18)
/-- MM step 3: function mode memory-mapped. -/
def kMappedMode : Word := 0x0C000000

/-- The instruction phase's lines, from IMODE (R103); a code the block never writes is refused (R211(c)). That a request
without an instruction phase, IMODE none, which R207 never arms and R103 has no record for, is refused in the same way is
the model's choice (notes/assumptions/24.md). -/
def requestLines (pcfg : Word) : Except Refusal Lines :=
  if pcfgImode pcfg = modeOne then .ok .one
  else if pcfgImode pcfg = modeFour then .ok .four
  else .error .unusedModeCode

/-- The address phase, from ADMODE and ADSIZE. -/
def requestAddress (pcfg addr : Word) : Except Refusal (Option Word) :=
  if pcfgAdmode pcfg = modeNone then .ok none
  else if pcfgAdmode pcfg = modeFour ∧ pcfgAdsize pcfg = size32 then .ok (some addr)
  else .error .unusedModeCode

/-- The data phase of a live descriptor, from DMODE, FMODE, DLEN and DATA: to the chip in indirect-write mode, one
byte from the chip in auto-polling mode (R103, R208, R211(d)). -/
def requestData (d : Descriptor) : Except Refusal DataReq :=
  if pcfgDmode d.pcfg = modeNone then .ok .none
  else if pcfgDmode d.pcfg = modeFour then
    if pcfgFmode d.pcfg = fmodeWrite then
      if d.dlen.toNat ≤ 3 then .ok (.toChip ((dataBytes d.data).take (d.dlen.toNat + 1))) else .error .dataLength
    else if pcfgFmode d.pcfg = fmodePoll then
      if d.dlen = 0 then .ok (.fromChip 1) else .error .pollLength
    else .error .indirectReadData
  else .error .unusedModeCode

/-- What a live descriptor puts on the bus, or why the spec gives it no meaning. -/
def requestOf (d : Descriptor) : Except Refusal BusReq :=
  match requestLines d.pcfg with
  | .error r => .error r
  | .ok l =>
    match requestAddress d.pcfg d.addr with
    | .error r => .error r
    | .ok a =>
      match requestData d with
      | .error r => .error r
      | .ok q => .ok ⟨l, pcfgInstr d.pcfg, a, pcfgDcyc d.pcfg, q⟩

/-- What a window read of `n` bytes at chip address `a` puts on the bus: the configured opcode, lines, address
width and dummy count (spec/46 R212, R104). A configuration that skips the instruction phase or the data phase is no
mapped read of R104; that it sets the mark unusedModeCode is the model's choice (notes/assumptions/24.md). -/
def windowRequest (pcfg : Word) (a : Word) (n : Nat) : Except Refusal BusReq :=
  match requestLines pcfg with
  | .error r => .error r
  | .ok l =>
    match requestAddress pcfg a with
    | .error r => .error r
    | .ok adr =>
      if pcfgDmode pcfg = modeFour then .ok ⟨l, pcfgInstr pcfg, adr, pcfgDcyc pcfg, .fromChip n⟩
      else .error .unusedModeCode

/-- The history record of a request that carries nothing back from the chip (R103). -/
def requestRecord (r : BusReq) : BusTxn :=
  { ilines := r.ilines, instr := r.instr, addr := r.addr, dummy := r.dummy,
    data := match r.data with
      | .toChip bytes => some (.toChip, bytes)
      | _ => none }

/-- The request asks for bytes from the chip. -/
def wantsData (r : BusReq) : Bool :=
  match r.data with
  | .fromChip _ => true
  | _ => false

/-- The refusal for a request the chip's decoder rejects (R224). -/
def rejection : DecodeError → Refusal
  | .unknownOpcode => .unknownOpcode
  | _ => .undefinedTransaction

/-- All of the run of `n` bytes at system address `s` lies in the window (R63). -/
def inWindow (p : Params) (s n : Nat) : Bool :=
  decide (p.mmapBase ≤ s) && decide (s + n ≤ p.mmapBase + p.flashSize)

end Sys2Proof.Machine
end

