-- ==== Sys2Proof/Machine/Flags.lean ====
section
/-! DEFINITION. Every flag computation: the status bytes the chip's flags form (spec/10_state.md R29), the match
condition (spec/30_encoding.md R99), the busy flag as software reads it, the arming rule (spec/46 R207), and the
legality of a command in a phase (R25). -/

namespace Sys2Proof.Machine

/-- `mask` where the flag is set, nothing where it is clear. -/
def onFlag (flag : Bool) (mask : Byte) : Byte := if flag then mask else 0

/-- The bits of status register `r` for the given flags: WIP and WEL in register A, QUAD and ADDR4 where the
parameters put them (R29, D13). -/
def flagBits (p : Params) (r : StatusReg) (wip wel quad addr4 : Bool) : Byte :=
  (if r = .a then onFlag wip p.wipMask ||| onFlag wel p.welMask else 0) |||
  (if r = p.quadReg then onFlag quad p.quadMask else 0) |||
  (if r = p.addr4Reg then onFlag addr4 p.addr4Mask else 0)

/-- The bits of status register `r` some modelled flag occupies. -/
def modelledBits (p : Params) (r : StatusReg) : Byte := flagBits p r true true true true

/-- The status byte (R29, R221): the flags in their bits, `free` in every other bit. -/
def statusByte (p : Params) (r : StatusReg) (c : Chip) (free : Byte) : Byte :=
  (free &&& ~~~ modelledBits p r) ||| flagBits p r c.wip c.wel c.quad c.addr4

/-- The match condition: `(b AND mask) = match` on 8 bits (R99). -/
def statusMatches (b mask pattern : Byte) : Bool := b &&& mask == pattern

/-- `P.STAT.BUSY` as a read gives it: any value in `P3_MMAP`, else the flag (spec/45 R197(e)). -/
def readBusy (s : State) : Bool :=
  if s.seq.phase = .p3Mmap then Config.freeBusy s.draws else s.p.busy

/-- `P.CTRL` as a word (R33). -/
def ctrlWord (p : Periph) : Word :=
  (p.presc.setWidth 32 <<< 24) ||| ((BitVec.ofBool p.apms).setWidth 32 <<< 22) |||
    (BitVec.ofBool p.en).setWidth 32

/-- `P.STAT` as a word: BUSY at bit 5, SMF at bit 3, any value elsewhere (R35). -/
def statWord (s : State) : Word :=
  (Config.freeStat s.draws &&& ~~~ 0x28#32) ||| ((BitVec.ofBool (readBusy s)).setWidth 32 <<< 5) |||
    ((BitVec.ofBool s.p.smf).setWidth 32 <<< 3)

/-- A read of a register of the interface (R32 to R44); `P.FCLR` reads 0 (R36). No read has a side effect. That the bits of
`P.DEVCFG` outside FSIZE, of `P.CTRL` outside its three fields and of `P.PINT` above 15 read 0 is the model's choice
(notes/assumptions/36.md). -/
def readReg (r : Reg) (s : State) : Word :=
  match r with
  | .ctrl => ctrlWord s.p
  | .devcfg => s.p.fsize.setWidth 32 <<< 16
  | .stat => statWord s
  | .fclr => 0
  | .dlen => s.p.dlen
  | .pcfg => s.p.pcfg
  | .addr => s.p.addr
  | .data => s.p.data
  | .psmask => s.p.psmask
  | .psmatch => s.p.psmatch
  | .pint => s.p.pint.setWidth 32

/-- The register write completes the composition of the descriptor (the `trigger` of R207). -/
def armTrigger (written : Reg) (pcfg : Word) : Bool :=
  let needsAddr := pcfgAdmode pcfg != modeNone
  let needsData := pcfgDmode pcfg != modeNone && pcfgFmode pcfg == fmodeWrite
  match written with
  | .pcfg => !needsAddr && !needsData
  | .addr => needsAddr && !needsData
  | .data => needsData
  | _ => false

/-- The register just written arms a transaction (R207). -/
def arms (written : Reg) (p : Periph) : Bool :=
  p.en && !p.busy && pcfgFmode p.pcfg != fmodeMapped && pcfgImode p.pcfg != modeNone && armTrigger written p.pcfg

/-- `legal_phase` (R25). -/
def legalPhase (op : Byte) (ph : Phase) : Bool :=
  if op = 0x05 then ph == .p0Reset
  else if op = 0x06 then ph == .p1Quad
  else if op = 0x01 ∨ op = 0x02 then ph == .p1Quad || ph == .p2Ready
  else if op = 0x03 ∨ op = 0x04 ∨ op = 0x07 then ph == .p2Ready
  else false

/-- `next_phase` (R25): the phase after `done`. -/
def nextPhase (op : Byte) (ph : Phase) : Phase :=
  if op = 0x05 then .p1Quad else if op = 0x06 then .p2Ready else if op = 0x07 then .p3Mmap else ph

/-- The command port can take a command (R24). -/
def portReady (s : State) : Bool := !s.seq.active && !s.seq.fault

end Sys2Proof.Machine
end

