-- ==== Sys2Proof/Machine/Ops.lean ====
section
/-! DEFINITION. The named operations: the register interface with its arming side effect, taking a fault and the
reset that leaves it, acceptance and completion of a command, the sequencer's elementary steps, the peripheral's
completion of a transaction and its poll, the chip's reaction and its completion of a pending operation. -/

namespace Sys2Proof.Machine

/-! ## The REFUSED mark and the events -/

/-- Set the `REFUSED` mark; it is sticky and keeps its first reason (spec/60_exceptions.md R252). -/
def refuse (r : Refusal) (s : State) : State := { s with refused := some (s.refused.getD r) }

/-- Tell the host something. -/
def emit (e : HostEvent) (s : State) : State := { s with events := s.events ++ [e] }

/-! ## Taking a fault, and power-on reset -/

/-- Cause code 1 (R241). -/
def causeIllegal : BitVec 2 := 1
/-- Cause code 2 (R242). -/
def causePrecondition : BitVec 2 := 2
/-- Cause code 3 (R243). -/
def causeTimeout : BitVec 2 := 3

/-- Fault entry (R244): the one way the sequencer raises a fault. -/
def raise (cause : BitVec 2) (info : FaultInfo) (s : State) : State :=
  emit (.fault cause info)
    { s with seq := { s.seq with fault := true, cause := cause, stack := [], active := false } }

/-- First byte and number of bytes an operation addresses. -/
def PendingOp.range : PendingOp → Nat × Nat
  | .erase base => (base.toNat, sectorSize)
  | .program a _ _ _ _ => (a.toNat, 4)

/-- All the bytes of the operation exist. -/
def PendingOp.inChip (p : Params) (op : PendingOp) : Bool :=
  decide (op.range.1 + op.range.2 ≤ p.flashSize)

/-- The machine after a power-on reset with the given array (R54, R265): the host's remaining moves and the record
of what it was told are not the hardware's and stay. -/
def powerOn (flash : Memory) (s : State) : State :=
  { s with seq := Seq.reset, p := Periph.reset, c := Chip.reset flash, bus := [], refused := none }

/-- A Timeout stands (spec/60 R243): nothing is known of the chip until power-on reset. -/
def expired (s : State) : Bool := s.seq.cause == causeTimeout

/-- First byte and number of bytes of the runs an executing command erases or programs. -/
def Latches.addressed (x : Latches) : List (Nat × Nat) :=
  if x.op = 0x03 then [((eraseAddress x.a).toNat, sectorSize)]
  else if x.op = 0x04 then [(x.a.toNat, 4)]
  else []

/-- The runs a live transaction erases or programs. -/
def Descriptor.addressed (d : Descriptor) : List (Nat × Nat) :=
  if pcfgInstr d.pcfg = opcSe then [(d.addr.toNat / sectorSize * sectorSize, sectorSize)]
  else if pcfgInstr d.pcfg = opcPp4b then [(d.addr.toNat, 4)]
  else []

/-- The runs the pending operation addresses. -/
def pendingRuns (s : State) : List (Nat × Nat) := s.c.pending.toList.map PendingOp.range

/-- The runs whose erase or program a Timeout leaves unverified (spec/70 R287, spec/93 U16): those of the latched command
and of the live transaction, and of the operation pending when the Timeout comes. What is pending after it is itself a
free value and addresses nothing (notes/assumptions/32.md). -/
def unverified (s : State) : List (Nat × Nat) :=
  s.seq.x.addressed ++ s.p.live.toList.flatMap Descriptor.addressed ++ if expired s then [] else pendingRuns s

/-- The array with one run of it, as far as the chip has the bytes, holding any value. -/
def loseRun (s : State) (m : Memory) (run : Nat × Nat) : Memory :=
  let start := min run.1 s.params.flashSize
  Memory.setRun s.params.launchByte m start (min run.2 (s.params.flashSize - start)) (Config.lostByte s.draws)

/-- The array with the bytes of all the runs holding any value. -/
def loseBytes (runs : List (Nat × Nat)) (s : State) : Memory := runs.foldl (loseRun s) s.c.flash

/-- The bytes a power-on reset leaves unknown: every byte where the REFUSED mark is set, after which nothing is known of
the machine (spec/60 R252), those a Timeout left unverified (spec/93 U16), those of an operation in progress (spec/70
R267). -/
def lostAtReset (s : State) : List (Nat × Nat) :=
  if s.refused.isSome then [(0, s.params.flashSize)]
  else if expired s then unverified s
  else if s.c.wip then pendingRuns s
  else []

/-- Power-on reset (spec/70 R265), which is also the only return from a fault (spec/60 R245) and clears the mark (R54):
Flash keeps its contents but for the bytes `lostAtReset` names. -/
def powerOnReset (s : State) : State := powerOn (loseBytes (lostAtReset s) s) s

/-- Any operation on bytes of the chip. -/
def anyOperation (p : Params) (n : Nat) : PendingOp :=
  let a := (Config.lostAddress n).toNat
  let d := Config.lostData n
  if Config.lostErase n then .erase (BitVec.ofNat 32 (a % p.flashSize / sectorSize * sectorSize))
  else .program (BitVec.ofNat 32 (a % (p.flashSize - 3))) (wordByte d 0) (wordByte d 1) (wordByte d 2) (wordByte d 3)

/-- A chip of which nothing is known (spec/20 R73, spec/60 R243, spec/70 R287, spec/93 U16): any value in every flag, any
operation pending where WIP is set, any value in the bytes `unverified` names. -/
def unknownChip (s : State) : Chip :=
  let f := Config.lostFlags s.draws
  { wel := f.getLsbD 0
    wip := f.getLsbD 1
    quad := f.getLsbD 2
    addr4 := f.getLsbD 3
    pending := if f.getLsbD 1 then some (anyOperation s.params s.draws) else none
    flash := loseBytes (unverified s) s }

/-- Until power-on reset no value of the chip is stable after a Timeout (R287, U16): each step draws a new one. -/
def unsettle (s : State) : State := if expired s then { s with c := unknownChip s } else s

/-- A routine's name. -/
def Routine.name : Routine → RoutineName
  | .ws _ _ _ => .ws
  | .we => .we
  | .er => .er
  | .pw => .pw
  | .eq => .eq
  | .e4 => .e4
  | .mm => .mm

/-- Timeout at frame `f` (spec/60 R243): the fault is raised over a chip of which nothing is known, nor is it after any
later step until power-on reset (`unsettle`, notes/assumptions/32.md). -/
def timeout (f : Frame) (s : State) : State :=
  raise causeTimeout (.position f.routine.name f.step) { s with c := unknownChip s }

/-! ## The register interface -/

/-- The descriptor registers as the arming write captures them (spec/10_state.md R50). -/
def snapshot (p : Periph) : Descriptor := ⟨p.pcfg, p.addr, p.dlen, p.data, p.psmask, p.psmatch⟩

/-- The arming side effect of a write (spec/46 R207). -/
def arm (written : Reg) (s : State) : State :=
  if arms written s.p then { s with p := { s.p with live := some (snapshot s.p), busy := true } } else s

/-- A whole-register value stored in a register. That the bits of `P.DEVCFG`, `P.CTRL` and `P.PINT` outside the fields held
are dropped is the model's choice (notes/assumptions/36.md). -/
def setReg (r : Reg) (v : Word) (p : Periph) : Periph :=
  match r with
  | .dlen => { p with dlen := v }
  | .pcfg => { p with pcfg := v }
  | .addr => { p with addr := v }
  | .data => { p with data := v }
  | .psmask => { p with psmask := v }
  | .psmatch => { p with psmatch := v }
  | .pint => { p with pint := v.setWidth 16 }
  | .devcfg => { p with fsize := v.extractLsb' 16 5 }
  | .ctrl => { p with en := v.getLsbD 0, apms := v.getLsbD 22, presc := v.extractLsb' 24 8 }
  | .stat => p
  | .fclr => if v.getLsbD 3 then { p with smf := false } else p

/-- A write of a whole register (R32 to R44), refused where R211 refuses it; `P.STAT` ignores writes (R35) and
`P.FCLR` clears SMF where bit 3 is 1 (R36). -/
def writeReg (r : Reg) (v : Word) (s : State) : State :=
  match r with
  | .stat | .fclr | .devcfg => { s with p := setReg r v s.p }
  | .ctrl =>
    if s.p.busy && !v.getLsbD 0 then refuse .disableWhileBusy s
    else if s.p.busy && v.getLsbD 22 != s.p.apms then refuse .registerWriteWhileBusy s
    else { s with p := setReg r v s.p }
  | .dlen | .pcfg | .addr | .data | .psmask | .psmatch | .pint =>
    if s.p.busy then refuse .registerWriteWhileBusy s else arm r { s with p := setReg r v s.p }

/-- `P.CTRL.EN <- b` (R33, R206, R211(b)). -/
def writeEn (b : Bool) (s : State) : State :=
  if s.p.busy && !b then refuse .disableWhileBusy s else { s with p := { s.p with en := b } }

/-- `P.CTRL.APMS <- 1` (R33, R211(a)). -/
def setApms (s : State) : State :=
  if s.p.busy then refuse .registerWriteWhileBusy s else { s with p := { s.p with apms := true } }

/-- `P.FCLR.CSMF <- 1` (R36). -/
def ackMatch (s : State) : State := writeReg .fclr 0x8 s

/-! ## The command port -/

/-- The frame a legal command starts with (R24): what `routine(x[OP])` and `locals(W)` say. -/
def startFrame (r : Routine) : Frame := ⟨r, 0⟩

/-- Acceptance of a legally encoded command (R24): load the latches, check the phase, start the routine or raise
PreconditionViolation. Where the port cannot take a command the host has no move and nothing happens. -/
def acceptCommand (x : Latches) (r : Routine) (s : State) : State :=
  if portReady s then
    let s := { s with seq := { s.seq with x := x } }
    if legalPhase x.op s.seq.phase then
      { s with seq := { s.seq with active := true, spincnt := 0, stack := [startFrame r] } }
    else raise causePrecondition (.opByte x.op) s
  else s

/-- Acceptance of a word that is no legal encoding (R24, R241): the latches are loaded, IllegalCommand raised. -/
def acceptIllegal (w : CmdWord) (s : State) : State :=
  raise causeIllegal (.opByte (cmdOp w))
    { s with seq := { s.seq with x := ⟨cmdOp w, cmdA w, cmdB w, cmdC w⟩ } }

/-- Completion of a command (R24). -/
def commandDone (s : State) : State :=
  emit .done { s with seq := { s.seq with phase := nextPhase s.seq.x.op s.seq.phase, active := false } }

/-! ## The sequencer's elementary steps -/

/-- One step of a routine's list: a register access, a wait, a call, a return, or the settle step. -/
inductive Micro where
  | en (b : Bool)
  | disableIfActive
  | psmask (v : Word)
  | psmatch (v : Word)
  | pint (v : BitVec 16)
  | apms
  | clearPcfg
  | orPcfg (k : Word)
  | dlen (v : Word)
  | addr (v : Word)
  | data (v : Word)
  | spin
  | ackMatch
  | call (r : Routine)
  | settle
  | ret
  deriving DecidableEq, Repr

/-- The stack with the top frame at its next step (R23). -/
def advance (f : Frame) (rest : List Frame) (s : State) : State :=
  { s with seq := { s.seq with stack := { f with step := f.step + 1 } :: rest } }

/-- The busy-wait (spec/40_status_wait.md R133): advance when the busy flag reads 0, else wait for ever, count, or
take a Timeout. -/
def spin (f : Frame) (rest : List Frame) (s : State) : State :=
  if !readBusy s then advance f rest { s with seq := { s.seq with spincnt := 0 } }
  else
    match s.params.spinLimit with
    | none => s
    | some n =>
      if s.seq.spincnt + 1 < n then { s with seq := { s.seq with spincnt := s.seq.spincnt + 1 } }
      else timeout f s

/-- One elementary step with top frame `f` over the frames `rest` (R23). -/
def microStep (m : Micro) (f : Frame) (rest : List Frame) (s : State) : Host.Outcome State Fault Refusal :=
  match m with
  | .en b => .next (advance f rest (writeEn b s))
  | .disableIfActive => .next (advance f rest (if s.p.en then writeEn false s else s))
  | .psmask v => .next (advance f rest (writeReg .psmask v s))
  | .psmatch v => .next (advance f rest (writeReg .psmatch v s))
  | .pint v => .next (advance f rest (writeReg .pint (v.setWidth 32) s))
  | .apms => .next (advance f rest (setApms s))
  | .clearPcfg => .next (advance f rest (writeReg .pcfg 0 s))
  | .orPcfg k => .next (advance f rest (writeReg .pcfg (s.p.pcfg ||| k) s))
  | .dlen v => .next (advance f rest (writeReg .dlen v s))
  | .addr v => .next (advance f rest (writeReg .addr v s))
  | .data v => .next (advance f rest (writeReg .data v s))
  | .spin => .next (spin f rest s)
  | .ackMatch => .next (advance f rest (ackMatch s))
  | .call r =>
    if rest.length < 2 then
      .next { s with seq := { s.seq with stack := startFrame r :: { f with step := f.step + 1 } :: rest } }
    else .fault .stackOverflow
  | .settle => .next (advance f rest s)
  | .ret => .next { s with seq := { s.seq with stack := rest } }

/-! ## The bus -/

/-- The end of a live transaction (spec/46 R208): the record joins the history, the peripheral is idle. -/
def finishTxn (t : BusTxn) (s : State) : State :=
  { s with bus := s.bus ++ [t], p := { s.p with live := none, busy := false } }

/-- The chip takes an instruction on `l` lines in its present mode (R214). -/
def lineOk (l : Lines) (c : Chip) : Bool :=
  match l with
  | .one => !c.quad
  | .four => c.quad

/-- The chip's reaction to an instruction other than a status read: refused on the wrong lines (R214) or while an
operation is in progress (R215), else the instruction's own effect. -/
def chipReact (l : Lines) (effect : State → State) (s : State) : State :=
  if !lineOk l s.c then refuse .lineDiscipline s
  else if s.c.wip then refuse .chipBusy s
  else effect s

/-- A non-polling transaction as one atomic step (R208): the chip reacts, the history grows, the peripheral is
idle again. -/
def performTxn (t : BusTxn) (effect : State → State) (s : State) : State :=
  finishTxn t (chipReact t.ilines effect s)

/-- What the peripheral does with a polled byte: at a match set SMF and, with APMS, end the transaction
(R209, R210). -/
def pollCompare (b : Byte) (p : Periph) : Periph :=
  match p.live with
  | none => p
  | some d =>
    if statusMatches b (d.psmask.setWidth 8) (d.psmatch.setWidth 8) then
      { p with smf := true, live := if p.apms then none else p.live, busy := if p.apms then false else p.busy }
    else p

/-- One status poll with opcode 0x05 or 0x15 (R209, R210, R221): allowed whatever WIP is, refused on the wrong lines
(R214). -/
def poll (l : Lines) (op : Byte) (s : State) : State :=
  if lineOk l s.c then
    let b := statusByte s.params (s.params.statusReg op) s.c (Config.freeStatus s.draws)
    { s with bus := s.bus ++ [⟨l, op, none, 0, some (.fromChip, [b])⟩], p := pollCompare b s.p }
  else refuse .lineDiscipline s

/-! ## The chip's own step -/

/-- The array after a pending operation (R222): a sector of erased bytes, or four bytes ANDed with the data. -/
def PendingOp.apply (p : Params) (op : PendingOp) (m : Memory) : Memory :=
  match op with
  | .erase base => Memory.setRun p.launchByte m base.toNat sectorSize (fun _ => p.erasedByte)
  | .program a d0 d1 d2 d3 =>
    Memory.setRun p.launchByte m a.toNat 4
      (fun k => Memory.read p.launchByte m k &&& [d0, d1, d2, d3].getD (k - a.toNat) 0)

/-- The machine after the chip has completed `op` (R222): array, WIP and WEL change in one step. -/
def completed (op : PendingOp) (s : State) : State :=
  { s with c := { s.c with flash := op.apply s.params s.c.flash, pending := none, wip := false, wel := false } }

/-- Completion of the pending operation (R222). -/
def completePending (s : State) : Host.Outcome State Fault Refusal :=
  match s.c.wip, s.c.pending with
  | true, some op =>
    if op.inChip s.params then .next (completed op s) else .fault .flashOutOfRange
  | _, _ => .next s

end Sys2Proof.Machine
end

