-- ==== Sys2Proof/Machine/ChipOps.lean ====
section
/-! DEFINITION. The chip instructions that live transactions carry (spec/46_peripheral_and_chip.md R216 to R221):
each is one atomic step of the peripheral that includes the chip's reaction (R208, R209). -/

namespace Sys2Proof.Machine

/-- CHIP_WREN, 0x06 (R216): sets the write-enable latch. -/
def execChipWren (s : State) : Host.Outcome State Fault Refusal :=
  .next (performTxn ⟨.four, opcWren, none, 0, none⟩ (fun s => { s with c := { s.c with wel := true } }) s)

/-- The reaction to 0x20 (R217): accept the erase of the sector the address lies in, or refuse. -/
def acceptErase (a : Word) (s : State) : State :=
  if !s.c.addr4 || !s.c.wel then refuse .eraseNotEnabled s
  else if s.params.flashSize ≤ a.toNat then refuse .eraseOutOfRange s
  else { s with c := { s.c with pending := some (.erase (a - BitVec.ofNat 32 (a.toNat % sectorSize))), wip := true } }

/-- CHIP_SE4K, 0x20 (R217). -/
def execChipSe4k (a : Word) (s : State) : Host.Outcome State Fault Refusal :=
  .next (performTxn ⟨.four, opcSe, some a, 0, none⟩ (acceptErase a) s)

/-- The reaction to 0x12 (R218): accept the program of four bytes, or refuse. R218's `PAGE_SIZE - 4` is a difference of
integers: a page of fewer than four bytes takes no program (notes/assumptions/31.md). -/
def acceptProgram (a : Word) (d0 d1 d2 d3 : Byte) (s : State) : State :=
  if !s.c.wel then refuse .programNotEnabled s
  else if s.params.flashSize ≤ a.toNat + 3 then refuse .programOutOfRange s
  else if s.params.pageSize < a.toNat % s.params.pageSize + 4 then refuse .programPageCross s
  else { s with c := { s.c with pending := some (.program a d0 d1 d2 d3), wip := true } }

/-- CHIP_PP4B, 0x12 (R218). -/
def execChipPp4b (a : Word) (d0 d1 d2 d3 : Byte) (s : State) : Host.Outcome State Fault Refusal :=
  .next (performTxn ⟨.four, opcPp4b, some a, 0, some (.toChip, [d0, d1, d2, d3])⟩ (acceptProgram a d0 d1 d2 d3) s)

/-- CHIP_EQIO, 0x35 (R219): sets quad mode; on four lines the flag is set already and stays. -/
def execChipEqio (l : Lines) (s : State) : Host.Outcome State Fault Refusal :=
  .next (performTxn ⟨l, opcEqio, none, 0, none⟩ (fun s => { s with c := { s.c with quad := true } }) s)

/-- CHIP_EN4B, 0xB7 (R220): sets 4-byte addressing. -/
def execChipEn4b (s : State) : Host.Outcome State Fault Refusal :=
  .next (performTxn ⟨.four, opcEn4b, none, 0, none⟩ (fun s => { s with c := { s.c with addr4 := true } }) s)

/-- CHIP_RDSR_A, 0x05 (R221): one poll of the status register 0x05 reads. -/
def execChipRdsrA (l : Lines) (s : State) : Host.Outcome State Fault Refusal :=
  .next (poll l opcRead05 s)

/-- CHIP_RDSR_B, 0x15 (R221): one poll of the status register 0x15 reads. -/
def execChipRdsrB (l : Lines) (s : State) : Host.Outcome State Fault Refusal :=
  .next (poll l opcRead15 s)

end Sys2Proof.Machine
end

