-- ==== Sys2Proof/Machine/StatusWait.lean ====
section
/-! DEFINITION. The status-wait primitive (spec/40_status_wait.md): the command WAIT_STATUS and the step list of
routine WS. -/

namespace Sys2Proof.Machine

/-- WAIT_STATUS (R131): acceptance starts WS with the opcode, mask and match of the command. -/
def execWaitStatus (opcode mask pattern : Byte) (s : State) : Host.Outcome State Fault Refusal :=
  .next (acceptCommand ⟨0x01, mask.setWidth 32, pattern.setWidth 32, opcode⟩ (.ws opcode mask pattern) s)

/-- Routine WS, thirteen steps (R132). -/
def wsSteps (p : Params) (op mask pattern : Byte) : List Micro :=
  [.en false, .psmask (mask.setWidth 32), .psmatch (pattern.setWidth 32), .pint p.pollInterval, .apms,
    .clearPcfg, .orPcfg kPoll, .en true, .orPcfg (op.setWidth 32), .spin, .ackMatch, .en false, .ret]

/-- The status-wait on write-in-progress clear, as ER and PW call it (spec/42 R156, spec/43 R166). -/
def wsIdle (p : Params) : Routine := .ws p.opcRdsrA p.wipMask 0

/-- The status-wait on the latch set and write-in-progress clear, as WE calls it (spec/41 R146). -/
def wsLatch (p : Params) : Routine := .ws p.opcRdsrA (p.welMask ||| p.wipMask) p.welMask

end Sys2Proof.Machine
end

