-- ==== Sys2Proof/Machine/EraseSector.lean ====
section
/-! DEFINITION. The sector-erase sequencer (spec/42_erase_sector.md): the command ERASE_SECTOR and the step list
of routine ER. -/

namespace Sys2Proof.Machine

/-- ERASE_SECTOR (R155): acceptance starts ER with the index in `x[A]`. -/
def execEraseSector (index : Word) (s : State) : Host.Outcome State Fault Refusal :=
  .next (acceptCommand ⟨0x03, index, 0, 0⟩ .er s)

/-- Routine ER, eleven steps (R156). -/
def erSteps (p : Params) (x : Latches) : List Micro :=
  [.call .we, .spin, .clearPcfg, .orPcfg kErase, .en true, .orPcfg (opcSe.setWidth 32), .addr (eraseAddress x.a),
    .spin, .en false, .call (wsIdle p), .ret]

end Sys2Proof.Machine
end

