-- ==== Sys2Proof/Machine/MemoryMap.lean ====
section
/-! DEFINITION. The memory-map activator (spec/45_memory_map.md): the command ENTER_MMAP, the step list of routine
MM, and the chip instruction each window read sends (spec/46 R212, R223). -/

namespace Sys2Proof.Machine

/-- ENTER_MMAP (R190): acceptance starts MM. -/
def execEnterMmap (s : State) : Host.Outcome State Fault Refusal :=
  .next (acceptCommand ⟨0x07, 0, 0, 0⟩ .mm s)

/-- Routine MM, seven steps (R191). -/
def mmSteps (p : Params) : List Micro :=
  [.en false, .clearPcfg, .orPcfg (kMapped p), .orPcfg kMappedMode, .en true, .settle, .ret]

/-- The answer to a mapped read: the bytes join the history and go to the host, nothing else changes
(spec/20 R63, spec/30 R104). -/
def serveRead (a : Word) (dummy : BitVec 5) (n : Nat) (s : State) : State :=
  let bytes := Memory.readBytes s.params.launchByte s.c.flash a.toNat n
  emit (.readData n (littleEndian bytes))
    { s with bus := s.bus ++ [⟨.four, opcQread, some a, dummy, some (.fromChip, bytes)⟩] }

/-- The reaction to 0xEC: the bytes of the array (R223), to a chip in 4-byte addressing only (spec/45 R196, spec/93 U12). -/
def acceptRead (a : Word) (dummy : BitVec 5) (n : Nat) (s : State) : State :=
  if !s.c.addr4 then refuse .readNotEnabled s
  else if s.params.flashSize < a.toNat + n then refuse .readOutOfRange s
  else serveRead a dummy n s

/-- CHIP_QIOFR (R223): `n` bytes of the array from address `a`. -/
def execChipQiofr (a : Word) (dummy : BitVec 5) (n : Nat) (s : State) : Host.Outcome State Fault Refusal :=
  .next (chipReact .four (acceptRead a dummy n) s)

end Sys2Proof.Machine
end

