-- ==== Sys2Proof/Machine/ModeEntry.lean ====
section
/-! DEFINITION. The mode-entry sequencers (spec/44_mode_entry.md): the commands ENTER_QUAD and ENTER_ADDR4 and the
step lists of routines EQ and E4. -/

namespace Sys2Proof.Machine

/-- ENTER_QUAD (R175): acceptance starts EQ. -/
def execEnterQuad (s : State) : Host.Outcome State Fault Refusal :=
  .next (acceptCommand ⟨0x05, 0, 0, 0⟩ .eq s)

/-- ENTER_ADDR4 (R179): acceptance starts E4. -/
def execEnterAddr4 (s : State) : Host.Outcome State Fault Refusal :=
  .next (acceptCommand ⟨0x06, 0, 0, 0⟩ .e4 s)

/-- Routine EQ, nine steps (R176). -/
def eqSteps (p : Params) : List Micro :=
  [.disableIfActive, .clearPcfg, .orPcfg kQuad, .en true, .orPcfg (opcEqio.setWidth 32), .spin, .en false,
    .call (.ws (p.statusOpcode p.quadReg) p.quadMask p.quadMask), .ret]

/-- Routine E4, nine steps (R180). -/
def e4Steps (p : Params) : List Micro :=
  [.disableIfActive, .clearPcfg, .orPcfg kAddr4, .en true, .orPcfg (opcEn4b.setWidth 32), .spin, .en false,
    .call (.ws (p.statusOpcode p.addr4Reg) p.addr4Mask p.addr4Mask), .ret]

end Sys2Proof.Machine
end

