-- ==== Sys2Proof/Machine/ProgramWord.lean ====
section
/-! DEFINITION. The page-program sequencer (spec/43_program_word.md): the command WRITE_WORD and the step list of
routine PW. -/

namespace Sys2Proof.Machine

/-- WRITE_WORD (R165): acceptance starts PW with the address in `x[A]` and the data in `x[B]`. -/
def execWriteWord (addr data : Word) (s : State) : Host.Outcome State Fault Refusal :=
  .next (acceptCommand ⟨0x04, addr, data, 0⟩ .pw s)

/-- Routine PW, thirteen steps (R166). -/
def pwSteps (p : Params) (x : Latches) : List Micro :=
  [.call .we, .clearPcfg, .orPcfg kProgram, .dlen 3, .en true, .orPcfg (opcPp4b.setWidth 32), .addr x.a, .data x.b,
    .spin, .en false, .dlen 0, .call (wsIdle p), .ret]

end Sys2Proof.Machine
end

