-- ==== Sys2Proof/Machine/WriteEnable.lean ====
section
/-! DEFINITION. The write-enable sequencer (spec/41_write_enable.md): the command WRITE_ENABLE and the step list
of routine WE. -/

namespace Sys2Proof.Machine

/-- WRITE_ENABLE (R145): acceptance starts WE. -/
def execWriteEnable (s : State) : Host.Outcome State Fault Refusal :=
  .next (acceptCommand ⟨0x02, 0, 0, 0⟩ .we s)

/-- Routine WE, nine steps (R146). -/
def weSteps (p : Params) : List Micro :=
  [.en false, .clearPcfg, .orPcfg kWren, .en true, .orPcfg (opcWren.setWidth 32), .spin, .en false,
    .call (wsLatch p), .ret]

end Sys2Proof.Machine
end

