-- ==== Sys2Proof/Machine/Dispatch.lean ====
section
/-! DEFINITION. The meaning of every instruction: one arm for each constructor of Instr. -/

namespace Sys2Proof.Machine

def exec (i : Instr) (s : State) : Host.Outcome State Fault Refusal :=
  match i with
  | .waitStatus opcode mask pattern => Sys2Proof.Machine.execWaitStatus opcode mask pattern s
  | .writeEnable => Sys2Proof.Machine.execWriteEnable s
  | .eraseSector index => Sys2Proof.Machine.execEraseSector index s
  | .writeWord addr data => Sys2Proof.Machine.execWriteWord addr data s
  | .enterQuad => Sys2Proof.Machine.execEnterQuad s
  | .enterAddr4 => Sys2Proof.Machine.execEnterAddr4 s
  | .enterMmap => Sys2Proof.Machine.execEnterMmap s
  | .chipWren => Sys2Proof.Machine.execChipWren s
  | .chipSe4k addr => Sys2Proof.Machine.execChipSe4k addr s
  | .chipPp4b addr d0 d1 d2 d3 => Sys2Proof.Machine.execChipPp4b addr d0 d1 d2 d3 s
  | .chipEqio lines => Sys2Proof.Machine.execChipEqio lines s
  | .chipEn4b => Sys2Proof.Machine.execChipEn4b s
  | .chipRdsrA lines => Sys2Proof.Machine.execChipRdsrA lines s
  | .chipRdsrB lines => Sys2Proof.Machine.execChipRdsrB lines s
  | .chipQiofr addr dummy count => Sys2Proof.Machine.execChipQiofr addr dummy count s

end Sys2Proof.Machine
end

