-- ==== Sys2Proof/Machine/Agents.lean ====
section
/-! DEFINITION. The step of each of the four agents (spec/00_scope.md R9): the host presents its next move, the
sequencer runs the top frame's next step, the peripheral performs the live transaction or repeats the poll, the
chip completes its pending operation. An agent with nothing to do leaves the state as it is. -/

namespace Sys2Proof.Machine

/-- A routine's step list (spec files 40 to 45). -/
def routineSteps (r : Routine) (p : Params) (x : Latches) : List Micro :=
  match r with
  | .ws op mask pattern => wsSteps p op mask pattern
  | .we => weSteps p
  | .er => erSteps p x
  | .pw => pwSteps p x
  | .eq => eqSteps p
  | .e4 => e4Steps p
  | .mm => mmSteps p

/-- The sequencer's step (R23, R24): the top frame's next step, or `done` on an empty stack. -/
def sequencerStep (s : State) : Host.Outcome State Fault Refusal :=
  if s.seq.active then
    match s.seq.stack with
    | [] => .next (commandDone s)
    | f :: rest =>
      match (routineSteps f.routine s.params s.seq.x)[f.step]? with
      | none => .fault .noSuchStep
      | some m => microStep m f rest s
  else .next s

/-- A request the chip's decoder rejects: the mark is set; a transaction that brings nothing back is still
performed (R208, R224), one that does has no byte to record. -/
def performUnknown (e : DecodeError) (r : BusReq) (s : State) : State :=
  if wantsData r then refuse (rejection e) s else finishTxn (requestRecord r) (refuse (rejection e) s)

/-- The request of an auto-polling descriptor: an instruction and one byte from the chip, no address (R209). -/
def pollShape (r : BusReq) : Bool := r.addr.isNone && r.data == .fromChip 1

/-- The peripheral performs a live transaction: the request of its descriptor reaches the chip, which decodes and
executes it (spec/46 R208 to R210); an auto-polling descriptor of another shape has no meaning. -/
def performLive (d : Descriptor) (s : State) : Host.Outcome State Fault Refusal :=
  match requestOf d with
  | .error r => .next (refuse r s)
  | .ok req =>
    if pcfgFmode d.pcfg = fmodePoll ∧ pollShape req = false then .next (refuse .undefinedTransaction s)
    else
      match decodeBus req with
      | .ok i => exec i s
      | .error e => .next (performUnknown e req s)

/-- The peripheral's step; a live descriptor in memory-mapped mode is enabled by no rule. -/
def peripheralStep (s : State) : Host.Outcome State Fault Refusal :=
  match s.p.live with
  | none => .next s
  | some d => if pcfgFmode d.pcfg = fmodeMapped then .next s else performLive d s

/-- The chip's step (R222). After a Timeout whether an operation is pending, and what became of it, is no more known, and
`unsettle` draws both at every step: the chip has no step of its own (notes/assumptions/32.md). -/
def chipStep (s : State) : Host.Outcome State Fault Refusal := if expired s then .next s else completePending s

/-- The host presents a command word (spec/10 R24): no move while the port is not ready. -/
def presentCommand (w : CmdWord) (rest : List HostMove) (s : State) : Host.Outcome State Fault Refusal :=
  if portReady s then
    match decodeCommand w with
    | .ok i => exec i { s with moves := rest }
    | .error _ => .next (acceptIllegal w { s with moves := rest })
  else .next s

/-- The host reads `n` bytes at system address `a` (spec/20 R63, R65(b), R69; spec/46 R212). That a read in `P3_MMAP` of a
peripheral that is disabled or not memory-mapped, which R212 does not enable, sets the mark is the model's choice
(notes/assumptions/34.md), and so is the mark on a configuration that skips the instruction, the address or the data
phase, no mapped read of R104 (notes/assumptions/24.md). -/
def windowRead (a n : Nat) (rest : List HostMove) (s : State) : Host.Outcome State Fault Refusal :=
  if !inWindow s.params a n then .fault .outsideWindow
  else if s.seq.phase ≠ .p3Mmap ∨ s.seq.active then .next (refuse .windowReadEarly { s with moves := rest })
  else if !s.p.en ∨ pcfgFmode s.p.pcfg ≠ fmodeMapped then .next (refuse .windowNotServed { s with moves := rest })
  else
    match windowRequest s.p.pcfg (BitVec.ofNat 32 (a - s.params.mmapBase)) n with
    | .error r => .next (refuse r { s with moves := rest })
    | .ok req =>
      if req.addr.isNone then .next (refuse .undefinedTransaction { s with moves := rest })
      else
        match decodeBus req with
        | .ok i => exec i { s with moves := rest }
        | .error e => .next (refuse (rejection e) { s with moves := rest })

/-- The host writes at system address `a`: never supported in the window (R65(a)), outside it not the block's
(R69). -/
def windowWrite (a : Nat) (rest : List HostMove) (s : State) : Host.Outcome State Fault Refusal :=
  if inWindow s.params a 1 then .next (refuse .windowWrite { s with moves := rest }) else .fault .outsideWindow

/-- The host's step: its next move. -/
def hostStep (s : State) : Host.Outcome State Fault Refusal :=
  match s.moves with
  | [] => .next s
  | .command w :: rest => presentCommand w rest s
  | .read a n :: rest => windowRead a n rest s
  | .write a _ _ :: rest => windowWrite a rest s
  | .await :: rest => if s.seq.active then .next s else .next { s with moves := rest }
  | .powerOnReset :: rest => .next (powerOnReset { s with moves := rest })

/-- The step of one agent. -/
def agentStep (a : Agent) (s : State) : Host.Outcome State Fault Refusal :=
  match a with
  | .host => hostStep s
  | .sequencer => sequencerStep s
  | .peripheral => peripheralStep s
  | .chip => chipStep s

/-- After a step: count it, and take the agent that moves next from the free value (spec/20 R71); where a Timeout stands,
the chip is any chip (spec/93 U16). -/
def tick (o : Host.Outcome State Fault Refusal) : Host.Outcome State Fault Refusal :=
  match o with
  | .next s => .next { unsettle s with draws := s.draws + 1, turn := Config.agentAt s.draws }
  | .fault f => .fault f
  | .refused r => .refused r

/-- A step of agent `a` would be the host's power-on reset. -/
abbrev resetsNext (a : Agent) (s : State) : Prop := a = .host ∧ s.moves.head? = some .powerOnReset

/-- Agent `a` moves. Once the `REFUSED` mark is set nothing is known of the machine (spec/60 R252): every step but the
host's power-on reset, which clears the mark (spec/10 R54), is refused with the reason of the mark. -/
def stepAs (a : Agent) (s : State) : Host.Outcome State Fault Refusal :=
  match s.refused with
  | none => tick (agentStep a s)
  | some r => if resetsNext a s then tick (agentStep a s) else .refused r

/-- A run under a chosen schedule: the agents of the list move one after the other. `step` is the case of a list
of one, so what holds for every list holds for every interleaving. -/
def runAs : List Agent → State → Host.Outcome State Fault Refusal
  | [], s => .next s
  | a :: rest, s =>
    match stepAs a s with
    | .next s' => runAs rest s'
    | .fault f => .fault f
    | .refused r => .refused r

/-- The descriptor a chip opcode's table row stands for: the final `P.PCFG` of spec/30_encoding.md R97, operand
registers zero, four data bytes for the program. -/
def opcodeDescriptor (op : Byte) : Descriptor :=
  let k : Word :=
    if op = opcSe then kErase
    else if op = opcPp4b then kProgram
    else if op = opcEqio then kQuad
    else if op = opcEn4b then kAddr4
    else if op = opcRead05 ∨ op = opcRead15 then kPoll
    else kWren
  ⟨k ||| op.setWidth 32, 0, if op = opcPp4b then 3 else 0, 0, 0, 0⟩

/-- A command word as the host's very next move, on a port that takes it. -/
def placeCommand (w : CmdWord) (s : State) : State :=
  { s with moves := .command w :: s.moves, turn := .host, refused := none,
           seq := { s.seq with active := false, fault := false, cause := 0, stack := [] } }

/-- A chip opcode as the live transaction the peripheral performs next, on a chip that listens on the lines the
instruction travels on. -/
def placeLive (op : Byte) (s : State) : State :=
  { s with turn := .peripheral, refused := none, p := { s.p with live := some (opcodeDescriptor op), busy := true },
           c := { s.c with quad := op != opcEqio } }

/-- The quad read as the host's very next move: a one-byte read of the window's first byte, on a machine that
serves it with the opcode of the row and no dummy cycle. -/
def placeWindowRead (s : State) : State :=
  { s with moves := .read s.params.mmapBase 1 :: s.moves, turn := .host, refused := none,
           seq := { s.seq with active := false, stack := [], phase := .p3Mmap },
           p := { s.p with en := true, pcfg := 0x0F003FEC },
           c := { s.c with quad := true, addr4 := true } }

end Sys2Proof.Machine
end

