-- ==== Sys2Proof/Machine/Step.lean ====
section
/-! DEFINITION. One step of the machine, and the state in which a given instruction is the next to run. -/

namespace Sys2Proof.Machine

/-- One step: the agent whose turn it is moves. -/
def step (s : State) : Host.Outcome State Fault Refusal := stepAs s.turn s

/-- `s` with the instruction whose bits are `w` placed where the next step takes it from: an 80-bit command word at
the head of the host's moves, an 8-bit chip opcode in the live transaction, the quad read as a window read
(notes/assumptions/2.md). -/
def State.withFetchWord (s : State) (nbits w : Nat) : State :=
  if nbits = 80 then placeCommand (BitVec.ofNat 80 w) s
  else if nbits = 8 then
    if BitVec.ofNat 8 w = opcQread then placeWindowRead s else placeLive (BitVec.ofNat 8 w) s
  else s

end Sys2Proof.Machine
end

