-- ==== Sys2Proof/Safety.lean ====
section
/-! DEFINITION. What counts as a safe run: the relations between fields that hold in every state (`Basic`), the
invariants of the composed system at every control point (`Consistent`, spec/46_peripheral_and_chip.md R227), and
the premises of a run (fairness R213 and R225, boot requirements spec/70 R271). -/

namespace Sys2Proof.Machine

/-! ## Relations between fields -/

/-- The reserved bits of `P.PCFG`: 31:28, 23 and 17:14 (spec/10_state.md R38). -/
def pcfgReserved : Word := 0xF083C000

/-- The relations that hold in every state, faulted or not: the parameters make sense; BUSY exactly when a
transaction is live (R50); WIP exactly when an operation is pending, on bytes that exist (R51, R46); Flash in
canonical form; the reserved bits of `P.PCFG` zero (R38); the fault record (R26, R244); a stack of at most three
frames, and none while no command executes (R23); a spin count below its bound, and none without a bound (R27). -/
structure Basic (s : State) : Prop where
  params : s.params.wf = true
  busy_live : s.p.busy = s.p.live.isSome
  wip_pending : s.c.wip = s.c.pending.isSome
  pending_range : ∀ op, s.c.pending = some op → op.inChip s.params = true
  flash : Memory.wf s.params s.c.flash = true
  reserved : s.p.pcfg &&& pcfgReserved = 0
  fault_cause : s.seq.fault = false ↔ s.seq.cause = 0
  fault_idle : s.seq.fault = true → s.seq.active = false
  idle_stack : s.seq.active = false → s.seq.stack = []
  depth : s.seq.stack.length ≤ 3
  spin_bound : ∀ n, s.params.spinLimit = some n → s.seq.spincnt < n
  spin_absent : s.params.spinLimit = none → s.seq.spincnt = 0

/-! ## Control points

For each routine and step, what holds of the peripheral when that frame is on top. -/

/-- The step of a routine at which its transaction may be live: the busy-wait after the arming write. -/
def Routine.armedStep : Routine → Nat
  | .ws _ _ _ => 9
  | .we => 5
  | .er => 7
  | .pw => 8
  | .eq => 5
  | .e4 => 5
  | .mm => 7

/-- `P.CTRL.EN` when the frame is on top: set between the enabling write and the disabling one. -/
def Routine.enAt (r : Routine) (k : Nat) : Bool :=
  match r with
  | .ws _ _ _ => decide (8 ≤ k) && decide (k ≤ 11)
  | .we => decide (4 ≤ k) && decide (k ≤ 6)
  | .er => decide (5 ≤ k) && decide (k ≤ 8)
  | .pw => decide (5 ≤ k) && decide (k ≤ 9)
  | .eq | .e4 => decide (4 ≤ k) && decide (k ≤ 6)
  | .mm => decide (5 ≤ k)

/-- `P.DLEN` when the frame is on top: 3 in PW from its step 3 to its step 10, else 0 (spec/10 R37, spec/43
R166). -/
def Routine.dlenAt (r : Routine) (k : Nat) : Word :=
  match r with
  | .pw => if 4 ≤ k ∧ k ≤ 10 then 3 else 0
  | .ws _ _ _ | .we | .er | .eq | .e4 | .mm => 0

/-- `P.PCFG` when the frame is on top, where the routine has composed it: cleared before step `clear + 1`,
`k` after the phase write, `k OR opcode` from `final` until a nested status-wait overwrites it at step `last`. -/
def Routine.pcfgAt (r : Routine) (p : Params) (k : Nat) : Option Word :=
  match r with
  | .ws op _ _ =>
    if k = 6 then some 0 else if k = 7 ∨ k = 8 then some kPoll
    else if 9 ≤ k then some (kPoll ||| op.setWidth 32) else none
  | .we =>
    if k = 2 then some 0 else if k = 3 ∨ k = 4 then some kWren
    else if 5 ≤ k ∧ k ≤ 7 then some (kWren ||| opcWren.setWidth 32)
    else if k = 8 then some (kPoll ||| p.opcRdsrA.setWidth 32) else none
  | .er =>
    if k = 3 then some 0 else if k = 4 ∨ k = 5 then some kErase
    else if 6 ≤ k ∧ k ≤ 9 then some (kErase ||| opcSe.setWidth 32)
    else if k = 10 then some (kPoll ||| p.opcRdsrA.setWidth 32) else none
  | .pw =>
    if k = 2 then some 0 else if 3 ≤ k ∧ k ≤ 5 then some kProgram
    else if 6 ≤ k ∧ k ≤ 11 then some (kProgram ||| opcPp4b.setWidth 32)
    else if k = 12 then some (kPoll ||| p.opcRdsrA.setWidth 32) else none
  | .eq =>
    if k = 2 then some 0 else if k = 3 ∨ k = 4 then some kQuad
    else if 5 ≤ k ∧ k ≤ 7 then some (kQuad ||| opcEqio.setWidth 32)
    else if k = 8 then some (kPoll ||| (p.statusOpcode p.quadReg).setWidth 32) else none
  | .e4 =>
    if k = 2 then some 0 else if k = 3 ∨ k = 4 then some kAddr4
    else if 5 ≤ k ∧ k ≤ 7 then some (kAddr4 ||| opcEn4b.setWidth 32)
    else if k = 8 then some (kPoll ||| (p.statusOpcode p.addr4Reg).setWidth 32) else none
  | .mm =>
    if k = 2 then some 0 else if k = 3 then some (kMapped p)
    else if 4 ≤ k then some (kMapped p ||| kMappedMode) else none

/-- The opcode of the status-wait that has just returned when the frame is on top, at the last step of each routine that
calls one. -/
def Routine.waitedOn (r : Routine) (p : Params) (k : Nat) : Option Byte :=
  match r with
  | .we => if k = 8 then some p.opcRdsrA else none
  | .er => if k = 10 then some p.opcRdsrA else none
  | .pw => if k = 12 then some p.opcRdsrA else none
  | .eq => if k = 8 then some (p.statusOpcode p.quadReg) else none
  | .e4 => if k = 8 then some (p.statusOpcode p.addr4Reg) else none
  | .ws _ _ _ | .mm => none

/-- The match registers and APMS as a routine has written them when the frame is on top. -/
def Routine.operandsAt (r : Routine) (k : Nat) (s : State) : Prop :=
  match r with
  | .ws _ mask pattern =>
    (2 ≤ k → s.p.psmask = mask.setWidth 32) ∧ (3 ≤ k → s.p.psmatch = pattern.setWidth 32) ∧
      (4 ≤ k → s.p.pint = s.params.pollInterval) ∧ (5 ≤ k → s.p.apms = true)
  | .eq => k = 8 → s.p.apms = true
  | .we | .er | .pw | .e4 | .mm => True

/-- The address and data registers a routine has written, which no routine it calls changes: what a frame anywhere
in the stack says of them. -/
def Routine.keptAt (r : Routine) (k : Nat) (s : State) : Prop :=
  match r with
  | .er => 7 ≤ k → s.p.addr = eraseAddress s.seq.x.a
  | .pw => (7 ≤ k → s.p.addr = s.seq.x.a) ∧ (8 ≤ k → s.p.data = s.seq.x.b)
  | .ws _ _ _ | .we | .eq | .e4 | .mm => True

/-- The routine's own transaction has been performed, or its poll has matched. -/
def performed (f : Frame) (s : State) : Prop :=
  f.routine.armedStep < f.step ∨ f.step = f.routine.armedStep ∧ s.p.live = none

/-- The record of one status poll on four lines (spec/30 R103). -/
def pollRecord (op b : Byte) : BusTxn := ⟨.four, op, none, 0, some (.fromChip, [b])⟩

/-- The newest record of the history is a poll of `op` whose byte satisfies mask and match (spec/40 R134). -/
def lastPollMatched (op mask pattern : Byte) (s : State) : Prop :=
  ∃ b, s.bus.getLast? = some (pollRecord op b) ∧ statusMatches b mask pattern = true

/-- The newest record of the history is a poll of `op`: the last status-wait read with it. -/
def lastPolled (op : Byte) (s : State) : Prop := ∃ b, s.bus.getLast? = some (pollRecord op b)

/-- What the top frame says of the peripheral: its registers have the routine's values, the live transaction, if
any, is the one just armed and captured, SMF is set between a match and its acknowledgement only, and after a called
status-wait the newest record is its poll. -/
structure TopOk (f : Frame) (s : State) : Prop where
  bound : f.step < (routineSteps f.routine s.params s.seq.x).length
  en : s.p.en = f.routine.enAt f.step
  dlen : s.p.dlen = f.routine.dlenAt f.step
  pcfg : ∀ w, f.routine.pcfgAt s.params f.step = some w → s.p.pcfg = w
  operands : f.routine.operandsAt f.step s
  live : s.p.live = none ∨ f.step = f.routine.armedStep ∧ s.p.live = some (snapshot s.p)
  smf : s.p.smf = true → (∃ o m t, f.routine = .ws o m t) ∧ (f.step = 9 ∨ f.step = 10) ∧ s.p.live = none
  latch : f.routine = .er ∨ f.routine = .pw → 1 ≤ f.step → ¬ performed f s → s.c.wel = true
  settled : f.routine = .er ∧ f.step = 10 ∨ f.routine = .pw ∧ f.step = 12 → s.c.wip = false
  waited : ∀ op, f.routine.waitedOn s.params f.step = some op → lastPolled op s

/-- Sector `i` is wholly erased. -/
def sectorErased (i : Word) (s : State) : Prop :=
  ∀ j, j < sectorSize →
    Memory.read s.params.launchByte s.c.flash ((eraseAddress i).toNat + j) = s.params.erasedByte

/-- The four bytes at `a` hold no bit the data word `d` lacks. -/
def wordProgrammed (a d : Word) (s : State) : Prop :=
  ∀ k, k < 4 → Memory.read s.params.launchByte s.c.flash (a.toNat + k) &&& ~~~ wordByte d k = 0

/-- The erase of sector `i` is in progress, or has been applied and has consumed the latch (spec/42 R157). -/
def eraseUnderWay (i : Word) (s : State) : Prop :=
  s.c.pending = some (.erase (eraseAddress i)) ∨ s.c.pending = none ∧ s.c.wel = false ∧ sectorErased i s

/-- The program of `d` at `a` is in progress, or has been applied and has consumed the latch (spec/43 R167). -/
def programUnderWay (a d : Word) (s : State) : Prop :=
  s.c.pending = some (.program a (wordByte d 0) (wordByte d 1) (wordByte d 2) (wordByte d 3)) ∨
    s.c.pending = none ∧ s.c.wel = false ∧ wordProgrammed a d s

/-- What a frame anywhere in the stack says of the chip. -/
def chipOk (f : Frame) (s : State) : Prop :=
  match f.routine with
  | .ws op mask pattern =>
    performed f s →
      lastPollMatched op mask pattern s ∧
        (op = s.params.opcRdsrA → mask = s.params.wipMask → pattern = 0 → s.c.wip = false)
  | .we => s.c.wip = false ∧ (performed f s → s.c.wel = true)
  | .er => (¬ performed f s → s.c.wip = false) ∧ (performed f s → eraseUnderWay s.seq.x.a s)
  | .pw => (¬ performed f s → s.c.wip = false) ∧ (performed f s → programUnderWay s.seq.x.a s.seq.x.b s)
  | .eq => s.c.wip = false ∧ (s.c.quad = true ↔ performed f s) ∧ s.c.addr4 = false
  | .e4 => s.c.wip = false ∧ (performed f s → s.c.addr4 = true)
  | .mm => s.c.wip = false

/-- The routine a command starts (spec/10 R24), by its latches. -/
def routineOf (x : Latches) : Option Routine :=
  if x.op = 0x01 then some (.ws x.c (x.a.setWidth 8) (x.b.setWidth 8))
  else if x.op = 0x02 then some .we
  else if x.op = 0x03 then some .er
  else if x.op = 0x04 then some .pw
  else if x.op = 0x05 then some .eq
  else if x.op = 0x06 then some .e4
  else if x.op = 0x07 then some .mm
  else none

/-- Each frame but the last was called by the one below it, and the last is the command's routine (R23). -/
def stackOk (p : Params) (x : Latches) : List Frame → Prop
  | [] => True
  | [f] => some f.routine = routineOf x
  | f :: g :: rest =>
    1 ≤ g.step ∧ (routineSteps g.routine p x)[g.step - 1]? = some (.call f.routine) ∧ stackOk p x (g :: rest)

/-- `P.PCFG` holds the configuration of the last status-wait, whose poll is the newest record (R227 item 6). -/
def pollConfigured (s : State) : Prop := ∃ op : Byte, lastPolled op s ∧ s.p.pcfg = kPoll ||| op.setWidth 32

/-- What the phase says of the chip and of APMS outside ENTER_QUAD (R227 items 5 and 6). -/
structure PhaseOk (s : State) : Prop where
  quad : s.seq.phase ≠ .p0Reset → s.c.quad = true ∧ s.p.apms = true
  addr4 : s.seq.phase = .p2Ready ∨ s.seq.phase = .p3Mmap → s.c.addr4 = true

/-- The peripheral is idle, its flags and its length cleared (R227 items 1 and 2). -/
structure Quiet (s : State) : Prop where
  live : s.p.live = none
  smf : s.p.smf = false
  dlen : s.p.dlen = 0

/-- No command executes (R227 items 1 to 4, 6, 7). In `P0_RESET` every item of spec/10 R54 has its reset value but PRESC
and FSIZE, which boot software writes (R56), and the latches of a command that was refused with a fault (R244). -/
structure IdleOk (s : State) : Prop where
  quiet : Quiet s
  wip : s.c.wip = false
  p0 : s.seq.phase = .p0Reset →
    s.p.en = false ∧ s.p.apms = false ∧ s.p.pcfg = 0 ∧ s.p.addr = 0 ∧ s.p.data = 0 ∧ s.p.psmask = 0 ∧
      s.p.psmatch = 0 ∧ s.p.pint = 0 ∧ s.c.wel = false ∧ s.c.quad = false ∧ s.c.addr4 = false ∧
      s.seq.spincnt = 0 ∧ s.bus = [] ∧ (s.seq.fault = false → s.seq.x = ⟨0, 0, 0, 0⟩)
  indirect : s.seq.phase = .p1Quad ∨ s.seq.phase = .p2Ready → s.p.en = false ∧ pollConfigured s
  mapped : s.seq.phase = .p3Mmap → s.p.en = true ∧ s.p.pcfg = kMapped s.params ||| kMappedMode

/-- The command's last routine has returned and `done` is next. -/
structure FinishedOk (s : State) : Prop where
  quiet : Quiet s
  wip : s.c.wip = false
  indirect : s.seq.x.op ≠ 0x07 → s.p.en = false ∧ pollConfigured s
  mapped : s.seq.x.op = 0x07 → s.p.en = true ∧ s.p.pcfg = kMapped s.params ||| kMappedMode
  polled : ∀ o m t, routineOf s.seq.x = some (.ws o m t) → lastPollMatched o m t s
  latched : s.seq.x.op = 0x02 → s.c.wel = true
  erased : s.seq.x.op = 0x03 → eraseUnderWay s.seq.x.a s ∧ s.p.addr = eraseAddress s.seq.x.a
  programmed : s.seq.x.op = 0x04 →
    programUnderWay s.seq.x.a s.seq.x.b s ∧ s.p.addr = s.seq.x.a ∧ s.p.data = s.seq.x.b
  quad : s.seq.x.op = 0x05 → s.c.quad = true ∧ s.p.apms = true
  addr4 : s.seq.x.op = 0x06 → s.c.addr4 = true

/-- A command executes; an operation is in progress in the chip during ERASE_SECTOR and WRITE_WORD only (spec/46
R215). -/
structure ActiveOk (s : State) : Prop where
  legal : legalPhase s.seq.x.op s.seq.phase = true
  stack : stackOk s.params s.seq.x s.seq.stack
  top : ∀ f rest, s.seq.stack = f :: rest → TopOk f s
  chip : ∀ f ∈ s.seq.stack, chipOk f s
  kept : ∀ f ∈ s.seq.stack, f.routine.keptAt f.step s
  calm : s.seq.x.op ≠ 0x03 → s.seq.x.op ≠ 0x04 → s.c.wip = false
  finished : s.seq.stack = [] → FinishedOk s

/-- The composed system is in a state the rules lead to: the invariants of R227 at every control point, a machine faulted
by the precise causes 1 and 2 (spec/60 R244) among them. After a Timeout, cause 3, nothing may be assumed (R243): such a
machine keeps `Basic` alone, and is never in `P3_MMAP`, where no wait is executed. -/
structure Consistent (s : State) : Prop where
  basic : Basic s
  phase : s.seq.cause ≠ 3 → PhaseOk s
  idle : s.seq.cause ≠ 3 → s.seq.active = false → IdleOk s
  active : s.seq.active = true → ActiveOk s
  mapped : s.seq.phase = .p3Mmap → s.seq.cause ≠ 3

/-! ## What statements speak of -/

/-- The seven commands of the command port, as against the chip's opcodes. -/
def isCommand : Instr → Bool
  | .waitStatus _ _ _ | .writeEnable | .eraseSector _ | .writeWord _ _ | .enterQuad | .enterAddr4 | .enterMmap => true
  | .chipWren | .chipSe4k _ | .chipPp4b _ _ _ _ _ | .chipEqio _ | .chipEn4b | .chipRdsrA _ | .chipRdsrB _
  | .chipQiofr _ _ _ => false

/-- The lines a chip instruction travels on (spec/30 R100); a command travels on none. -/
def instrLines : Instr → Option Lines
  | .chipEqio l | .chipRdsrA l | .chipRdsrB l => some l
  | .chipWren | .chipSe4k _ | .chipPp4b _ _ _ _ _ | .chipEn4b | .chipQiofr _ _ _ => some .four
  | .waitStatus _ _ _ | .writeEnable | .eraseSector _ | .writeWord _ _ | .enterQuad | .enterAddr4 | .enterMmap => none

/-- A read of one of the two status registers. -/
def isStatusRead : Instr → Bool
  | .chipRdsrA _ | .chipRdsrB _ => true
  | .chipWren | .chipSe4k _ | .chipPp4b _ _ _ _ _ | .chipEqio _ | .chipEn4b | .chipQiofr _ _ _
  | .waitStatus _ _ _ | .writeEnable | .eraseSector _ | .writeWord _ _ | .enterQuad | .enterAddr4 | .enterMmap => false

/-- A byte of the chip's array. -/
def flashByte (s : State) (a : Nat) : Byte := Memory.read s.params.launchByte s.c.flash a

/-- The step from `s` to `t` took a Timeout (spec/60 R243). -/
def timedOut (s t : State) : Prop := ∃ info, t.events = s.events ++ [.fault 3 info]

/-- The machine right after the acceptance of a legal command (spec/10 R24). -/
def started (x : Latches) (r : Routine) (s : State) : State :=
  { s with seq := { s.seq with x := x, active := true, spincnt := 0, stack := [⟨r, 0⟩] } }

/-- The register state a status-wait leaves (the table of spec/40 R134). -/
structure LeftByPoll (op mask pattern : Byte) (s : State) : Prop where
  en : s.p.en = false
  apms : s.p.apms = true
  psmask : s.p.psmask = mask.setWidth 32
  psmatch : s.p.psmatch = pattern.setWidth 32
  pint : s.p.pint = s.params.pollInterval
  pcfg : s.p.pcfg = kPoll ||| op.setWidth 32
  busy : s.p.busy = false
  live : s.p.live = none
  smf : s.p.smf = false
  dlen : s.p.dlen = 0

/-- A command has reported `done`, the last event, in the given phase, with neither fault nor mark. -/
structure ReportedDone (ph : Phase) (s t : State) : Prop where
  refused : t.refused = none
  active : t.seq.active = false
  fault : t.seq.fault = false
  phase : t.seq.phase = ph
  events : t.events = s.events ++ [.done]

/-! ## Premises of a run -/

/-- A schedule on which the peripheral and the chip move again and again (spec/46 R213, R225). -/
def Fair (sched : Nat → Agent) : Prop :=
  ∀ k, (∃ m, k ≤ m ∧ sched m = .peripheral) ∧ (∃ m, k ≤ m ∧ sched m = .chip)

/-- A schedule on which the sequencer moves again and again: its next step, enabled, is not put off for ever. -/
def SequencerMoves (sched : Nat → Agent) : Prop := ∀ k, ∃ m, k ≤ m ∧ sched m = .sequencer

/-- The fairness premise of a run under a schedule: promised when CHIP_RESPONSIVE is true, not otherwise. It is the
premise of every claim of termination. -/
def Responsive (sched : Nat → Agent) (s : State) : Prop := s.params.chipResponsive = true → Fair sched

/-- Boot software has set the baud-rate divisor and the declared capacity (spec/70 R271 items 3 and 4, the capacity in
the PRESUMED encoding of notes/assumptions/9.md). -/
def Booted (s : State) : Prop :=
  s.p.presc = s.params.prescaler ∧ 2 ^ (s.p.fsize.toNat + 1) = s.params.flashSize

/-- The chip gives the executing command what it waits for (spec/46 R227): WAIT_STATUS reads a status register that meets
its condition, an erase lies in the chip, a program lies in the chip and in one page. -/
def reachable (s : State) : Prop :=
  (s.seq.x.op = 0x01 → ∃ r : StatusReg, s.seq.x.c = s.params.statusOpcode r ∧
    ∀ free : Byte, statusByte s.params r s.c free &&& s.seq.x.a.setWidth 8 = s.seq.x.b.setWidth 8) ∧
  (s.seq.x.op = 0x03 → (eraseAddress s.seq.x.a).toNat < s.params.flashSize) ∧
  (s.seq.x.op = 0x04 → s.seq.x.a.toNat + 3 < s.params.flashSize ∧
    s.seq.x.a.toNat % s.params.pageSize + 4 ≤ s.params.pageSize)

/-! ## Runs -/

/-- The first `n` steps under a schedule. `step` follows the schedule `Config.agentAt`, of which nothing is known. -/
def runSched (sched : Nat → Agent) (n : Nat) (s : State) : Host.Outcome State Fault Refusal :=
  runAs ((List.range n).map sched) s

/-- Routine WS with a match at the first poll: steps 0 to 8, the poll, steps 9 to 12. -/
def promptWs : List Agent := List.replicate 9 .sequencer ++ [.peripheral] ++ List.replicate 4 .sequencer

/-- Routine WE, EQ or E4 with its transaction performed at once: steps 0 to 4, the transaction, steps 5 to 7, the
status-wait, step 8. -/
def promptShort : List Agent :=
  List.replicate 5 .sequencer ++ [.peripheral] ++ List.replicate 3 .sequencer ++ promptWs ++ [.sequencer]

/-- The prompt schedule of an accepted command, its `done` included: every agent moves as soon as it can, and the
chip completes an operation before the first poll that looks for it. -/
def promptSchedule : Instr → List Agent
  | .waitStatus _ _ _ => promptWs ++ [.sequencer]
  | .writeEnable => promptShort ++ [.sequencer]
  | .eraseSector _ =>
    [.sequencer] ++ promptShort ++ List.replicate 6 .sequencer ++ [.peripheral] ++ List.replicate 3 .sequencer ++
      [.chip] ++ promptWs ++ List.replicate 2 .sequencer
  | .writeWord _ _ =>
    [.sequencer] ++ promptShort ++ List.replicate 7 .sequencer ++ [.peripheral] ++ List.replicate 4 .sequencer ++
      [.chip] ++ promptWs ++ List.replicate 2 .sequencer
  | .enterQuad => promptShort ++ [.sequencer]
  | .enterAddr4 => promptShort ++ [.sequencer]
  | .enterMmap => List.replicate 8 .sequencer
  | .chipWren | .chipSe4k _ | .chipPp4b _ _ _ _ _ | .chipEqio _ | .chipEn4b | .chipRdsrA _ | .chipRdsrB _
  | .chipQiofr _ _ _ => []

end Sys2Proof.Machine
end

