-- ==== Sys2Proof/Certificates/Slice0/Obligations.lean ====
section
/-! DEFINITION. The statements for the provers: encodings, the command port and the seven commands, the sequencer's
elementary steps, the register interface, the chip's instructions, the window, reset, frames, and the invariants every
step keeps. Each docstring names the rule of spec/ it formalises. -/

section ObligationStatements

open Sys2Proof Sys2Proof.Machine

/-! ## Encodings -/

/-- R90 to R92, R97, R100, R103: every well-formed instruction is read back from its words, with every operand. -/
def Obligations.DecodeOfEncode : Prop :=
  ∀ i : Instr, i.wellFormed = true → decode (encode i) = .ok i

/-- R90 to R93, R97: words that decode to an instruction are that instruction's encoding, which is well formed: no bit
of a word is dropped and no two words stand for one instruction. -/
def Obligations.EncodeOfDecode : Prop :=
  ∀ (w : Words) (i : Instr), decode w = .ok i → encode i = w ∧ i.wellFormed = true

/-- R93: the legal encodings are those with `op` in 0x01 to 0x07 and zero in every field that `op` does not use; the
decoder reads a command from exactly those words; every other word raises IllegalCommand at acceptance. -/
def Obligations.LegalEncodingDecodes : Prop :=
  ∀ w : CmdWord,
    (legalEncoding w = true ↔
      (cmdOp w = 0x01 ∧ (cmdA w).toNat < 256 ∧ (cmdB w).toNat < 256) ∨
      (cmdOp w = 0x03 ∧ cmdB w = 0 ∧ cmdC w = 0) ∨
      (cmdOp w = 0x04 ∧ cmdC w = 0) ∨
      ((cmdOp w = 0x02 ∨ cmdOp w = 0x05 ∨ cmdOp w = 0x06 ∨ cmdOp w = 0x07) ∧
        cmdA w = 0 ∧ cmdB w = 0 ∧ cmdC w = 0)) ∧
    (decodeCommand w).toOption.isSome = legalEncoding w ∧
    (legalEncoding w = false →
      ∀ (s : State) (rest : List HostMove), s.refused = none → s.moves = .command w :: rest → portReady s = true →
        ∃ t, stepAs .host s = .next t ∧ t.seq.fault = true ∧ t.seq.cause = 1)

/-- R90 to R93, R100 on words written out from the spec's encodings (spec/95_test_vectors.md V10 to V28); and R97 with
the layout of R38 and the codes of R39: the fields of the final `P.PCFG` of every transaction, for every polled opcode and
every dummy count. -/
def Obligations.SampleWordsDecode : Prop :=
  decodeCommand 0x01_00000003_00000002_05 = .ok (.waitStatus 0x05 0x03 0x02) ∧
  decodeCommand 0x03_00003FFF_00000000_00 = .ok (.eraseSector 0x3FFF) ∧
  decodeCommand 0x04_00000004_89ABCDEF_00 = .ok (.writeWord 0x4 0x89ABCDEF) ∧
  decodeCommand 0x07_00000000_00000000_00 = .ok .enterMmap ∧
  decodeCommand 0x08_00000000_00000000_00 = .error .unknownOp ∧
  decodeCommand 0x02_00000001_00000000_00 = .error .nonzeroUnused ∧
  decodeBus ⟨.one, 0x35, none, 0, .none⟩ = .ok (.chipEqio .one) ∧
  decodeBus ⟨.four, 0x12, some 0x4, 0, .toChip [0xEF, 0xCD, 0xAB, 0x89]⟩ = .ok (.chipPp4b 0x4 0xEF 0xCD 0xAB 0x89) ∧
  decodeBus ⟨.four, 0x9F, none, 0, .fromChip 1⟩ = .error .unknownOpcode ∧
  (∀ op : Byte, let w := kPoll ||| op.setWidth 32
    pcfgInstr w = op ∧ pcfgImode w = 3 ∧ pcfgAdmode w = 0 ∧ pcfgAdsize w = 0 ∧ pcfgDcyc w = 0 ∧ pcfgDmode w = 3 ∧
      pcfgFmode w = 2) ∧
  (∀ p : Params, let w := kMapped p ||| kMappedMode
    pcfgInstr w = 0xEC ∧ pcfgImode w = 3 ∧ pcfgAdmode w = 3 ∧ pcfgAdsize w = 3 ∧ pcfgDcyc w = p.dummyCycles ∧
      pcfgDmode w = 3 ∧ pcfgFmode w = 3 ∧ w = 0x0F003FEC ||| (p.dummyCycles.setWidth 32 <<< 18)) ∧
  kWren ||| opcWren.setWidth 32 = 0x00000306 ∧ kErase ||| opcSe.setWidth 32 = 0x00003F20 ∧
  kProgram ||| opcPp4b.setWidth 32 = 0x03003F12 ∧ kQuad ||| opcEqio.setWidth 32 = 0x04000135 ∧
  kAddr4 ||| opcEn4b.setWidth 32 = 0x040003B7 ∧ kPoll ||| Params.default.opcRdsrA.setWidth 32 = 0x0B000305 ∧
  kPoll ||| Params.default.opcRdsrB.setWidth 32 = 0x0B000315

/-! ## A step runs the decoded instruction -/

/-- R24, R71: when the host's next move is a command word that decodes to `i` and the port is ready, the host's step is
`exec i` on the state without that move, counted; when the port is not ready the machine only counts the step. -/
def Obligations.StepRunsCommandWord : Prop :=
  ∀ (s : State) (w : CmdWord) (rest : List HostMove) (i : Instr),
    s.refused = none → s.turn = .host → s.moves = .command w :: rest → decode (.command w) = .ok i →
      (portReady s = true → step s = tick (exec i { s with moves := rest })) ∧
      (portReady s = false → step s = tick (.next s))

/-- R208 to R210: when the live descriptor's request decodes to `i`, the peripheral's step is `exec i`, counted. -/
def Obligations.StepRunsLiveTransaction : Prop :=
  ∀ (s : State) (d : Descriptor) (r : BusReq) (i : Instr),
    s.refused = none → s.turn = .peripheral → s.p.live = some d → pcfgFmode d.pcfg ≠ fmodeMapped →
      (pcfgFmode d.pcfg = fmodePoll → r.addr = none ∧ r.data = .fromChip 1) →
      requestOf d = .ok r → decode (.bus r) = .ok i → step s = tick (exec i s)

/-- R63, R212: when the host's next move reads the window and the configured request, a mapped read with an address phase
(R104), decodes to `i`, the host's step is `exec i` on the state without that move, counted. -/
def Obligations.StepRunsWindowRead : Prop :=
  ∀ (s : State) (a n : Nat) (rest : List HostMove) (r : BusReq) (i : Instr),
    s.refused = none → s.turn = .host → s.moves = .read a n :: rest → inWindow s.params a n = true →
      s.seq.phase = .p3Mmap → s.seq.active = false → s.p.en = true → pcfgFmode s.p.pcfg = fmodeMapped →
      windowRequest s.p.pcfg (BitVec.ofNat 32 (a - s.params.mmapBase)) n = .ok r → r.addr ≠ none →
      decode (.bus r) = .ok i → step s = tick (exec i { s with moves := rest })

/-- The model's own (notes/assumptions/2.md): an instruction the decoder reads from a table word is the one that the next
step runs where `withFetchWord` has placed the word, on that very state with the host's moves as they were before. -/
def Obligations.PlacedWordRuns : Prop :=
  ∀ (s : State) (nbits w : Nat) (i : Instr),
    s.params.wf = true → decodeTableWord nbits w = some i →
      step (s.withFetchWord nbits w) = tick (exec i { s.withFetchWord nbits w with moves := s.moves })

/-! ## The command port and the seven commands -/

/-- R24: the port takes no word while a command executes or a fault stands; else acceptance loads the four latches and
checks the encoding, then the phase, then starts the routine; `done` sets the phase, clears ACTIVE and tells the host. -/
def Obligations.CommandPortRules : Prop :=
  (∀ (s : State) (w : CmdWord) (rest : List HostMove), s.refused = none → s.moves = .command w :: rest →
    let x : Latches := ⟨w.extractLsb' 72 8, w.extractLsb' 40 32, w.extractLsb' 8 32, w.extractLsb' 0 8⟩
    let u : State := { s with moves := rest, seq := { s.seq with x := x } }
    ((s.seq.active = true ∨ s.seq.fault = true) → stepAs .host s = tick (.next s)) ∧
    (s.seq.active = false → s.seq.fault = false →
      (legalEncoding w = false → stepAs .host s = tick (.next (raise 1 (.opByte x.op) u))) ∧
      (legalEncoding w = true → legalPhase x.op s.seq.phase = false →
        stepAs .host s = tick (.next (raise 2 (.opByte x.op) u))) ∧
      (legalEncoding w = true → legalPhase x.op s.seq.phase = true →
        ∃ r, routineOf x = some r ∧ stepAs .host s = tick (.next (started x r u))))) ∧
  (∀ s : State, s.refused = none → s.seq.active = true → s.seq.stack = [] →
    stepAs .sequencer s =
      tick (.next { s with seq := { s.seq with phase := nextPhase s.seq.x.op s.seq.phase, active := false },
                           events := s.events ++ [.done] })) ∧
  State.reset.seq.active = false

/-- R25: in which phases each command is legal, and the phase after it; the record starts in `P0_RESET`. -/
def Obligations.PhaseTable : Prop :=
  (∀ ph : Phase,
    (legalPhase 0x05 ph = true ↔ ph = .p0Reset) ∧ nextPhase 0x05 ph = .p1Quad ∧
    (legalPhase 0x06 ph = true ↔ ph = .p1Quad) ∧ nextPhase 0x06 ph = .p2Ready ∧
    (legalPhase 0x01 ph = true ↔ ph = .p1Quad ∨ ph = .p2Ready) ∧ nextPhase 0x01 ph = ph ∧
    (legalPhase 0x02 ph = true ↔ ph = .p1Quad ∨ ph = .p2Ready) ∧ nextPhase 0x02 ph = ph ∧
    (legalPhase 0x03 ph = true ↔ ph = .p2Ready) ∧ nextPhase 0x03 ph = ph ∧
    (legalPhase 0x04 ph = true ↔ ph = .p2Ready) ∧ nextPhase 0x04 ph = ph ∧
    (legalPhase 0x07 ph = true ↔ ph = .p2Ready) ∧ nextPhase 0x07 ph = .p3Mmap) ∧
  (∀ op : Byte, legalPhase op .p3Mmap = false) ∧
  State.reset.seq.phase = .p0Reset

/-- R241: a word that is no legal encoding raises IllegalCommand, cause 1, with `W[79:72]`, in every phase, before any
register of the peripheral is touched. -/
def Obligations.IllegalCommandRaised : Prop :=
  ∀ (s : State) (w : CmdWord) (rest : List HostMove),
    s.refused = none → s.moves = .command w :: rest → s.seq.active = false → s.seq.fault = false →
      legalEncoding w = false →
      stepAs .host s = tick (.next
        { s with moves := rest, events := s.events ++ [.fault 1 (.opByte (cmdOp w))],
                 seq := { s.seq with x := ⟨cmdOp w, cmdA w, cmdB w, cmdC w⟩, fault := true, cause := 1, stack := [],
                                     active := false } })

/-- R242: a legal encoding out of its phase raises PreconditionViolation, cause 2, with `x[OP]`, before any register of
the peripheral is touched. -/
def Obligations.PreconditionViolationRaised : Prop :=
  ∀ (s : State) (w : CmdWord) (rest : List HostMove),
    s.refused = none → s.moves = .command w :: rest → s.seq.active = false → s.seq.fault = false →
      legalEncoding w = true → legalPhase (cmdOp w) s.seq.phase = false →
      stepAs .host s = tick (.next
        { s with moves := rest, events := s.events ++ [.fault 2 (.opByte (cmdOp w))],
                 seq := { s.seq with x := ⟨cmdOp w, cmdA w, cmdB w, cmdC w⟩, fault := true, cause := 2, stack := [],
                                     active := false } })

/-- R24 with R131, R145, R155, R165, R175, R179, R190: each command, on a ready port in its phase, is accepted and
starts its routine with its operands in the latches. -/
def Obligations.CommandsStartTheirRoutines : Prop :=
  ∀ s : State, s.seq.active = false → s.seq.fault = false →
    (s.seq.phase = .p1Quad ∨ s.seq.phase = .p2Ready →
      (∀ op m t : Byte, exec (.waitStatus op m t) s =
        .next (started ⟨0x01, m.setWidth 32, t.setWidth 32, op⟩ (.ws op m t) s)) ∧
      exec .writeEnable s = .next (started ⟨0x02, 0, 0, 0⟩ .we s)) ∧
    (s.seq.phase = .p2Ready →
      (∀ i : Word, exec (.eraseSector i) s = .next (started ⟨0x03, i, 0, 0⟩ .er s)) ∧
      (∀ a d : Word, exec (.writeWord a d) s = .next (started ⟨0x04, a, d, 0⟩ .pw s)) ∧
      exec .enterMmap s = .next (started ⟨0x07, 0, 0, 0⟩ .mm s)) ∧
    (s.seq.phase = .p0Reset → exec .enterQuad s = .next (started ⟨0x05, 0, 0, 0⟩ .eq s)) ∧
    (s.seq.phase = .p1Quad → exec .enterAddr4 s = .next (started ⟨0x06, 0, 0, 0⟩ .e4 s))

/-- R131, R134, R136(a): a WAIT_STATUS whose condition the chip's flags meet reports `done` after one poll, and leaves
the register state of R134; chip, address and data registers stay. -/
def Obligations.WaitStatusRunsToDone : Prop :=
  ∀ (s : State) (r : StatusReg) (mask pattern : Byte),
    Consistent s → s.refused = none → s.seq.active = false → s.seq.fault = false →
      (s.seq.phase = .p1Quad ∨ s.seq.phase = .p2Ready) →
      (∀ free : Byte, statusByte s.params r s.c free &&& mask = pattern) →
      ∃ u t b, exec (.waitStatus (s.params.statusOpcode r) mask pattern) s = .next u ∧
        runAs (promptSchedule (.waitStatus (s.params.statusOpcode r) mask pattern)) u = .next t ∧
        ReportedDone s.seq.phase s t ∧ LeftByPoll (s.params.statusOpcode r) mask pattern t ∧
        t.bus = s.bus ++ [pollRecord (s.params.statusOpcode r) b] ∧ b &&& mask = pattern ∧
        t.c = s.c ∧ t.p.addr = s.p.addr ∧ t.p.data = s.p.data

/-- R145, R147: WRITE_ENABLE sends 0x06 on four lines, confirms the latch with a poll of register A, and reports `done`
with the latch set. -/
def Obligations.WriteEnableRunsToDone : Prop :=
  ∀ s : State, Consistent s → s.refused = none → s.seq.active = false → s.seq.fault = false →
    (s.seq.phase = .p1Quad ∨ s.seq.phase = .p2Ready) →
    ∃ u t b, exec .writeEnable s = .next u ∧ runAs (promptSchedule .writeEnable) u = .next t ∧
      ReportedDone s.seq.phase s t ∧ t.c = { s.c with wel := true } ∧
      LeftByPoll s.params.opcRdsrA (s.params.welMask ||| s.params.wipMask) s.params.welMask t ∧
      t.bus = s.bus ++ [⟨.four, 0x06, none, 0, none⟩, pollRecord s.params.opcRdsrA b] ∧
      b &&& (s.params.welMask ||| s.params.wipMask) = s.params.welMask ∧ t.p.addr = s.p.addr ∧ t.p.data = s.p.data

/-- R155, R157: ERASE_SECTOR of a sector of the chip sends a write-enable and its poll, 0x20 with the address
`index * 4096`, and a poll that sees WIP clear; at `done` the sector is erased, every other byte is as before, and the
latch is consumed. -/
def Obligations.EraseSectorRunsToDone : Prop :=
  ∀ (s : State) (i : Word), Consistent s → s.refused = none → s.seq.active = false → s.seq.fault = false →
    s.seq.phase = .p2Ready → (eraseAddress i).toNat < s.params.flashSize →
    ∃ u t b b', exec (.eraseSector i) s = .next u ∧ runAs (promptSchedule (.eraseSector i)) u = .next t ∧
      ReportedDone .p2Ready s t ∧
      t.c = { s.c with flash := t.c.flash, wel := false } ∧
      (∀ a, flashByte t a =
        if (eraseAddress i).toNat ≤ a ∧ a < (eraseAddress i).toNat + 4096 then s.params.erasedByte else flashByte s a) ∧
      LeftByPoll s.params.opcRdsrA s.params.wipMask 0 t ∧ t.p.addr = eraseAddress i ∧ t.p.data = s.p.data ∧
      t.bus = s.bus ++ [⟨.four, 0x06, none, 0, none⟩, pollRecord s.params.opcRdsrA b,
        ⟨.four, 0x20, some (eraseAddress i), 0, none⟩, pollRecord s.params.opcRdsrA b'] ∧
      b &&& (s.params.welMask ||| s.params.wipMask) = s.params.welMask ∧ b' &&& s.params.wipMask = 0

/-- R165, R167: WRITE_WORD inside the chip and inside one page sends a write-enable and its poll, 0x12 with the address
and the four bytes least significant first, and a poll that sees WIP clear; at `done` each of the four bytes is the AND
of its old value and its data, every other byte is as before, the latch is consumed and `P.DLEN` is 0 again. -/
def Obligations.WriteWordRunsToDone : Prop :=
  ∀ (s : State) (a d : Word), Consistent s → s.refused = none → s.seq.active = false → s.seq.fault = false →
    s.seq.phase = .p2Ready → a.toNat + 3 < s.params.flashSize →
    a.toNat % s.params.pageSize + 4 ≤ s.params.pageSize →
    ∃ u t b b', exec (.writeWord a d) s = .next u ∧ runAs (promptSchedule (.writeWord a d)) u = .next t ∧
      ReportedDone .p2Ready s t ∧
      t.c = { s.c with flash := t.c.flash, wel := false } ∧
      (∀ k, k < 4 → flashByte t (a.toNat + k) = flashByte s (a.toNat + k) &&& d.extractLsb' (8 * k) 8) ∧
      (∀ x, x < a.toNat ∨ a.toNat + 4 ≤ x → flashByte t x = flashByte s x) ∧
      LeftByPoll s.params.opcRdsrA s.params.wipMask 0 t ∧ t.p.addr = a ∧ t.p.data = d ∧
      t.bus = s.bus ++ [⟨.four, 0x06, none, 0, none⟩, pollRecord s.params.opcRdsrA b,
        ⟨.four, 0x12, some a, 0,
          some (.toChip, [d.extractLsb' 0 8, d.extractLsb' 8 8, d.extractLsb' 16 8, d.extractLsb' 24 8])⟩,
        pollRecord s.params.opcRdsrA b'] ∧
      b &&& (s.params.welMask ||| s.params.wipMask) = s.params.welMask ∧ b' &&& s.params.wipMask = 0

/-- R175, R178: ENTER_QUAD sends 0x35 on one line, confirms quad mode with a poll on four, and reports `done` in
`P1_QUAD`. -/
def Obligations.EnterQuadRunsToDone : Prop :=
  ∀ s : State, Consistent s → s.refused = none → s.seq.active = false → s.seq.fault = false →
    s.seq.phase = .p0Reset →
    ∃ u t b, exec .enterQuad s = .next u ∧ runAs (promptSchedule .enterQuad) u = .next t ∧
      ReportedDone .p1Quad s t ∧ t.c = { s.c with quad := true } ∧
      LeftByPoll (s.params.statusOpcode s.params.quadReg) s.params.quadMask s.params.quadMask t ∧
      t.bus = s.bus ++ [⟨.one, 0x35, none, 0, none⟩, pollRecord (s.params.statusOpcode s.params.quadReg) b] ∧
      b &&& s.params.quadMask = s.params.quadMask ∧ t.p.addr = s.p.addr ∧ t.p.data = s.p.data

/-- R179, R181: ENTER_ADDR4 sends 0xB7 on four lines, confirms 4-byte addressing with a poll, and reports `done` in
`P2_READY`. -/
def Obligations.EnterAddr4RunsToDone : Prop :=
  ∀ s : State, Consistent s → s.refused = none → s.seq.active = false → s.seq.fault = false →
    s.seq.phase = .p1Quad →
    ∃ u t b, exec .enterAddr4 s = .next u ∧ runAs (promptSchedule .enterAddr4) u = .next t ∧
      ReportedDone .p2Ready s t ∧ t.c = { s.c with addr4 := true } ∧
      LeftByPoll (s.params.statusOpcode s.params.addr4Reg) s.params.addr4Mask s.params.addr4Mask t ∧
      t.bus = s.bus ++ [⟨.four, 0xB7, none, 0, none⟩, pollRecord (s.params.statusOpcode s.params.addr4Reg) b] ∧
      b &&& s.params.addr4Mask = s.params.addr4Mask ∧ t.p.addr = s.p.addr ∧ t.p.data = s.p.data

/-- R190, R192: ENTER_MMAP reports `done` in `P3_MMAP` with the peripheral enabled and configured for mapped reads; no
bus transaction, no other register, no chip flag and no byte of Flash changes. -/
def Obligations.EnterMmapRunsToDone : Prop :=
  ∀ s : State, Consistent s → s.refused = none → s.seq.active = false → s.seq.fault = false →
    s.seq.phase = .p2Ready →
    ∃ u t, exec .enterMmap s = .next u ∧ runAs (promptSchedule .enterMmap) u = .next t ∧
      ReportedDone .p3Mmap s t ∧ t.c = s.c ∧ t.bus = s.bus ∧
      t.p = { s.p with en := true, pcfg := 0x0F003FEC ||| (s.params.dummyCycles.setWidth 32 <<< 18) }

/-- R72, R134, R147, R157, R167, R178, R181, R192 on every schedule: whatever the sequencer, the peripheral and the chip
do in turn, once a command has ended without a fault or a mark its guarantee holds. -/
def Obligations.DoneGuarantees : Prop :=
  ∀ (l : List Agent) (s t : State), .host ∉ l → Consistent s → s.seq.active = true → runAs l s = .next t →
    t.refused = none → t.seq.active = false → t.seq.fault = false →
    t.seq.x = s.seq.x ∧ t.seq.phase = nextPhase s.seq.x.op s.seq.phase ∧
    t.c.wip = false ∧ t.c.pending = none ∧ t.p.busy = false ∧ t.p.live = none ∧ t.p.smf = false ∧
    t.p.dlen = 0 ∧
    (s.seq.x.op = 0x01 → lastPollMatched s.seq.x.c (s.seq.x.a.setWidth 8) (s.seq.x.b.setWidth 8) t) ∧
    (s.seq.x.op = 0x02 → t.c.wel = true) ∧
    (s.seq.x.op = 0x03 → t.c.wel = false ∧ sectorErased s.seq.x.a t) ∧
    (s.seq.x.op = 0x04 → t.c.wel = false ∧ wordProgrammed s.seq.x.a s.seq.x.b t) ∧
    (s.seq.x.op = 0x05 → t.c.quad = true) ∧
    (s.seq.x.op = 0x06 → t.c.addr4 = true) ∧
    (s.seq.x.op = 0x07 → t.p.en = true ∧ t.p.pcfg = kMapped s.params ||| kMappedMode)

/-- R47, R157, R167 on every schedule: a command without a fault changes no byte of Flash outside the sector it erases or
the word it programs; a command that does neither changes none. -/
def Obligations.CommandsTouchOnlyTheirBytes : Prop :=
  ∀ (l : List Agent) (s t : State), .host ∉ l → Consistent s → s.seq.active = true → runAs l s = .next t →
    t.seq.fault = false → ∀ a : Nat,
    (s.seq.x.op = 0x03 → a < (eraseAddress s.seq.x.a).toNat ∨ (eraseAddress s.seq.x.a).toNat + 4096 ≤ a →
      flashByte t a = flashByte s a) ∧
    (s.seq.x.op = 0x04 → a < s.seq.x.a.toNat ∨ s.seq.x.a.toNat + 4 ≤ a → flashByte t a = flashByte s a) ∧
    (s.seq.x.op ≠ 0x03 → s.seq.x.op ≠ 0x04 → flashByte t a = flashByte s a)

/-- R167 on every schedule: a WRITE_WORD that ends without a fault or a mark leaves each of its four bytes the AND of
what it held at acceptance and its data. -/
def Obligations.ProgramAndsOnEverySchedule : Prop :=
  ∀ (l : List Agent) (s t : State), .host ∉ l → Consistent s → s.seq.active = true → s.seq.x.op = 0x04 →
    s.seq.stack = [⟨.pw, 0⟩] → runAs l s = .next t →
    t.refused = none → t.seq.active = false → t.seq.fault = false →
    ∀ k, k < 4 → flashByte t (s.seq.x.a.toNat + k) =
      flashByte s (s.seq.x.a.toNat + k) &&& s.seq.x.b.extractLsb' (8 * k) 8

/-! ## The sequencer's elementary steps -/

/-- R23: how the position moves: a call pushes the routine over the caller at its next step, a return pops, a wait
advances when it succeeds, every other step advances; and no step touches the latches, the phase, the history, the
parameters or the host's moves, and none but a Timeout the chip, Flash or the host's events. -/
def Obligations.StepMovesThePosition : Prop :=
  ∀ (m : Micro) (f : Frame) (rest : List Frame) (s t : State),
    s.seq.stack = f :: rest → microStep m f rest s = .next t →
    (∀ r, m = .call r → t.seq.stack = ⟨r, 0⟩ :: ⟨f.routine, f.step + 1⟩ :: rest) ∧
    (m = .ret → t.seq.stack = rest) ∧
    (m = .spin → readBusy s = false → t.seq.stack = ⟨f.routine, f.step + 1⟩ :: rest) ∧
    (m = .spin → readBusy s = true → t.seq.stack = f :: rest ∨ (t.seq.stack = [] ∧ t.seq.cause = 3)) ∧
    ((∀ r, m ≠ .call r) → m ≠ .ret → m ≠ .spin → t.seq.stack = ⟨f.routine, f.step + 1⟩ :: rest) ∧
    t.seq.x = s.seq.x ∧ t.seq.phase = s.seq.phase ∧ t.bus = s.bus ∧ t.params = s.params ∧ t.moves = s.moves ∧
    (¬ timedOut s t → t.c = s.c ∧ (∀ a, flashByte t a = flashByte s a) ∧ t.events = s.events) ∧
    (timedOut s t → m = .spin ∧ t.seq.cause = 3 ∧ t.p = s.p)

/-- R133: the four branches of a busy-wait on `P.STAT.BUSY` as it reads: the flag, and any value in `P3_MMAP`
(R197(e), notes/assumptions/26.md). At the bound Timeout is raised. R244's raise leaves the chip as it is, R243 lets nothing
be assumed of it: that Timeout is raised over a chip of which nothing is said is the model's choice
(notes/assumptions/32.md). -/
def Obligations.BusyWaitBranches : Prop :=
  ∀ (f : Frame) (rest : List Frame) (s : State),
    (s.seq.phase ≠ .p3Mmap → readBusy s = s.p.busy) ∧
    (readBusy s = false → microStep .spin f rest s =
      .next { s with seq := { s.seq with stack := ⟨f.routine, f.step + 1⟩ :: rest, spincnt := 0 } }) ∧
    (readBusy s = true → s.params.spinLimit = none → microStep .spin f rest s = .next s) ∧
    (∀ n, readBusy s = true → s.params.spinLimit = some n → s.seq.spincnt + 1 < n →
      microStep .spin f rest s = .next { s with seq := { s.seq with spincnt := s.seq.spincnt + 1 } }) ∧
    (∀ n, readBusy s = true → s.params.spinLimit = some n → n ≤ s.seq.spincnt + 1 →
      ∃ c : Chip, microStep .spin f rest s = .next (raise 3 (.position f.routine.name f.step) { s with c := c }))

/-- R244: fault entry sets the fault record, empties the stack, ends the command and tells the host; nothing else
changes. -/
def Obligations.FaultEntry : Prop :=
  ∀ (code : BitVec 2) (info : FaultInfo) (s : State),
    raise code info s =
      { s with seq := { s.seq with fault := true, cause := code, stack := [], active := false },
               events := s.events ++ [.fault code info] }

/-- R245: a fault stands until power-on reset, which clears it; meanwhile no command is accepted and no second fault is
raised. -/
def Obligations.FaultStandsUntilReset : Prop :=
  ∀ (a : Agent) (s t : State), Basic s → s.seq.fault = true → stepAs a s = .next t →
    (¬ resetsNext a s → t.seq = s.seq) ∧
    (∀ w rest, a = .host → s.moves = .command w :: rest → .next t = tick (.next s)) ∧
    (∀ code info, ¬ resetsNext a s → t.events ≠ s.events ++ [.fault code info]) ∧
    (resetsNext a s → t.seq.fault = false ∧ t.seq.cause = 0)

/-- R20: the four latches change at the acceptance of a command word, together and to its fields, and at reset, to zero;
at no other step. -/
def Obligations.LatchesChangeAtAcceptance : Prop :=
  ∀ (a : Agent) (s t : State), stepAs a s = .next t →
    t.seq.x = s.seq.x ∨
    (a = .host ∧ ∃ w rest, s.moves = .command w :: rest ∧ portReady s = true ∧
      t.seq.x = ⟨w.extractLsb' 72 8, w.extractLsb' 40 32, w.extractLsb' 8 32, w.extractLsb' 0 8⟩) ∨
    (resetsNext a s ∧ t.seq.x = ⟨0, 0, 0, 0⟩)

/-- R136(c), R247: with no bound on the waits, a status-wait whose match has a bit its mask lacks never leaves its
busy-wait and its command never reports `done`, whatever the agents do; and where its opcode is one of the two status
reads the run never stops either: every schedule of the three agents has a next state. -/
def Obligations.HopelessWaitHangs : Prop :=
  ∀ (s : State) (op mask pattern : Byte) (rest : List Frame), Consistent s →
    s.params.spinLimit = none → s.seq.active = true → s.seq.stack = ⟨.ws op mask pattern, 9⟩ :: rest →
    s.p.live ≠ none → pattern &&& ~~~ mask ≠ 0 →
    (∀ (l : List Agent) (t : State), .host ∉ l → runAs l s = .next t →
      t.seq = s.seq ∧ t.events = s.events ∧ t.p.busy = true) ∧
    (s.refused = none → op = 0x05 ∨ op = 0x15 → ∀ l : List Agent, .host ∉ l → ∃ t, runAs l s = .next t)

/-! ## The register interface -/

/-- R33, R34, R37, R38, R40 to R44: an idle peripheral's register reads back what was written, in the bits it has, and a
write changes no other register but `P.STAT`. That the bits of `P.DEVCFG` outside FSIZE (R34 says nothing of them), of
`P.CTRL` outside its three fields and of `P.PINT` above 15 drop what is written and read 0 is the model's choice
(notes/assumptions/36.md); the places of the fields are 9.md. -/
def Obligations.RegistersHoldWrites : Prop :=
  ∀ (v : Word) (s : State),
    (s.p.busy = false →
      readReg .dlen (writeReg .dlen v s) = v ∧ readReg .addr (writeReg .addr v s) = v ∧
      readReg .data (writeReg .data v s) = v ∧ readReg .psmask (writeReg .psmask v s) = v ∧
      readReg .psmatch (writeReg .psmatch v s) = v ∧ readReg .pint (writeReg .pint v s) = v &&& 0x0000FFFF ∧
      (v &&& pcfgReserved = 0 → readReg .pcfg (writeReg .pcfg v s) = v) ∧
      readReg .ctrl (writeReg .ctrl v s) = v &&& 0xFF400001) ∧
    readReg .devcfg (writeReg .devcfg v s) = v &&& 0x001F0000 ∧
    (∀ r r' : Reg, r' ≠ r → r' ≠ .stat → readReg r' (writeReg r v s) = readReg r' s)

/-- R35, R36: `P.FCLR` clears SMF where bit 3 is written as 1, else does nothing, and reads as 0; `P.STAT` ignores
writes and shows SMF in bit 3 and BUSY in bit 5, any value elsewhere, and both are 0 at reset. In `P3_MMAP` a read of
BUSY is any value (R197(e)). -/
def Obligations.StatusAndFlagClear : Prop :=
  (∀ (v : Word) (s : State),
    (v.getLsbD 3 = true → writeReg .fclr v s = { s with p := { s.p with smf := false } }) ∧
    (v.getLsbD 3 = false → writeReg .fclr v s = s) ∧ readReg .fclr s = 0 ∧ writeReg .stat v s = s ∧
    (readReg .stat s).getLsbD 3 = s.p.smf ∧
    (s.seq.phase ≠ .p3Mmap → (readReg .stat s).getLsbD 5 = s.p.busy) ∧
    (∀ i, i < 32 → i ≠ 3 → i ≠ 5 → (readReg .stat s).getLsbD i = (Config.freeStat s.draws).getLsbD i)) ∧
  State.reset.p.busy = false ∧ State.reset.p.smf = false

/-- R206: while EN = 0 no write arms; EN <- 1 starts nothing; EN <- 0 while BUSY = 0 has no other effect. -/
def Obligations.DisabledStartsNothing : Prop :=
  ∀ s : State,
    (s.p.en = false → ∀ (r : Reg) (v : Word),
      (writeReg r v s).p.live = s.p.live ∧ (writeReg r v s).p.busy = s.p.busy) ∧
    writeEn true s = { s with p := { s.p with en := true } } ∧
    (s.p.busy = false → writeEn false s = { s with p := { s.p with en := false } })

/-- R207: a write to `P.PCFG`, `P.ADDR` or `P.DATA` of an idle peripheral captures the descriptor and sets BUSY in the
same step exactly when the rule's condition holds, else it only writes the register. (What a write while BUSY does is in
MisuseSetsTheMark.) -/
def Obligations.ArmingRule : Prop :=
  ∀ (r : Reg) (v : Word) (s : State), r = .pcfg ∨ r = .addr ∨ r = .data →
    let p := setReg r v s.p
    let needsAddr := pcfgAdmode p.pcfg ≠ 0
    let needsData := pcfgDmode p.pcfg ≠ 0 ∧ pcfgFmode p.pcfg = 0
    let trigger := (r = .pcfg ∧ ¬ needsAddr ∧ ¬ needsData) ∨ (r = .addr ∧ needsAddr ∧ ¬ needsData) ∨
      (r = .data ∧ needsData)
    let condition := s.p.en = true ∧ pcfgFmode p.pcfg ≠ 3 ∧ pcfgImode p.pcfg ≠ 0 ∧ trigger
    (s.p.busy = false → condition → writeReg r v s =
      { s with p := { p with live := some ⟨p.pcfg, p.addr, p.dlen, p.data, p.psmask, p.psmatch⟩, busy := true } }) ∧
    (s.p.busy = false → ¬ condition → writeReg r v s = { s with p := p })

/-- R211, R224: a descriptor or APMS write while BUSY, a disable while BUSY, a live descriptor with a mode code the block
never writes, and a poll with `P.DLEN` not 0 set the mark; an instruction the chip does not know sets it. That these steps
change nothing else (the chip and the sequencer, for a request the chip rejects) is the model's choice
(notes/assumptions/25.md for register writes, 8.md, 12.md and 24.md for requests of no defined shape). -/
def Obligations.MisuseSetsTheMark : Prop :=
  (∀ (s : State) (v : Word), s.p.busy = true →
    (∀ r : Reg, r = .pcfg ∨ r = .addr ∨ r = .data ∨ r = .dlen ∨ r = .psmask ∨ r = .psmatch ∨ r = .pint →
      writeReg r v s = refuse .registerWriteWhileBusy s) ∧
    setApms s = refuse .registerWriteWhileBusy s ∧ writeEn false s = refuse .disableWhileBusy s) ∧
  (∀ (s : State) (d : Descriptor), s.p.live = some d → pcfgFmode d.pcfg ≠ 3 →
    (pcfgImode d.pcfg = 2 ∨ pcfgAdmode d.pcfg = 1 ∨ pcfgAdmode d.pcfg = 2 ∨
      (pcfgAdmode d.pcfg = 3 ∧ pcfgAdsize d.pcfg ≠ 3) ∨ pcfgDmode d.pcfg = 1 ∨ pcfgDmode d.pcfg = 2 ∨
      (pcfgFmode d.pcfg = 2 ∧ d.dlen ≠ 0)) →
    ∃ r, peripheralStep s = .next (refuse r s)) ∧
  (∀ (s : State) (d : Descriptor) (r : BusReq) (e : DecodeError), s.p.live = some d → pcfgFmode d.pcfg ≠ 3 →
    requestOf d = .ok r → decodeBus r = .error e →
    ∃ t, peripheralStep s = .next t ∧ t.refused ≠ none ∧ t.c = s.c ∧ t.seq = s.seq)

/-! ## The peripheral and the chip -/

/-- R208: an indirect transaction is one step in which the record joins the history and the peripheral is idle again; what
the chip's flags and the mark become is left open here and stated of each opcode (FlagOpcodesSetTheirFlag,
SectorEraseOpcode, PageProgramOpcode, LineAndBusyDiscipline). An indirect read with a data phase sets the mark; that such a
step leaves the transaction live and unrecorded and changes nothing else is the model's choice
(notes/assumptions/8.md). -/
def Obligations.IndirectTransactionIsOneStep : Prop :=
  ∀ (s : State) (d : Descriptor), s.refused = none → s.p.live = some d →
    (∀ r : BusReq, pcfgFmode d.pcfg = 0 ∨ pcfgFmode d.pcfg = 1 → requestOf d = .ok r →
      ∃ c m, stepAs .peripheral s = tick (.next { s with
        c := c, refused := m, bus := s.bus ++ [requestRecord r], p := { s.p with live := none, busy := false } })) ∧
    (pcfgFmode d.pcfg = 1 → pcfgDmode d.pcfg ≠ 0 → ∃ r, stepAs .peripheral s = tick (.next (refuse r s)))

/-- R29: the bits of the two status registers: with the default parameters by position, and for every sensible choice of
the masks each flag reads back through its mask. -/
def Obligations.StatusRegisterBits : Prop :=
  (∀ (c : Chip) (free : Byte),
    let a := statusByte Params.default .a c free
    let b := statusByte Params.default .b c free
    a.getLsbD 6 = c.quad ∧ a.getLsbD 1 = c.wel ∧ a.getLsbD 0 = c.wip ∧ b.getLsbD 5 = c.addr4 ∧
    (∀ i, i < 8 → i ≠ 6 → i ≠ 1 → i ≠ 0 → a.getLsbD i = free.getLsbD i) ∧
    (∀ i, i < 8 → i ≠ 5 → b.getLsbD i = free.getLsbD i)) ∧
  (∀ (p : Params) (c : Chip) (free : Byte), p.wf = true →
    statusByte p .a c free &&& p.wipMask = (if c.wip then p.wipMask else 0) ∧
    statusByte p .a c free &&& p.welMask = (if c.wel then p.welMask else 0) ∧
    statusByte p p.quadReg c free &&& p.quadMask = (if c.quad then p.quadMask else 0) ∧
    statusByte p p.addr4Reg c free &&& p.addr4Mask = (if c.addr4 then p.addr4Mask else 0))

/-- R216, R219, R220 (with R208, R214, R215): 0x06 sets the latch, 0x35 quad mode, 0xB7 4-byte addressing, each in one
step with its record, and nothing else of the chip changes; each leaves a flag that is set as it is; after 0x35 the chip
takes four-line instructions. -/
def Obligations.FlagOpcodesSetTheirFlag : Prop :=
  ∀ s : State, s.c.wip = false →
    (s.c.quad = true →
      exec .chipWren s = .next { s with c := { s.c with wel := true }, bus := s.bus ++ [⟨.four, 0x06, none, 0, none⟩],
                                        p := { s.p with live := none, busy := false } } ∧
      exec .chipEn4b s = .next { s with c := { s.c with addr4 := true }, bus := s.bus ++ [⟨.four, 0xB7, none, 0, none⟩],
                                        p := { s.p with live := none, busy := false } } ∧
      exec (.chipEqio .four) s = .next { s with bus := s.bus ++ [⟨.four, 0x35, none, 0, none⟩],
                                                p := { s.p with live := none, busy := false } }) ∧
    (s.c.quad = false →
      exec (.chipEqio .one) s = .next { s with c := { s.c with quad := true },
                                               bus := s.bus ++ [⟨.one, 0x35, none, 0, none⟩],
                                               p := { s.p with live := none, busy := false } } ∧
      lineOk .four { s.c with quad := true } = true ∧ lineOk .one { s.c with quad := true } = false)

/-- R217 with R208: 0x20 on an idle chip in quad mode: an erase of the sector the address lies in becomes pending and WIP is
set, unless 4-byte addressing or the latch is clear or the address is not the chip's: then the mark is set and the chip is
as before. That a refused erase is still recorded and its transaction ended is the model's choice
(notes/assumptions/8.md). -/
def Obligations.SectorEraseOpcode : Prop :=
  ∀ (s : State) (a : Word), s.c.quad = true → s.c.wip = false →
    (s.c.addr4 = false ∨ s.c.wel = false ∨ s.params.flashSize ≤ a.toNat →
      ∃ r, exec (.chipSe4k a) s = .next { s with
        refused := some (s.refused.getD r)
        bus := s.bus ++ [⟨.four, 0x20, some a, 0, none⟩]
        p := { s.p with live := none, busy := false } }) ∧
    (s.c.addr4 = true → s.c.wel = true → a.toNat < s.params.flashSize →
      exec (.chipSe4k a) s = .next { s with
        c := { s.c with pending := some (.erase (a - BitVec.ofNat 32 (a.toNat % 4096))), wip := true }
        bus := s.bus ++ [⟨.four, 0x20, some a, 0, none⟩]
        p := { s.p with live := none, busy := false } })

/-- R218 with R208: 0x12 on an idle chip in quad mode: a program of four bytes becomes pending and WIP is set, unless the
latch is clear, the bytes are not all the chip's or they cross a page: then the mark is set and the chip is as before. The
model's choices are that it is taken whatever 4-byte addressing is (notes/assumptions/11.md), that the rule's
`PAGE_SIZE - 4` is a difference of integers (31.md), and that a refused program is still recorded and its transaction ended
(8.md). -/
def Obligations.PageProgramOpcode : Prop :=
  ∀ (s : State) (a : Word) (d0 d1 d2 d3 : Byte), s.c.quad = true → s.c.wip = false →
    (s.c.wel = false ∨ s.params.flashSize ≤ a.toNat + 3 ∨ s.params.pageSize < a.toNat % s.params.pageSize + 4 →
      ∃ r, exec (.chipPp4b a d0 d1 d2 d3) s = .next { s with
        refused := some (s.refused.getD r)
        bus := s.bus ++ [⟨.four, 0x12, some a, 0, some (.toChip, [d0, d1, d2, d3])⟩]
        p := { s.p with live := none, busy := false } }) ∧
    (s.c.wel = true → a.toNat + 3 < s.params.flashSize → a.toNat % s.params.pageSize + 4 ≤ s.params.pageSize →
      exec (.chipPp4b a d0 d1 d2 d3) s = .next { s with
        c := { s.c with pending := some (.program a d0 d1 d2 d3), wip := true }
        bus := s.bus ++ [⟨.four, 0x12, some a, 0, some (.toChip, [d0, d1, d2, d3])⟩]
        p := { s.p with live := none, busy := false } })

/-- R209, R210, R221, R29: a poll with either opcode, whatever WIP is: the byte of the status register the opcode reads
joins the history; where it meets mask and match SMF is set and, with APMS, the transaction ends; the chip does not
change. The rules' polls travel on four lines; that a poll on one line, to a chip not in quad mode (R214), does the same
is the model's choice (notes/assumptions/12.md). -/
def Obligations.StatusReadsPoll : Prop :=
  ∀ (s : State) (l : Lines) (d : Descriptor), lineOk l s.c = true → s.p.live = some d →
    ∀ r : StatusReg,
      let op : Byte := match r with | .a => 0x05 | .b => 0x15
      let b := statusByte s.params (if op = s.params.opcRdsrA then .a else .b) s.c (Config.freeStatus s.draws)
      let p := if b &&& d.psmask.setWidth 8 = d.psmatch.setWidth 8 then
          (if s.p.apms then { s.p with smf := true, live := none, busy := false } else { s.p with smf := true })
        else s.p
      exec (match r with | .a => .chipRdsrA l | .b => .chipRdsrB l) s =
        .next { s with bus := s.bus ++ [⟨l, op, none, 0, some (.fromChip, [b])⟩], p := p }

/-- R223, R196 (with R63 and R104): 0xEC on an idle chip in quad mode and 4-byte addressing answers the bytes of the array in
address order and changes nothing but the history and what the host is told. -/
def Obligations.QuadReadOpcode : Prop :=
  ∀ (s : State) (a : Word) (dummy : BitVec 5) (n : Nat), s.c.quad = true → s.c.addr4 = true → s.c.wip = false →
    a.toNat + n ≤ s.params.flashSize →
    let bytes := (List.range n).map fun k => flashByte s (a.toNat + k)
    exec (.chipQiofr a dummy n) s = .next { s with
      bus := s.bus ++ [⟨.four, 0xEC, some a, dummy, some (.fromChip, bytes)⟩],
      events := s.events ++ [.readData n (littleEndian bytes)] }

/-- R214, R215, R196, R223: an instruction on the wrong number of lines, any but a status read while an operation is in
progress, a quad read without 4-byte addressing, and a quad read past the end of the array set the mark and leave the chip as it was. That a read past the end
does is the model's choice (notes/assumptions/33.md): R223 defines reads inside the array only. -/
def Obligations.LineAndBusyDiscipline : Prop :=
  ∀ (s : State) (i : Instr) (l : Lines), instrLines i = some l →
    lineOk l s.c = false ∨ (s.c.wip = true ∧ isStatusRead i = false) ∨
      (∃ a d n, i = .chipQiofr a d n ∧ (s.c.addr4 = false ∨ s.params.flashSize < a.toNat + n)) →
    ∃ t, exec i s = .next t ∧ t.refused ≠ none ∧ t.c = s.c ∧ t.seq = s.seq

/-- R222, of a machine on which no Timeout stands (after one nothing is known of the operation, R243): the chip's step on a
pending operation: all bytes of the sector become ERASED_BYTE, or four bytes are ANDed
with the data; every other byte is as before; PENDING, WIP and WEL are cleared in the same step and nothing else
changes. -/
def Obligations.PendingOperationCompletes : Prop :=
  ∀ (s : State) (op : PendingOp), s.seq.cause ≠ 3 → s.c.wip = true → s.c.pending = some op →
    op.inChip s.params = true →
    ∃ t, chipStep s = .next t ∧
      t = { s with c := { s.c with flash := t.c.flash, pending := none, wip := false, wel := false } } ∧
      (∀ base, op = .erase base → ∀ a, flashByte t a =
        if base.toNat ≤ a ∧ a < base.toNat + 4096 then s.params.erasedByte else flashByte s a) ∧
      (∀ b d0 d1 d2 d3, op = .program b d0 d1 d2 d3 →
        flashByte t b.toNat = flashByte s b.toNat &&& d0 ∧
        flashByte t (b.toNat + 1) = flashByte s (b.toNat + 1) &&& d1 ∧
        flashByte t (b.toNat + 2) = flashByte s (b.toNat + 2) &&& d2 ∧
        flashByte t (b.toNat + 3) = flashByte s (b.toNat + 3) &&& d3 ∧
        ∀ a, a < b.toNat ∨ b.toNat + 4 ≤ a → flashByte t a = flashByte s a)

/-- R60: a word programmed over erased bytes reads back as that word, least significant byte at the lowest address, and
so do its parts. -/
def Obligations.ProgrammedWordReadsBack : Prop :=
  ∀ (p : Params) (m : Memory) (a d : Word),
    (∀ k, k < 4 → Memory.read p.launchByte m (a.toNat + k) = 0xFF) →
    let m' := (PendingOp.program a (wordByte d 0) (wordByte d 1) (wordByte d 2) (wordByte d 3)).apply p m
    littleEndian (Memory.readBytes p.launchByte m' a.toNat 4) = d ∧
    littleEndian (Memory.readBytes p.launchByte m' a.toNat 1) = d &&& 0xFF ∧
    littleEndian (Memory.readBytes p.launchByte m' (a.toNat + 2) 2) = d >>> 16

/-! ## The window -/

/-- R63, R104, R195: in `P3_MMAP` with no command executing a read of 1, 2 or 4 bytes inside the window gives the bytes
of Flash, little-endian, and changes nothing but the history. -/
def Obligations.WindowReadGivesFlash : Prop :=
  ∀ (s : State) (a n : Nat) (rest : List HostMove), s.refused = none → s.moves = .read a n :: rest →
    s.params.wf = true → s.seq.phase = .p3Mmap → s.seq.active = false → n = 1 ∨ n = 2 ∨ n = 4 →
    s.params.mmapBase ≤ a → a + n ≤ s.params.mmapBase + s.params.flashSize →
    s.p.en = true → s.p.pcfg = kMapped s.params ||| kMappedMode → s.c.quad = true → s.c.addr4 = true →
    s.c.wip = false →
    let bytes := (List.range n).map fun k => flashByte s (a - s.params.mmapBase + k)
    stepAs .host s = tick (.next { s with
      moves := rest,
      bus := s.bus ++ [⟨.four, 0xEC, some (BitVec.ofNat 32 (a - s.params.mmapBase)), s.params.dummyCycles,
                        some (.fromChip, bytes)⟩],
      events := s.events ++ [.readData n (littleEndian bytes)] })

/-- R65: a write to the window, and a read of it outside `P3_MMAP` or while a command executes, set the mark and change
nothing else; the host's move is spent (the model's own field, notes/assumptions/5.md). -/
def Obligations.UnsupportedWindowAccess : Prop :=
  ∀ (s : State) (a n : Nat) (v : Word) (rest : List HostMove), s.refused = none →
    (s.moves = .write a n v :: rest → inWindow s.params a 1 = true →
      stepAs .host s = tick (.next (refuse .windowWrite { s with moves := rest }))) ∧
    (s.moves = .read a n :: rest → inWindow s.params a n = true → s.seq.phase ≠ .p3Mmap ∨ s.seq.active = true →
      stepAs .host s = tick (.next (refuse .windowReadEarly { s with moves := rest })))

/-- R75: after activation Flash is constant, whatever any agent does but reset, a machine with a fault included. -/
def Obligations.FlashConstantAfterActivation : Prop :=
  ∀ (a : Agent) (s t : State), Consistent s → s.seq.phase = .p3Mmap → stepAs a s = .next t →
    ¬ resetsNext a s → t.c.flash = s.c.flash

/-- R47, R267, R287: Flash changes at the completion of a pending erase or program and at a reset that loses one, in the
bytes it addresses; while a Timeout stands, its own step and the reset that ends it included, in the bytes whose erase or
program is not verified (notes/assumptions/32.md); and at the reset of a marked machine (notes/assumptions/5.md); at no
other step. -/
def Obligations.FlashChangesOnlyByCompletion : Prop :=
  ∀ (a : Agent) (s t : State), stepAs a s = .next t →
    t.c.flash = s.c.flash ∨
    (∃ op, s.seq.cause ≠ 3 ∧ s.c.pending = some op ∧ s.c.wip = true ∧
      (∀ b, b < op.range.1 ∨ op.range.1 + op.range.2 ≤ b → flashByte t b = flashByte s b) ∧
      ((a = .chip ∧ t.c.flash = op.apply s.params s.c.flash) ∨ resetsNext a s)) ∨
    (t.seq.cause = 3 ∧ ∀ b, (∀ r ∈ unverified s ++ unverified t, b < r.1 ∨ r.1 + r.2 ≤ b) →
      flashByte t b = flashByte s b) ∨
    (s.seq.cause = 3 ∧ resetsNext a s ∧ ∀ b, (∀ r ∈ unverified s, b < r.1 ∨ r.1 + r.2 ≤ b) →
      flashByte t b = flashByte s b) ∨
    (resetsNext a s ∧ s.refused ≠ none)

/-! ## Reset -/

/-- R54: the value of every item after power-on reset. -/
def Obligations.ResetValues : Prop :=
  let s := State.reset
  s.seq.x = ⟨0, 0, 0, 0⟩ ∧ s.seq.stack = [] ∧ s.seq.active = false ∧ s.seq.phase = .p0Reset ∧ s.seq.fault = false ∧
  s.seq.cause = 0 ∧ s.seq.spincnt = 0 ∧ readReg .ctrl s = 0 ∧ s.p.en = false ∧ s.p.apms = false ∧ s.p.presc = 0 ∧
  s.p.fsize = 0 ∧ s.p.busy = false ∧ s.p.smf = false ∧ s.p.dlen = 0 ∧ s.p.pcfg = 0 ∧ s.p.addr = 0 ∧ s.p.data = 0 ∧
  s.p.psmask = 0 ∧ s.p.psmatch = 0 ∧ s.p.pint = 0 ∧ s.p.live = none ∧ s.c.wel = false ∧ s.c.wip = false ∧
  s.c.quad = false ∧ s.c.addr4 = false ∧ s.c.pending = none ∧ s.bus = [] ∧ s.refused = none

/-- R54, R265, R267: the host's power-on reset is a step of every machine, marked or not; it gives every item its reset
value, clears the mark, and keeps Flash, but for the bytes of an operation in progress, or those a Timeout left unverified
(R287, notes/assumptions/32.md), which hold a value nothing constrains. (Of a machine whose mark is set nothing is known,
R252: the Flash clauses are about an unmarked one.) -/
def Obligations.PowerOnResetEffect : Prop :=
  ∀ (s : State) (rest : List HostMove), s.moves = .powerOnReset :: rest →
    ∃ t, stepAs .host s = tick (.next t) ∧ t.seq = State.reset.seq ∧ t.p = State.reset.p ∧ t.bus = [] ∧
      t.refused = none ∧ t.c.wel = false ∧ t.c.wip = false ∧ t.c.quad = false ∧ t.c.addr4 = false ∧
      t.c.pending = none ∧ t.params = s.params ∧ t.moves = rest ∧ t.events = s.events ∧
      (s.refused = none → s.seq.cause ≠ 3 → s.c.wip = false → t.c.flash = s.c.flash) ∧
      (s.refused = none → s.seq.cause = 3 → ∀ a, flashByte t a =
        if (∃ r ∈ unverified s, r.1 ≤ a ∧ a < r.1 + r.2) ∧ a < s.params.flashSize then Config.lostByte s.draws a
        else flashByte s a) ∧
      (s.refused = none → s.seq.cause ≠ 3 → s.c.wip = true → ∀ op, s.c.pending = some op → op.inChip s.params = true →
        ∀ a, flashByte t a =
          if op.range.1 ≤ a ∧ a < op.range.1 + op.range.2 then Config.lostByte s.draws a else flashByte s a)

/-! ## Frames -/

/-- R24, R244: the seven commands: what acceptance leaves unchanged, accepted or refused with a fault: every register of
the peripheral, the chip, every byte of Flash, the history, the mark and the phase. -/
def Obligations.CommandFrame : Prop :=
  ∀ (i : Instr) (s t : State), isCommand i = true → exec i s = .next t →
    t.p = s.p ∧ t.c = s.c ∧ (∀ a, flashByte t a = flashByte s a) ∧ t.bus = s.bus ∧ t.refused = s.refused ∧
    t.params = s.params ∧ t.moves = s.moves ∧ t.seq.phase = s.seq.phase ∧ t.turn = s.turn ∧ t.draws = s.draws ∧
    (t.seq.fault = s.seq.fault → t.seq.cause = s.seq.cause ∧ t.events = s.events)

/-- R208 to R210, R216 to R223: the eight chip opcodes: what each leaves unchanged: the sequencer, every register of the
peripheral but BUSY, SMF and the live transaction, every byte of Flash, and every chip flag but the one it sets. -/
def Obligations.ChipOpcodeFrame : Prop :=
  ∀ (i : Instr) (s t : State), isCommand i = false → exec i s = .next t →
    t.seq = s.seq ∧ t.params = s.params ∧ t.moves = s.moves ∧ t.turn = s.turn ∧ t.draws = s.draws ∧
    (∀ a, flashByte t a = flashByte s a) ∧
    t.p.en = s.p.en ∧ t.p.apms = s.p.apms ∧ t.p.presc = s.p.presc ∧ t.p.fsize = s.p.fsize ∧ t.p.dlen = s.p.dlen ∧
    t.p.pcfg = s.p.pcfg ∧ t.p.addr = s.p.addr ∧ t.p.data = s.p.data ∧ t.p.psmask = s.p.psmask ∧
    t.p.psmatch = s.p.psmatch ∧ t.p.pint = s.p.pint ∧
    (isStatusRead i = false → t.p.smf = s.p.smf) ∧
    (i ≠ .chipWren → t.c.wel = s.c.wel) ∧ ((∀ l, i ≠ .chipEqio l) → t.c.quad = s.c.quad) ∧
    (i ≠ .chipEn4b → t.c.addr4 = s.c.addr4) ∧
    ((∀ a, i ≠ .chipSe4k a) → (∀ a d0 d1 d2 d3, i ≠ .chipPp4b a d0 d1 d2 d3) →
      t.c.wip = s.c.wip ∧ t.c.pending = s.c.pending) ∧
    ((∀ a d n, i ≠ .chipQiofr a d n) → t.events = s.events) ∧
    (∀ a d n, i = .chipQiofr a d n → t.p = s.p)

/-- R28, R33, R34, R52, R134, R181: facts no step undoes but power-on reset: quad mode and 4-byte addressing, APMS, the
fields boot software owns, the history and the events; and the parameters, which not even reset changes. While a Timeout
stands no flag of the chip may be assumed (R287, U16): after every step each is a value nothing constrains
(notes/assumptions/32.md). -/
def Obligations.LastingFacts : Prop :=
  ∀ (a : Agent) (s t : State), stepAs a s = .next t →
    t.params = s.params ∧ (∃ e, t.events = s.events ++ e) ∧
    (¬ resetsNext a s →
      (t.seq.cause ≠ 3 → (s.c.quad = true → t.c.quad = true) ∧ (s.c.addr4 = true → t.c.addr4 = true)) ∧
      (t.seq.cause = 3 →
        t.c.wel = (Config.lostFlags s.draws).getLsbD 0 ∧ t.c.wip = (Config.lostFlags s.draws).getLsbD 1 ∧
        t.c.quad = (Config.lostFlags s.draws).getLsbD 2 ∧ t.c.addr4 = (Config.lostFlags s.draws).getLsbD 3) ∧
      (s.p.apms = true → t.p.apms = true) ∧ t.p.presc = s.p.presc ∧ t.p.fsize = s.p.fsize ∧
      ∃ l, t.bus = s.bus ++ l)

/-- R193: in `P3_MMAP` every command raises PreconditionViolation, and only reset leaves the phase. -/
def Obligations.ActivationIsOneWay : Prop :=
  ∀ s : State, Consistent s → s.seq.phase = .p3Mmap →
    (∀ a t, stepAs a s = .next t → ¬ resetsNext a s → t.seq.phase = .p3Mmap) ∧
    (∀ w rest, s.refused = none → s.moves = .command w :: rest → s.seq.fault = false → legalEncoding w = true →
      ∃ t, stepAs .host s = .next t ∧ t.seq.fault = true ∧ t.seq.cause = 2)

/-! ## Invariants -/

/-- R54, R227 item 4: the machine after power-on reset is in a consistent state. -/
def Obligations.ConsistentAtReset : Prop := Consistent State.reset

/-- R26, R38, R46, R50, R51, R23, R27: the relations between the fields hold after every step of every agent, faulted or
not, from any state they hold in. -/
def Obligations.BasicKept : Prop :=
  ∀ (a : Agent) (s t : State), Basic s → stepAs a s = .next t → Basic t

/-- R227 at every control point (R134, R147, R157, R167, R178, R181, R192): every step of every agent that sets no mark
keeps the machine consistent. -/
def Obligations.ConsistentKept : Prop :=
  ∀ (a : Agent) (s t : State), Consistent s → stepAs a s = .next t → t.refused = none → Consistent t

/-- R211, R214, R215, R217, R218, R224, R65, R69: of a consistent machine that no Timeout has faulted only these cases
set the mark, and no step stops but on a host access outside the window. The cases are the spec's but for two of the
model's choice: a window read of a number of bytes other than 1, 2 or 4 is among those of undefinedTransaction
(notes/assumptions/20.md), and the stop outside the window (notes/assumptions/13.md). -/
def Obligations.OnlyReachableStops : Prop :=
  ∀ (a : Agent) (s : State), Consistent s → s.seq.cause ≠ 3 → s.refused = none →
    (∀ t r, stepAs a s = .next t → t.refused = some r →
      r = .eraseOutOfRange ∨ r = .programOutOfRange ∨ r = .programPageCross ∨ r = .unknownOpcode ∨
      r = .undefinedTransaction ∨ r = .windowWrite ∨ r = .windowReadEarly) ∧
    (∀ f, stepAs a s = .fault f → f = .outsideWindow ∧ a = .host) ∧
    (∀ r, stepAs a s ≠ .refused r)

/-- R213, R225: under every schedule on which the peripheral and the chip move again and again, and with the host
silent, a live transaction is performed or polled again and a pending operation is applied, unless the mark is set or, for
the operation, a Timeout comes first (after which nothing is known of it, R243). -/
def Obligations.FairAgentsMakeProgress : Prop :=
  ∀ (sched : Nat → Agent) (s : State), Consistent s → s.refused = none → s.moves = [] →
    s.params.chipResponsive = true → Responsive sched s →
    (∀ d, s.p.live = some d → pcfgFmode d.pcfg ≠ fmodeMapped →
      ∃ n t, runSched sched n s = .next t ∧ (t.refused ≠ none ∨ s.bus.length < t.bus.length)) ∧
    (∀ op, s.c.pending = some op →
      ∃ n t, runSched sched n s = .next t ∧
        (t.refused ≠ none ∨ t.seq.cause = 3 ∨ (t.c.pending = none ∧ t.c.flash = op.apply s.params s.c.flash)))

/-- R227's last sentence (with R213, R225, R247): with CHIP_RESPONSIVE true and SPIN_LIMIT none, a command whose condition
the chip can reach, erasing or programming inside the chip, ends in `done`, under every schedule on which the sequencer,
the peripheral and the chip move again and again and with the host silent. -/
def Obligations.EveryCommandEndsInDone : Prop :=
  ∀ (sched : Nat → Agent) (s : State), Consistent s → s.refused = none → s.moves = [] → s.seq.active = true →
    s.params.spinLimit = none → s.params.chipResponsive = true → Responsive sched s → SequencerMoves sched →
    reachable s →
    ∃ n t, runSched sched n s = .next t ∧ ReportedDone (nextPhase s.seq.x.op s.seq.phase) s t

end ObligationStatements
end

