-- ==== Sys2Proof/Laws/Memory.lean ====
section
/-! SUPPORT. Laws of the Flash array: a read after a write of a run gives what was written inside the run and what
was there outside it, and every write keeps the canonical form. -/

namespace Sys2Proof.Machine

@[simp] theorem Memory.read_nil (fill : Byte) (a : Nat) : Memory.read fill [] a = fill := rfl

theorem Memory.read_cons (fill : Byte) (k : Nat) (v : Byte) (m : Memory) (a : Nat) :
    Memory.read fill ((k, v) :: m) a = if k = a then v else Memory.read fill m a := rfl

/-- A read passes over cells of other addresses. -/
theorem Memory.read_append_of_absent (fill : Byte) (m m' : Memory) (a : Nat) (h : ∀ cell ∈ m, cell.1 ≠ a) :
    Memory.read fill (m ++ m') a = Memory.read fill m' a := by
  induction m with
  | nil => rfl
  | cons cell rest ih =>
    obtain ⟨k, v⟩ := cell
    have hk : k ≠ a := h (k, v) (by simp)
    simp only [List.cons_append, Memory.read_cons, hk, if_false]
    exact ih fun c hc => h c (by simp [hc])

/-- A read finds what stands in the first part, or goes on to the second. -/
theorem Memory.read_append_of_absent_right (fill : Byte) (m m' : Memory) (a : Nat) (h : ∀ cell ∈ m', cell.1 ≠ a) :
    Memory.read fill (m ++ m') a = Memory.read fill m a := by
  induction m with
  | nil =>
    have := Memory.read_append_of_absent fill m' [] a h
    simpa using this
  | cons cell rest ih =>
    obtain ⟨k, v⟩ := cell
    simp only [List.cons_append, Memory.read_cons, ih]

/-- Dropping cells of other addresses changes no read. -/
theorem Memory.read_filter (fill : Byte) (m : Memory) (a : Nat) (keep : Host.Cell → Bool)
    (h : ∀ v, keep (a, v) = true) : Memory.read fill (m.filter keep) a = Memory.read fill m a := by
  induction m with
  | nil => rfl
  | cons cell rest ih =>
    obtain ⟨k, v⟩ := cell
    by_cases hk : k = a
    · subst hk; simp [h v, Memory.read_cons]
    · by_cases hkeep : keep (k, v) = true
      · simp [hkeep, Memory.read_cons, hk, ih]
      · simp [hkeep, Memory.read_cons, hk, ih]

/-- Addresses of a run lie in it. -/
theorem Memory.run_mem (fill : Byte) (f : Nat → Byte) (n : Nat) :
    ∀ base, ∀ cell ∈ Memory.run fill f base n, base ≤ cell.1 ∧ cell.1 < base + n := by
  induction n with
  | zero => intro base cell h; simp [Memory.run] at h
  | succ n ih =>
    intro base cell h
    unfold Memory.run at h
    split at h
    · have := ih (base + 1) cell h; omega
    · rcases List.mem_cons.mp h with rfl | h
      · simp
      · have := ih (base + 1) cell h; omega

/-- A read inside a run gives the run's contents. -/
theorem Memory.read_run (fill : Byte) (f : Nat → Byte) (n : Nat) :
    ∀ base a, base ≤ a → a < base + n → Memory.read fill (Memory.run fill f base n) a = f a := by
  induction n with
  | zero => intro base a h1 h2; omega
  | succ n ih =>
    intro base a h1 h2
    unfold Memory.run
    by_cases hb : base = a
    · subst hb
      split
      · next hf =>
        rw [hf]
        have h := Memory.read_append_of_absent_right fill [] (Memory.run fill f (base + 1) n) base
          (fun c hc => by have := Memory.run_mem fill f n (base + 1) c hc; omega)
        simpa using h
      · simp [Memory.read_cons]
    · split
      · exact ih (base + 1) a (by omega) (by omega)
      · simp only [Memory.read_cons, hb, if_false]
        exact ih (base + 1) a (by omega) (by omega)

/-- A read after a write of a run: the written byte inside the run, the old one outside. -/
theorem Memory.read_setRun (fill : Byte) (m : Memory) (base n : Nat) (f : Nat → Byte) (a : Nat) :
    Memory.read fill (Memory.setRun fill m base n f) a =
      if base ≤ a ∧ a < base + n then f a else Memory.read fill m a := by
  have hlow : ∀ c ∈ m.filter (fun cell : Host.Cell => decide (cell.1 < base)), c.1 < base := by
    intro c hc; simpa using (List.mem_filter.mp hc).2
  have hhigh : ∀ c ∈ m.filter (fun cell : Host.Cell => decide (base + n ≤ cell.1)), base + n ≤ c.1 := by
    intro c hc; simpa using (List.mem_filter.mp hc).2
  unfold Memory.setRun
  by_cases h1 : a < base
  · rw [Memory.read_append_of_absent_right _ _ _ _ (fun c hc => by have := hhigh c hc; omega),
      Memory.read_append_of_absent_right _ _ _ _
        (fun c hc => by have := Memory.run_mem fill f n base c hc; omega),
      Memory.read_filter _ _ _ _ (fun v => by simpa using h1)]
    rw [if_neg (by omega)]
  · by_cases h2 : a < base + n
    · rw [Memory.read_append_of_absent_right _ _ _ _ (fun c hc => by have := hhigh c hc; omega),
        Memory.read_append_of_absent _ _ _ _ (fun c hc => by have := hlow c hc; omega),
        Memory.read_run fill f n base a (by omega) h2, if_pos (by omega)]
    · rw [Memory.read_append_of_absent _ _ _ _ (fun c hc => by
          rcases List.mem_append.mp hc with h | h
          · have := hlow c h; omega
          · have := Memory.run_mem fill f n base c h; omega),
        Memory.read_filter _ _ _ _ (fun v => by simp; omega), if_neg (by omega)]

/-! ## The canonical form -/

/-- The canonical form from a bound is the canonical form from any lower one. -/
theorem Memory.canonicalFrom_mono (fill : Byte) (m : Memory) (low low' : Nat) (h : low' ≤ low)
    (hm : Memory.canonicalFrom fill low m = true) : Memory.canonicalFrom fill low' m = true := by
  cases m with
  | nil => rfl
  | cons cell rest =>
    obtain ⟨k, v⟩ := cell
    simp only [Memory.canonicalFrom, Bool.and_eq_true, decide_eq_true_eq] at hm ⊢
    exact ⟨⟨by omega, hm.1.2⟩, hm.2⟩

/-- Two canonical lists, the second above all of the first, make one. -/
theorem Memory.canonicalFrom_append (fill : Byte) (m m' : Memory) (high : Nat) :
    ∀ low, low ≤ high → Memory.canonicalFrom fill low m = true → (∀ c ∈ m, c.1 < high) →
      Memory.canonicalFrom fill high m' = true → Memory.canonicalFrom fill low (m ++ m') = true := by
  induction m with
  | nil => intro low hl _ _ h; exact Memory.canonicalFrom_mono fill m' high low hl h
  | cons cell rest ih =>
    intro low _ hm hb hm'
    obtain ⟨k, v⟩ := cell
    have hk : k < high := hb (k, v) (by simp)
    simp only [List.cons_append, Memory.canonicalFrom, Bool.and_eq_true, decide_eq_true_eq] at hm ⊢
    exact ⟨hm.1, ih (k + 1) (by omega) hm.2 (fun c hc => hb c (by simp [hc])) hm'⟩

/-- A canonical list stays canonical when cells are left out. -/
theorem Memory.canonicalFrom_filter (fill : Byte) (keep : Host.Cell → Bool) (m : Memory) :
    ∀ low, Memory.canonicalFrom fill low m = true → Memory.canonicalFrom fill low (m.filter keep) = true := by
  induction m with
  | nil => intro low _; rfl
  | cons cell rest ih =>
    intro low hm
    obtain ⟨k, v⟩ := cell
    simp only [Memory.canonicalFrom, Bool.and_eq_true, decide_eq_true_eq] at hm
    by_cases hkeep : keep (k, v) = true
    · simp only [List.filter_cons, hkeep, if_true, Memory.canonicalFrom, Bool.and_eq_true, decide_eq_true_eq]
      exact ⟨hm.1, ih (k + 1) hm.2⟩
    · simp only [List.filter_cons, hkeep]
      exact Memory.canonicalFrom_mono fill _ (k + 1) low (by omega) (ih (k + 1) hm.2)

/-- The cells of a canonical list at or above a bound are canonical from that bound. -/
theorem Memory.canonicalFrom_above (fill : Byte) (bound : Nat) (m : Memory) :
    ∀ low, Memory.canonicalFrom fill low m = true →
      Memory.canonicalFrom fill bound (m.filter fun c : Host.Cell => decide (bound ≤ c.1)) = true := by
  induction m with
  | nil => intro low _; rfl
  | cons cell rest ih =>
    intro low hm
    obtain ⟨k, v⟩ := cell
    simp only [Memory.canonicalFrom, Bool.and_eq_true, decide_eq_true_eq] at hm
    by_cases hk : bound ≤ k
    · simp only [List.filter_cons, hk, decide_true, if_true, Memory.canonicalFrom, Bool.and_eq_true]
      exact ⟨⟨trivial, hm.1.2⟩, Memory.canonicalFrom_filter fill _ rest (k + 1) hm.2⟩
    · simp only [List.filter_cons, hk, decide_false]
      exact ih (k + 1) hm.2

/-- A run is canonical. -/
theorem Memory.canonicalFrom_run (fill : Byte) (f : Nat → Byte) (n : Nat) :
    ∀ base, Memory.canonicalFrom fill base (Memory.run fill f base n) = true := by
  induction n with
  | zero => intro base; rfl
  | succ n ih =>
    intro base
    unfold Memory.run
    split
    · exact Memory.canonicalFrom_mono fill _ (base + 1) base (by omega) (ih (base + 1))
    · next h => simp [Memory.canonicalFrom, h, ih (base + 1)]

/-- Writing a run inside the chip keeps the canonical form. -/
theorem Memory.wf_setRun (p : Params) (m : Memory) (base n : Nat) (f : Nat → Byte)
    (hm : Memory.wf p m = true) (hn : base + n ≤ p.flashSize) :
    Memory.wf p (Memory.setRun p.launchByte m base n f) = true := by
  simp only [Memory.wf, Bool.and_eq_true, List.all_eq_true, decide_eq_true_eq] at hm ⊢
  obtain ⟨hc, hs⟩ := hm
  have hlow : ∀ c ∈ m.filter (fun cell : Host.Cell => decide (cell.1 < base)), c.1 < base := by
    intro c hc; simpa using (List.mem_filter.mp hc).2
  refine ⟨?_, ?_⟩
  · unfold Memory.setRun
    rw [List.append_assoc]
    refine Memory.canonicalFrom_append _ _ _ base 0 (by omega) (Memory.canonicalFrom_filter _ _ _ 0 hc) hlow ?_
    refine Memory.canonicalFrom_append _ _ _ (base + n) base (by omega) (Memory.canonicalFrom_run _ _ _ _) ?_
      (Memory.canonicalFrom_above _ _ _ 0 hc)
    intro c hc'; exact (Memory.run_mem _ _ _ _ c hc').2
  · intro c hc'
    unfold Memory.setRun at hc'
    simp only [List.mem_append, List.mem_filter] at hc'
    rcases hc' with (h | h) | h
    · exact hs c h.1
    · have := (Memory.run_mem _ _ _ _ c h).2; omega
    · exact hs c h.1

end Sys2Proof.Machine
end

