-- ==== Sys2Proof/Laws/State.lean ====
section
/-! SUPPORT. The fields of a state after each named update: one lemma a field, so that no proof unfolds a record
update. -/

namespace Sys2Proof.Machine

/-! `refuse` changes the mark alone. -/

@[simp] theorem refuse_params (r : Refusal) (s : State) : (refuse r s).params = s.params := rfl
@[simp] theorem refuse_seq (r : Refusal) (s : State) : (refuse r s).seq = s.seq := rfl
@[simp] theorem refuse_p (r : Refusal) (s : State) : (refuse r s).p = s.p := rfl
@[simp] theorem refuse_c (r : Refusal) (s : State) : (refuse r s).c = s.c := rfl
@[simp] theorem refuse_bus (r : Refusal) (s : State) : (refuse r s).bus = s.bus := rfl
@[simp] theorem refuse_refused (r : Refusal) (s : State) : (refuse r s).refused = some (s.refused.getD r) := rfl
@[simp] theorem refuse_moves (r : Refusal) (s : State) : (refuse r s).moves = s.moves := rfl
@[simp] theorem refuse_events (r : Refusal) (s : State) : (refuse r s).events = s.events := rfl
@[simp] theorem refuse_turn (r : Refusal) (s : State) : (refuse r s).turn = s.turn := rfl
@[simp] theorem refuse_draws (r : Refusal) (s : State) : (refuse r s).draws = s.draws := rfl

/-! `emit` changes the events alone. -/

@[simp] theorem emit_params (e : HostEvent) (s : State) : (emit e s).params = s.params := rfl
@[simp] theorem emit_seq (e : HostEvent) (s : State) : (emit e s).seq = s.seq := rfl
@[simp] theorem emit_p (e : HostEvent) (s : State) : (emit e s).p = s.p := rfl
@[simp] theorem emit_c (e : HostEvent) (s : State) : (emit e s).c = s.c := rfl
@[simp] theorem emit_bus (e : HostEvent) (s : State) : (emit e s).bus = s.bus := rfl
@[simp] theorem emit_refused (e : HostEvent) (s : State) : (emit e s).refused = s.refused := rfl
@[simp] theorem emit_moves (e : HostEvent) (s : State) : (emit e s).moves = s.moves := rfl
@[simp] theorem emit_events (e : HostEvent) (s : State) : (emit e s).events = s.events ++ [e] := rfl
@[simp] theorem emit_turn (e : HostEvent) (s : State) : (emit e s).turn = s.turn := rfl
@[simp] theorem emit_draws (e : HostEvent) (s : State) : (emit e s).draws = s.draws := rfl

/-! Fault entry changes the sequencer and the events alone (R244). -/

@[simp] theorem raise_params (k : BitVec 2) (i : FaultInfo) (s : State) : (raise k i s).params = s.params := rfl
@[simp] theorem raise_seq (k : BitVec 2) (i : FaultInfo) (s : State) :
    (raise k i s).seq = { s.seq with fault := true, cause := k, stack := [], active := false } := rfl
@[simp] theorem raise_p (k : BitVec 2) (i : FaultInfo) (s : State) : (raise k i s).p = s.p := rfl
@[simp] theorem raise_c (k : BitVec 2) (i : FaultInfo) (s : State) : (raise k i s).c = s.c := rfl
@[simp] theorem raise_bus (k : BitVec 2) (i : FaultInfo) (s : State) : (raise k i s).bus = s.bus := rfl
@[simp] theorem raise_refused (k : BitVec 2) (i : FaultInfo) (s : State) : (raise k i s).refused = s.refused := rfl
@[simp] theorem raise_moves (k : BitVec 2) (i : FaultInfo) (s : State) : (raise k i s).moves = s.moves := rfl
@[simp] theorem raise_events (k : BitVec 2) (i : FaultInfo) (s : State) :
    (raise k i s).events = s.events ++ [.fault k i] := rfl
@[simp] theorem raise_turn (k : BitVec 2) (i : FaultInfo) (s : State) : (raise k i s).turn = s.turn := rfl
@[simp] theorem raise_draws (k : BitVec 2) (i : FaultInfo) (s : State) : (raise k i s).draws = s.draws := rfl

/-! A Timeout changes the sequencer, the chip and the events alone (R243). -/

@[simp] theorem timeout_params (f : Frame) (s : State) : (timeout f s).params = s.params := rfl
@[simp] theorem timeout_seq (f : Frame) (s : State) :
    (timeout f s).seq = { s.seq with fault := true, cause := causeTimeout, stack := [], active := false } := rfl
@[simp] theorem timeout_p (f : Frame) (s : State) : (timeout f s).p = s.p := rfl
@[simp] theorem timeout_c (f : Frame) (s : State) : (timeout f s).c = unknownChip s := rfl
@[simp] theorem timeout_bus (f : Frame) (s : State) : (timeout f s).bus = s.bus := rfl
@[simp] theorem timeout_refused (f : Frame) (s : State) : (timeout f s).refused = s.refused := rfl
@[simp] theorem timeout_moves (f : Frame) (s : State) : (timeout f s).moves = s.moves := rfl
@[simp] theorem timeout_events (f : Frame) (s : State) :
    (timeout f s).events = s.events ++ [.fault causeTimeout (.position f.routine.name f.step)] := rfl
@[simp] theorem timeout_turn (f : Frame) (s : State) : (timeout f s).turn = s.turn := rfl
@[simp] theorem timeout_draws (f : Frame) (s : State) : (timeout f s).draws = s.draws := rfl

/-! The redraw of a chip of which nothing is known changes the chip alone (U16), and nothing where no Timeout stands. -/

theorem unsettle_of (s : State) (h : s.seq.cause ≠ causeTimeout) : unsettle s = s := by simp [unsettle, expired, h]
theorem unsettle_c (s : State) (h : s.seq.cause = causeTimeout) : (unsettle s).c = unknownChip s := by
  simp [unsettle, expired, h]
@[simp] theorem unsettle_params (s : State) : (unsettle s).params = s.params := by unfold unsettle; split <;> rfl
@[simp] theorem unsettle_seq (s : State) : (unsettle s).seq = s.seq := by unfold unsettle; split <;> rfl
@[simp] theorem unsettle_p (s : State) : (unsettle s).p = s.p := by unfold unsettle; split <;> rfl
@[simp] theorem unsettle_bus (s : State) : (unsettle s).bus = s.bus := by unfold unsettle; split <;> rfl
@[simp] theorem unsettle_refused (s : State) : (unsettle s).refused = s.refused := by unfold unsettle; split <;> rfl
@[simp] theorem unsettle_moves (s : State) : (unsettle s).moves = s.moves := by unfold unsettle; split <;> rfl
@[simp] theorem unsettle_events (s : State) : (unsettle s).events = s.events := by unfold unsettle; split <;> rfl

/-! Power-on reset sets the sequencer, the peripheral, the chip, the history and the mark (R54). -/

@[simp] theorem powerOn_params (m : Memory) (s : State) : (powerOn m s).params = s.params := rfl
@[simp] theorem powerOn_seq (m : Memory) (s : State) : (powerOn m s).seq = Seq.reset := rfl
@[simp] theorem powerOn_p (m : Memory) (s : State) : (powerOn m s).p = Periph.reset := rfl
@[simp] theorem powerOn_c (m : Memory) (s : State) : (powerOn m s).c = Chip.reset m := rfl
@[simp] theorem powerOn_bus (m : Memory) (s : State) : (powerOn m s).bus = [] := rfl
@[simp] theorem powerOn_refused (m : Memory) (s : State) : (powerOn m s).refused = none := rfl
@[simp] theorem powerOn_moves (m : Memory) (s : State) : (powerOn m s).moves = s.moves := rfl
@[simp] theorem powerOn_events (m : Memory) (s : State) : (powerOn m s).events = s.events := rfl
@[simp] theorem powerOn_turn (m : Memory) (s : State) : (powerOn m s).turn = s.turn := rfl
@[simp] theorem powerOn_draws (m : Memory) (s : State) : (powerOn m s).draws = s.draws := rfl

/-! `advance` changes the stack alone. -/

@[simp] theorem advance_params (f : Frame) (rest : List Frame) (s : State) :
    (advance f rest s).params = s.params := rfl
@[simp] theorem advance_seq (f : Frame) (rest : List Frame) (s : State) :
    (advance f rest s).seq = { s.seq with stack := { f with step := f.step + 1 } :: rest } := rfl
@[simp] theorem advance_p (f : Frame) (rest : List Frame) (s : State) : (advance f rest s).p = s.p := rfl
@[simp] theorem advance_c (f : Frame) (rest : List Frame) (s : State) : (advance f rest s).c = s.c := rfl
@[simp] theorem advance_bus (f : Frame) (rest : List Frame) (s : State) : (advance f rest s).bus = s.bus := rfl
@[simp] theorem advance_refused (f : Frame) (rest : List Frame) (s : State) :
    (advance f rest s).refused = s.refused := rfl
@[simp] theorem advance_moves (f : Frame) (rest : List Frame) (s : State) : (advance f rest s).moves = s.moves := rfl
@[simp] theorem advance_events (f : Frame) (rest : List Frame) (s : State) :
    (advance f rest s).events = s.events := rfl
@[simp] theorem advance_turn (f : Frame) (rest : List Frame) (s : State) : (advance f rest s).turn = s.turn := rfl
@[simp] theorem advance_draws (f : Frame) (rest : List Frame) (s : State) : (advance f rest s).draws = s.draws := rfl

/-! The end of a transaction changes the history and the peripheral alone (R208). -/

@[simp] theorem finishTxn_params (t : BusTxn) (s : State) : (finishTxn t s).params = s.params := rfl
@[simp] theorem finishTxn_seq (t : BusTxn) (s : State) : (finishTxn t s).seq = s.seq := rfl
@[simp] theorem finishTxn_p (t : BusTxn) (s : State) :
    (finishTxn t s).p = { s.p with live := none, busy := false } := rfl
@[simp] theorem finishTxn_c (t : BusTxn) (s : State) : (finishTxn t s).c = s.c := rfl
@[simp] theorem finishTxn_bus (t : BusTxn) (s : State) : (finishTxn t s).bus = s.bus ++ [t] := rfl
@[simp] theorem finishTxn_refused (t : BusTxn) (s : State) : (finishTxn t s).refused = s.refused := rfl
@[simp] theorem finishTxn_moves (t : BusTxn) (s : State) : (finishTxn t s).moves = s.moves := rfl
@[simp] theorem finishTxn_events (t : BusTxn) (s : State) : (finishTxn t s).events = s.events := rfl
@[simp] theorem finishTxn_turn (t : BusTxn) (s : State) : (finishTxn t s).turn = s.turn := rfl
@[simp] theorem finishTxn_draws (t : BusTxn) (s : State) : (finishTxn t s).draws = s.draws := rfl

/-! `done` changes the phase, ACTIVE and the events alone (R24). -/

@[simp] theorem commandDone_params (s : State) : (commandDone s).params = s.params := rfl
@[simp] theorem commandDone_seq (s : State) :
    (commandDone s).seq = { s.seq with phase := nextPhase s.seq.x.op s.seq.phase, active := false } := rfl
@[simp] theorem commandDone_p (s : State) : (commandDone s).p = s.p := rfl
@[simp] theorem commandDone_c (s : State) : (commandDone s).c = s.c := rfl
@[simp] theorem commandDone_bus (s : State) : (commandDone s).bus = s.bus := rfl
@[simp] theorem commandDone_refused (s : State) : (commandDone s).refused = s.refused := rfl
@[simp] theorem commandDone_moves (s : State) : (commandDone s).moves = s.moves := rfl
@[simp] theorem commandDone_events (s : State) : (commandDone s).events = s.events ++ [.done] := rfl
@[simp] theorem commandDone_turn (s : State) : (commandDone s).turn = s.turn := rfl
@[simp] theorem commandDone_draws (s : State) : (commandDone s).draws = s.draws := rfl

/-! IllegalCommand changes the sequencer and the events alone (R24, R241). -/

@[simp] theorem acceptIllegal_params (w : CmdWord) (s : State) : (acceptIllegal w s).params = s.params := rfl
@[simp] theorem acceptIllegal_seq (w : CmdWord) (s : State) :
    (acceptIllegal w s).seq = { s.seq with x := ⟨cmdOp w, cmdA w, cmdB w, cmdC w⟩, fault := true, cause := causeIllegal, stack := [], active := false } := rfl
@[simp] theorem acceptIllegal_p (w : CmdWord) (s : State) : (acceptIllegal w s).p = s.p := rfl
@[simp] theorem acceptIllegal_c (w : CmdWord) (s : State) : (acceptIllegal w s).c = s.c := rfl
@[simp] theorem acceptIllegal_bus (w : CmdWord) (s : State) : (acceptIllegal w s).bus = s.bus := rfl
@[simp] theorem acceptIllegal_refused (w : CmdWord) (s : State) : (acceptIllegal w s).refused = s.refused := rfl
@[simp] theorem acceptIllegal_moves (w : CmdWord) (s : State) : (acceptIllegal w s).moves = s.moves := rfl
@[simp] theorem acceptIllegal_events (w : CmdWord) (s : State) :
    (acceptIllegal w s).events = s.events ++ [.fault causeIllegal (.opByte (cmdOp w))] := rfl
@[simp] theorem acceptIllegal_turn (w : CmdWord) (s : State) : (acceptIllegal w s).turn = s.turn := rfl
@[simp] theorem acceptIllegal_draws (w : CmdWord) (s : State) : (acceptIllegal w s).draws = s.draws := rfl

end Sys2Proof.Machine
end

