-- ==== Sys2Proof/Laws/Ops.lean ====
section
/-! SUPPORT. What each shared operation can do, said once: the fields a register write leaves alone, when it arms,
what a wait, an acceptance, a transaction, a poll and a completion can answer, and the inversion of a step. -/

namespace Sys2Proof.Machine

/-! ## Register writes -/

@[simp] theorem arm_params (r : Reg) (s : State) : (arm r s).params = s.params := by unfold arm; split <;> rfl
@[simp] theorem arm_seq (r : Reg) (s : State) : (arm r s).seq = s.seq := by unfold arm; split <;> rfl
@[simp] theorem arm_c (r : Reg) (s : State) : (arm r s).c = s.c := by unfold arm; split <;> rfl
@[simp] theorem arm_bus (r : Reg) (s : State) : (arm r s).bus = s.bus := by unfold arm; split <;> rfl
@[simp] theorem arm_refused (r : Reg) (s : State) : (arm r s).refused = s.refused := by unfold arm; split <;> rfl
@[simp] theorem arm_moves (r : Reg) (s : State) : (arm r s).moves = s.moves := by unfold arm; split <;> rfl
@[simp] theorem arm_events (r : Reg) (s : State) : (arm r s).events = s.events := by unfold arm; split <;> rfl
@[simp] theorem arm_turn (r : Reg) (s : State) : (arm r s).turn = s.turn := by unfold arm; split <;> rfl
@[simp] theorem arm_draws (r : Reg) (s : State) : (arm r s).draws = s.draws := by unfold arm; split <;> rfl

/-- A register write touches the peripheral and the mark alone. -/
theorem writeReg_frame (r : Reg) (v : Word) (s : State) :
    ∃ p m, writeReg r v s = { s with p := p, refused := m } := by
  unfold writeReg
  split
  · exact ⟨_, s.refused, rfl⟩
  · exact ⟨_, s.refused, rfl⟩
  · exact ⟨_, s.refused, rfl⟩
  · split
    · exact ⟨s.p, _, rfl⟩
    · split
      · exact ⟨s.p, _, rfl⟩
      · exact ⟨_, s.refused, rfl⟩
  all_goals
    split
    · exact ⟨s.p, _, rfl⟩
    · unfold arm
      split
      · exact ⟨_, s.refused, rfl⟩
      · exact ⟨_, s.refused, rfl⟩

theorem writeEn_frame (b : Bool) (s : State) : ∃ p m, writeEn b s = { s with p := p, refused := m } := by
  unfold writeEn
  split
  · exact ⟨s.p, _, rfl⟩
  · exact ⟨_, s.refused, rfl⟩

theorem setApms_frame (s : State) : ∃ p m, setApms s = { s with p := p, refused := m } := by
  unfold setApms
  split
  · exact ⟨s.p, _, rfl⟩
  · exact ⟨_, s.refused, rfl⟩

@[simp] theorem writeReg_params (r : Reg) (v : Word) (s : State) : (writeReg r v s).params = s.params := by
  obtain ⟨p, m, h⟩ := writeReg_frame r v s; rw [h]
@[simp] theorem writeReg_seq (r : Reg) (v : Word) (s : State) : (writeReg r v s).seq = s.seq := by
  obtain ⟨p, m, h⟩ := writeReg_frame r v s; rw [h]
@[simp] theorem writeReg_c (r : Reg) (v : Word) (s : State) : (writeReg r v s).c = s.c := by
  obtain ⟨p, m, h⟩ := writeReg_frame r v s; rw [h]
@[simp] theorem writeReg_bus (r : Reg) (v : Word) (s : State) : (writeReg r v s).bus = s.bus := by
  obtain ⟨p, m, h⟩ := writeReg_frame r v s; rw [h]
@[simp] theorem writeReg_moves (r : Reg) (v : Word) (s : State) : (writeReg r v s).moves = s.moves := by
  obtain ⟨p, m, h⟩ := writeReg_frame r v s; rw [h]
@[simp] theorem writeReg_events (r : Reg) (v : Word) (s : State) : (writeReg r v s).events = s.events := by
  obtain ⟨p, m, h⟩ := writeReg_frame r v s; rw [h]
@[simp] theorem writeReg_turn (r : Reg) (v : Word) (s : State) : (writeReg r v s).turn = s.turn := by
  obtain ⟨p, m, h⟩ := writeReg_frame r v s; rw [h]
@[simp] theorem writeReg_draws (r : Reg) (v : Word) (s : State) : (writeReg r v s).draws = s.draws := by
  obtain ⟨p, m, h⟩ := writeReg_frame r v s; rw [h]

/-- An idle peripheral takes `P.CTRL.EN <- b`. -/
theorem writeEn_idle (b : Bool) (s : State) (h : s.p.busy = false) :
    writeEn b s = { s with p := { s.p with en := b } } := by simp [writeEn, h]

/-- An idle peripheral takes `P.CTRL.APMS <- 1`. -/
theorem setApms_idle (s : State) (h : s.p.busy = false) :
    setApms s = { s with p := { s.p with apms := true } } := by simp [setApms, h]

/-- `P.FCLR.CSMF <- 1` clears SMF and nothing else. -/
theorem ackMatch_eq (s : State) : ackMatch s = { s with p := { s.p with smf := false } } := by
  simp [ackMatch, writeReg, setReg]

/-- A write of a descriptor register that starts nothing. -/
theorem writeReg_quiet (r : Reg) (v : Word) (s : State)
    (hr : r = .dlen ∨ r = .pcfg ∨ r = .addr ∨ r = .data ∨ r = .psmask ∨ r = .psmatch ∨ r = .pint)
    (hb : s.p.busy = false) (ha : arms r (setReg r v s.p) = false) :
    writeReg r v s = { s with p := setReg r v s.p } := by
  rcases hr with rfl | rfl | rfl | rfl | rfl | rfl | rfl <;> simp [writeReg, hb, arm, ha]

/-- A write of a descriptor register that arms the transaction. -/
theorem writeReg_arms (r : Reg) (v : Word) (s : State)
    (hr : r = .dlen ∨ r = .pcfg ∨ r = .addr ∨ r = .data ∨ r = .psmask ∨ r = .psmatch ∨ r = .pint)
    (hb : s.p.busy = false) (ha : arms r (setReg r v s.p) = true) :
    writeReg r v s =
      { s with p := { setReg r v s.p with live := some (snapshot (setReg r v s.p)), busy := true } } := by
  rcases hr with rfl | rfl | rfl | rfl | rfl | rfl | rfl <;> simp [writeReg, hb, arm, ha]

/-- A write to a descriptor register while a transaction is live sets the mark and changes nothing else
(R211(a)). -/
theorem writeReg_busy (r : Reg) (v : Word) (s : State)
    (hr : r = .dlen ∨ r = .pcfg ∨ r = .addr ∨ r = .data ∨ r = .psmask ∨ r = .psmatch ∨ r = .pint)
    (hb : s.p.busy = true) : writeReg r v s = refuse .registerWriteWhileBusy s := by
  rcases hr with rfl | rfl | rfl | rfl | rfl | rfl | rfl <;> simp [writeReg, hb]

/-! ## The wait, the port -/

/-- What a wait can answer (spec/40 R133): the four branches of the rule. -/
theorem spin_cases (f : Frame) (rest : List Frame) (s : State) :
    readBusy s = false ∧ spin f rest s = advance f rest { s with seq := { s.seq with spincnt := 0 } } ∨
    readBusy s = true ∧ s.params.spinLimit = none ∧ spin f rest s = s ∨
    readBusy s = true ∧ (∃ n, s.params.spinLimit = some n ∧ s.seq.spincnt + 1 < n ∧
      spin f rest s = { s with seq := { s.seq with spincnt := s.seq.spincnt + 1 } }) ∨
    readBusy s = true ∧ (∃ n, s.params.spinLimit = some n ∧ n ≤ s.seq.spincnt + 1 ∧
      spin f rest s = timeout f s) := by
  unfold spin
  cases hb : readBusy s
  · exact .inl ⟨rfl, by simp⟩
  · refine .inr ?_
    rw [if_neg (by decide)]
    split
    · next hn => exact .inl ⟨rfl, hn, rfl⟩
    · next n hn =>
      split
      · next hlt => exact .inr (.inl ⟨rfl, n, hn, hlt, rfl⟩)
      · next hge => exact .inr (.inr ⟨rfl, n, hn, by omega, rfl⟩)

/-- What an acceptance can answer (R24). -/
theorem acceptCommand_cases (x : Latches) (r : Routine) (s : State) :
    portReady s = false ∧ acceptCommand x r s = s ∨
    portReady s = true ∧ legalPhase x.op s.seq.phase = true ∧ acceptCommand x r s =
      { s with seq := { s.seq with x := x, active := true, spincnt := 0, stack := [startFrame r] } } ∨
    portReady s = true ∧ legalPhase x.op s.seq.phase = false ∧ acceptCommand x r s =
      raise causePrecondition (.opByte x.op) { s with seq := { s.seq with x := x } } := by
  unfold acceptCommand
  cases hp : portReady s
  · exact .inl ⟨rfl, by simp⟩
  · cases hl : legalPhase x.op s.seq.phase
    · exact .inr (.inr ⟨rfl, rfl, by simp [hl]⟩)
    · exact .inr (.inl ⟨rfl, rfl, by simp [hl]⟩)

/-! ## The bus -/

/-- What the chip's reaction can be: a refusal that changes the mark alone, or the instruction's effect on a chip
that listens and is idle. -/
theorem chipReact_cases (l : Lines) (effect : State → State) (s : State) :
    (∃ r, chipReact l effect s = refuse r s) ∨
    lineOk l s.c = true ∧ s.c.wip = false ∧ chipReact l effect s = effect s := by
  unfold chipReact
  cases h1 : lineOk l s.c
  · exact .inl ⟨.lineDiscipline, by simp⟩
  · cases h2 : s.c.wip
    · exact .inr ⟨rfl, rfl, by simp⟩
    · exact .inl ⟨.chipBusy, by simp⟩

/-- An instruction on the right lines, to a chip with nothing in progress, has its effect. -/
theorem chipReact_ok (l : Lines) (effect : State → State) (s : State) (h1 : lineOk l s.c = true)
    (h2 : s.c.wip = false) : chipReact l effect s = effect s := by simp [chipReact, h1, h2]

/-- A poll on the right lines (R209, R210). -/
theorem poll_ok (l : Lines) (op : Byte) (s : State) (h : lineOk l s.c = true) :
    poll l op s =
      { s with bus := s.bus ++ [⟨l, op, none, 0,
                 some (.fromChip, [statusByte s.params (s.params.statusReg op) s.c (Config.freeStatus s.draws)])⟩],
               p := pollCompare (statusByte s.params (s.params.statusReg op) s.c (Config.freeStatus s.draws)) s.p } := by
  simp [poll, h]

/-- A poll on the wrong lines sets the mark alone. -/
theorem poll_refused (l : Lines) (op : Byte) (s : State) (h : lineOk l s.c = false) :
    poll l op s = refuse .lineDiscipline s := by simp [poll, h]

/-- What the comparison of a poll can do to the peripheral: nothing, or SMF with the end of the transaction where
APMS is set. -/
theorem pollCompare_cases (b : Byte) (p : Periph) :
    pollCompare b p = p ∨
    ∃ d, p.live = some d ∧ statusMatches b (d.psmask.setWidth 8) (d.psmatch.setWidth 8) = true ∧
      (p.apms = true ∧ pollCompare b p = { p with smf := true, live := none, busy := false } ∨
       p.apms = false ∧ pollCompare b p = { p with smf := true }) := by
  unfold pollCompare
  split
  · exact .inl rfl
  · next d hd =>
    split
    · next hm =>
      refine .inr ⟨d, hd, hm, ?_⟩
      cases ha : p.apms
      · exact .inr ⟨rfl, by simp⟩
      · exact .inl ⟨rfl, by simp⟩
    · exact .inl rfl

/-! ## The chip's own step, reset -/

/-- A Timeout stands exactly when the cause is 3. -/
theorem expired_iff (s : State) : expired s = true ↔ s.seq.cause = 3 := by
  simp only [expired, beq_iff_eq]; exact Iff.rfl

/-- The chip's step where no Timeout stands (R222). -/
theorem chipStep_of (s : State) (h : s.seq.cause ≠ 3) : chipStep s = completePending s := by
  rw [chipStep, if_neg ((expired_iff s).not.mpr h)]

/-- The chip's step after a Timeout. -/
theorem chipStep_expired (s : State) (h : s.seq.cause = 3) : chipStep s = .next s := by
  rw [chipStep, if_pos ((expired_iff s).mpr h)]

/-- What the completion of the pending operation can answer (R222). -/
theorem completePending_cases (s t : State) (h : completePending s = .next t) :
    t = s ∧ (s.c.wip = false ∨ s.c.pending = none) ∨
    ∃ op, s.c.wip = true ∧ s.c.pending = some op ∧ op.inChip s.params = true ∧ t = completed op s := by
  unfold completePending at h
  split at h
  · next op hw hp =>
    split at h
    · next hin => cases h; exact .inr ⟨op, hw, hp, hin, rfl⟩
    · cases h
  · next hno =>
    cases h
    refine .inl ⟨rfl, ?_⟩
    cases hw : s.c.wip
    · exact .inl rfl
    · cases hp : s.c.pending with
      | none => exact .inr rfl
      | some op => exact absurd hp (hno op hw)

/-- What the array holds after a run of it became unknown. -/
theorem read_loseRun (s : State) (m : Memory) (run : Nat × Nat) (a : Nat) :
    Memory.read s.params.launchByte (loseRun s m run) a =
      if run.1 ≤ a ∧ a < run.1 + run.2 ∧ a < s.params.flashSize then Config.lostByte s.draws a
      else Memory.read s.params.launchByte m a := by
  simp only [loseRun, Memory.read_setRun]
  congr 1
  simp only [eq_iff_iff]
  omega

/-- What the array holds after runs of it became unknown: nothing changes outside them. -/
theorem read_loseBytes (runs : List (Nat × Nat)) (s : State) (a : Nat) :
    Memory.read s.params.launchByte (loseBytes runs s) a =
      if (∃ r ∈ runs, r.1 ≤ a ∧ a < r.1 + r.2) ∧ a < s.params.flashSize then Config.lostByte s.draws a
      else Memory.read s.params.launchByte s.c.flash a := by
  unfold loseBytes
  generalize s.c.flash = m
  induction runs generalizing m with
  | nil => simp
  | cons r runs ih =>
    rw [List.foldl_cons, ih, read_loseRun]
    by_cases h1 : ∃ x ∈ runs, x.1 ≤ a ∧ a < x.1 + x.2 <;> by_cases h2 : a < s.params.flashSize <;>
      simp [h1, h2]

/-- Outside the runs nothing is lost. -/
theorem read_loseBytes_of (runs : List (Nat × Nat)) (s : State) (a : Nat) (h : ∀ r ∈ runs, a < r.1 ∨ r.1 + r.2 ≤ a) :
    Memory.read s.params.launchByte (loseBytes runs s) a = Memory.read s.params.launchByte s.c.flash a := by
  rw [read_loseBytes, if_neg]
  rintro ⟨⟨r, hr, h1, h2⟩, _⟩
  have := h r hr
  omega

/-- Losing bytes keeps the canonical form. -/
theorem loseBytes_wf (runs : List (Nat × Nat)) (s : State) (hm : Memory.wf s.params s.c.flash = true) :
    Memory.wf s.params (loseBytes runs s) = true := by
  unfold loseBytes
  generalize s.c.flash = m at hm ⊢
  induction runs generalizing m with
  | nil => exact hm
  | cons r runs ih => exact ih _ (Memory.wf_setRun _ _ _ _ _ hm (by omega))

/-- The operation drawn after a Timeout lies in the chip. -/
theorem anyOperation_inChip (p : Params) (hp : p.wf = true) (n : Nat) : (anyOperation p n).inChip p = true := by
  obtain ⟨h1, h2, h3⟩ : p.flashSize % 4096 = 0 ∧ 0 < p.flashSize ∧ p.flashSize ≤ 2 ^ 32 := by
    simp only [Params.wf, Bool.and_eq_true, beq_iff_eq, decide_eq_true_eq] at hp
    tauto
  unfold anyOperation
  have ha := (Config.lostAddress n).isLt
  generalize (Config.lostAddress n).toNat = a at ha ⊢
  have e := Nat.mod_lt a h2
  split
  · simp only [PendingOp.inChip, PendingOp.range, sectorSize, BitVec.toNat_ofNat, decide_eq_true_eq]
    generalize a % p.flashSize = b at e ⊢
    omega
  · have e' := Nat.mod_lt a (show 0 < p.flashSize - 3 by omega)
    simp only [PendingOp.inChip, PendingOp.range, BitVec.toNat_ofNat, decide_eq_true_eq]
    generalize a % (p.flashSize - 3) = b at e' ⊢
    omega

/-- After a Timeout WIP is set exactly where an operation is pending. -/
theorem unknownChip_wip (s : State) : (unknownChip s).wip = (unknownChip s).pending.isSome := by
  simp only [unknownChip]
  cases (Config.lostFlags s.draws).getLsbD 1 <;> rfl

/-- What may be pending after a Timeout lies in the chip. -/
theorem unknownChip_pending (s : State) (hp : s.params.wf = true) (op : PendingOp)
    (h : (unknownChip s).pending = some op) : op.inChip s.params = true := by
  simp only [unknownChip] at h
  split at h
  · cases h; exact anyOperation_inChip _ hp _
  · cases h

/-- The array after a pending operation that lies in the chip is in canonical form. -/
theorem apply_wf (p : Params) (op : PendingOp) (m : Memory) (hm : Memory.wf p m = true) (hin : op.inChip p = true) :
    Memory.wf p (op.apply p m) = true := by
  cases op with
  | erase base => exact Memory.wf_setRun p m _ _ _ hm (of_decide_eq_true hin)
  | program a d0 d1 d2 d3 =>
    exact Memory.wf_setRun p m _ _ _ hm (of_decide_eq_true hin)

/-! ## Inversion of a step -/

/-- What a counted outcome can be. -/
theorem tick_cases (o : Host.Outcome State Fault Refusal) (t : State) (h : tick o = .next t) :
    ∃ u, o = .next u ∧ t = { unsettle u with draws := u.draws + 1, turn := Config.agentAt u.draws } := by
  unfold tick at h
  split at h
  · next u => cases h; exact ⟨u, rfl, rfl⟩
  · cases h
  · cases h

/-- A step that answers a next state is the agent's own step, counted, on an unmarked state or at a power-on reset. -/
theorem stepAs_cases (a : Agent) (s t : State) (h : stepAs a s = .next t) :
    (s.refused = none ∨ resetsNext a s) ∧ ∃ u, agentStep a s = .next u ∧
      t = { unsettle u with draws := u.draws + 1, turn := Config.agentAt u.draws } := by
  unfold stepAs at h
  split at h
  · next hr => exact ⟨.inl hr, tick_cases _ _ h⟩
  · split at h
    · next hn => exact ⟨.inr hn, tick_cases _ _ h⟩
    · cases h

/-- The host's power-on reset (spec/70 R265) is a step of every machine, marked or not. -/
theorem stepAs_reset (s : State) (rest : List HostMove) (h : s.moves = .powerOnReset :: rest) :
    stepAs .host s = tick (.next (powerOnReset { s with moves := rest })) := by
  unfold stepAs
  split
  · simp [agentStep, hostStep, h]
  · rw [if_pos ⟨rfl, by simp [h]⟩]
    simp [agentStep, hostStep, h]

/-- The agent's own step, counted, is the step, where no Timeout stands after it. -/
theorem stepAs_next (a : Agent) (s u : State) (hr : s.refused = none) (hu : agentStep a s = .next u)
    (hc : u.seq.cause ≠ causeTimeout) :
    stepAs a s = .next { u with draws := u.draws + 1, turn := Config.agentAt u.draws } := by
  simp [stepAs, hr, hu, tick, unsettle_of u hc]

/-- What the host's step can be. -/
theorem hostStep_cases (s t : State) (h : hostStep s = .next t) :
    t = s ∨
    (∃ w rest, s.moves = .command w :: rest ∧ portReady s = true ∧
      ((∃ i, decodeCommand w = .ok i ∧ exec i { s with moves := rest } = .next t) ∨
       t = acceptIllegal w { s with moves := rest })) ∨
    (∃ a n rest, s.moves = .read a n :: rest ∧ windowRead a n rest s = .next t) ∨
    (∃ a n v rest, s.moves = .write a n v :: rest ∧ t = refuse .windowWrite { s with moves := rest }) ∨
    (∃ rest, s.moves = .await :: rest ∧ t = { s with moves := rest }) ∨
    (∃ rest, s.moves = .powerOnReset :: rest ∧ t = powerOnReset { s with moves := rest }) := by
  unfold hostStep at h
  split at h
  · cases h; exact .inl rfl
  · next w rest hm =>
    unfold presentCommand at h
    split at h
    · next hp =>
      refine .inr (.inl ⟨w, rest, hm, hp, ?_⟩)
      split at h
      · next i hi => exact .inl ⟨i, hi, h⟩
      · cases h; exact .inr rfl
    · cases h; exact .inl rfl
  · next a n rest hm => exact .inr (.inr (.inl ⟨a, n, rest, hm, h⟩))
  · next a n v rest hm =>
    unfold windowWrite at h
    split at h
    · cases h; exact .inr (.inr (.inr (.inl ⟨a, n, v, rest, hm, rfl⟩)))
    · cases h
  · next rest hm =>
    split at h
    · cases h; exact .inl rfl
    · cases h; exact .inr (.inr (.inr (.inr (.inl ⟨rest, hm, rfl⟩))))
  · next rest hm => cases h; exact .inr (.inr (.inr (.inr (.inr ⟨rest, hm, rfl⟩))))

/-- What a window read can be: the mark set and the move taken, or the quad read. -/
theorem windowRead_cases (a n : Nat) (rest : List HostMove) (s t : State) (h : windowRead a n rest s = .next t) :
    (∃ r, t = refuse r { s with moves := rest }) ∨
    s.seq.phase = .p3Mmap ∧ s.seq.active = false ∧ ∃ req i, req.addr ≠ none ∧
      windowRequest s.p.pcfg (BitVec.ofNat 32 (a - s.params.mmapBase)) n = .ok req ∧ decodeBus req = .ok i ∧
      exec i { s with moves := rest } = .next t := by
  unfold windowRead at h
  split at h
  · cases h
  split at h
  · cases h; exact .inl ⟨_, rfl⟩
  next hp =>
  split at h
  · cases h; exact .inl ⟨_, rfl⟩
  split at h
  · cases h; exact .inl ⟨_, rfl⟩
  next req hreq =>
  split at h
  · cases h; exact .inl ⟨_, rfl⟩
  next ha =>
  split at h
  · next i hi =>
    push Not at hp
    exact .inr ⟨hp.1, by simpa using hp.2, req, i, by simpa [Option.isNone_iff_eq_none] using ha, hreq, hi, h⟩
  · cases h; exact .inl ⟨_, rfl⟩

/-- A request with an address phase that brings bytes back decodes to the quad read alone. -/
theorem decode_mapped (req : BusReq) (i : Instr) (n : Nat) (ha : req.addr ≠ none) (hd : req.data = .fromChip n)
    (h : decodeBus req = .ok i) : ∃ a, req.addr = some a ∧ i = .chipQiofr a req.dummy n := by
  obtain ⟨l, o, adr, dm, dat⟩ := req
  simp only at ha hd
  subst hd
  cases adr with
  | none => exact absurd rfl ha
  | some a =>
    refine ⟨a, rfl, ?_⟩
    simp only [decodeBus, instructionOnly, oneStatusByte] at h
    repeat' split at h
    all_goals simp_all

/-- What the sequencer's step can be. -/
theorem sequencerStep_cases (s t : State) (h : sequencerStep s = .next t) :
    s.seq.active = false ∧ t = s ∨
    s.seq.active = true ∧ s.seq.stack = [] ∧ t = commandDone s ∨
    ∃ f rest m, s.seq.active = true ∧ s.seq.stack = f :: rest ∧
      (routineSteps f.routine s.params s.seq.x)[f.step]? = some m ∧ microStep m f rest s = .next t := by
  unfold sequencerStep at h
  split at h
  · next ha =>
    split at h
    · next hs => cases h; exact .inr (.inl ⟨ha, hs, rfl⟩)
    · next f rest hs =>
      split at h
      · cases h
      · next m hm => exact .inr (.inr ⟨f, rest, m, ha, hs, hm, h⟩)
  · next ha => cases h; exact .inl ⟨by simpa using ha, rfl⟩

/-- What the peripheral's step can be. -/
theorem peripheralStep_cases (s t : State) (h : peripheralStep s = .next t) :
    t = s ∨ ∃ d, s.p.live = some d ∧ pcfgFmode d.pcfg ≠ fmodeMapped ∧
      ((∃ r, t = refuse r s) ∨
       ∃ req, requestOf d = .ok req ∧ ¬ (pcfgFmode d.pcfg = fmodePoll ∧ pollShape req = false) ∧
        ((∃ i, decodeBus req = .ok i ∧ exec i s = .next t) ∨
         ∃ e, decodeBus req = .error e ∧ t = performUnknown e req s)) := by
  unfold peripheralStep at h
  split at h
  · cases h; exact .inl rfl
  · next d hd =>
    split at h
    · cases h; exact .inl rfl
    · next hf =>
      refine .inr ⟨d, hd, hf, ?_⟩
      unfold performLive at h
      split at h
      · cases h; exact .inl ⟨_, rfl⟩
      · next req hreq =>
        split at h
        · cases h; exact .inl ⟨_, rfl⟩
        · next hp =>
          refine .inr ⟨req, hreq, hp, ?_⟩
          split at h
          · next i hi => exact .inl ⟨i, hi, h⟩
          · next e he => cases h; exact .inr ⟨e, he, rfl⟩

/-! ## Runs -/

/-- A run goes on from where its first part ended. -/
theorem runAs_append (l l' : List Agent) (s t : State) (h : runAs l s = .next t) : runAs (l ++ l') s = runAs l' t := by
  induction l generalizing s with
  | nil => cases h; rfl
  | cons a l ih =>
    simp only [runAs, List.cons_append] at *
    split at h
    · exact ih _ h
    · cases h
    · cases h

/-- A run of one agent is its step. -/
theorem runAs_one (a : Agent) (s t : State) (h : stepAs a s = .next t) : runAs [a] s = .next t := by
  simp only [runAs, h]

end Sys2Proof.Machine
end

