-- ==== Sys2Proof/Laws/Control.lean ====
section
/-! SUPPORT. The sequencer keeps the control-point invariant `ActiveOk` (spec/46_peripheral_and_chip.md R227 at every
control point): where calls, returns and waits stand in the step lists, one lemma for each routine's register steps,
and one each for a call, a return, a wait and `done`. -/

namespace Sys2Proof.Machine

/-! ## The step lists -/

/-- Where the calls stand (spec files 41 to 44). -/
theorem call_index (r r' : Routine) (p : Params) (x : Latches) (k : Nat)
    (h : (routineSteps r p x)[k]? = some (.call r')) :
    (r = .we ∧ k = 7 ∧ r' = wsLatch p) ∨ (r = .er ∧ k = 0 ∧ r' = .we) ∨ (r = .er ∧ k = 9 ∧ r' = wsIdle p) ∨
    (r = .pw ∧ k = 0 ∧ r' = .we) ∨ (r = .pw ∧ k = 11 ∧ r' = wsIdle p) ∨
    (r = .eq ∧ k = 7 ∧ r' = .ws (p.statusOpcode p.quadReg) p.quadMask p.quadMask) ∨
    (r = .e4 ∧ k = 7 ∧ r' = .ws (p.statusOpcode p.addr4Reg) p.addr4Mask p.addr4Mask) := by
  have hlt : k < (routineSteps r p x).length := by
    by_contra hc
    rw [List.getElem?_eq_none (by omega)] at h; cases h
  cases r <;> simp only [routineSteps, wsSteps, weSteps, erSteps, pwSteps, eqSteps, e4Steps, mmSteps,
      List.length_cons,
    List.length_nil] at hlt h
  all_goals interval_cases k <;> simp_all

/-- Where the returns stand. -/
theorem ret_index (r : Routine) (p : Params) (x : Latches) (k : Nat)
    (h : (routineSteps r p x)[k]? = some .ret) :
    (∃ o m t, r = .ws o m t) ∧ k = 12 ∨ r = .we ∧ k = 8 ∨ r = .er ∧ k = 10 ∨ r = .pw ∧ k = 12 ∨ r = .eq ∧ k = 8 ∨
      r = .e4 ∧ k = 8 ∨ r = .mm ∧ k = 6 := by
  have hlt : k < (routineSteps r p x).length := by
    by_contra hc
    rw [List.getElem?_eq_none (by omega)] at h; cases h
  cases r <;> simp only [routineSteps, wsSteps, weSteps, erSteps, pwSteps, eqSteps, e4Steps, mmSteps,
      List.length_cons,
    List.length_nil] at hlt h
  all_goals interval_cases k <;> simp_all

/-- Where the busy-waits stand: after the arming write, and at step 1 of ER. -/
theorem spin_index (r : Routine) (p : Params) (x : Latches) (k : Nat)
    (h : (routineSteps r p x)[k]? = some .spin) :
    k = r.armedStep ∨ r = .er ∧ k = 1 := by
  have hlt : k < (routineSteps r p x).length := by
    by_contra hc
    rw [List.getElem?_eq_none (by omega)] at h; cases h
  cases r <;> simp only [routineSteps, wsSteps, weSteps, erSteps, pwSteps, eqSteps, e4Steps, mmSteps,
      List.length_cons,
    List.length_nil, Routine.armedStep] at hlt h ⊢
  all_goals interval_cases k <;> simp_all

/-! ## Frames below the top -/

/-- A caller is never at its own armed step. -/
theorem caller_unarmed {p : Params} {x : Latches} {f : Frame} {rest : List Frame} (hs : stackOk p x (f :: rest)) :
    ∀ h ∈ rest, h.step ≠ h.routine.armedStep := by
  induction rest generalizing f with
  | nil => intro h hh; cases hh
  | cons g rest ih =>
    intro h hh
    rcases List.mem_cons.mp hh with rfl | hh
    · obtain ⟨h1, h2, _⟩ := hs
      have := call_index _ _ _ _ _ h2
      obtain ⟨r, k⟩ := h
      simp only at *
      rcases this with ⟨rfl, hk, _⟩ | ⟨rfl, hk, _⟩ | ⟨rfl, hk, _⟩ | ⟨rfl, hk, _⟩ | ⟨rfl, hk, _⟩ | ⟨rfl, hk, _⟩ |
        ⟨rfl, hk, _⟩ <;> simp [Routine.armedStep] <;> omega
    · exact ih hs.2.2 h hh

/-- A caller is never WS. -/
theorem callers_not_ws {p : Params} {x : Latches} {f : Frame} {rest : List Frame} (hs : stackOk p x (f :: rest)) :
    ∀ h ∈ rest, ∀ o m t, h.routine ≠ .ws o m t := by
  induction rest generalizing f with
  | nil => intro h hh; cases hh
  | cons g rest ih =>
    intro h hh
    rcases List.mem_cons.mp hh with rfl | hh
    · have := call_index _ _ _ _ _ hs.2.1
      intro o m t hr
      rw [hr] at this
      simp at this
    · exact ih hs.2.2 h hh

/-- Only WE and WS are called: another routine stands at the bottom. -/
theorem bottom {p : Params} {x : Latches} {f : Frame} {rest : List Frame} (h : stackOk p x (f :: rest))
    (hf : f.routine = .er ∨ f.routine = .pw ∨ f.routine = .eq ∨ f.routine = .e4 ∨ f.routine = .mm) : rest = [] := by
  cases rest with
  | nil => rfl
  | cons g r =>
    have := call_index _ _ _ _ _ h.2.1
    rcases hf with hf | hf | hf | hf | hf <;> rw [hf] at this <;> simp [wsLatch, wsIdle] at this

theorem stackOk_retop {p : Params} {x : Latches} {f f' : Frame} {rest : List Frame} (h : stackOk p x (f :: rest))
    (hf : f'.routine = f.routine) : stackOk p x (f' :: rest) := by
  cases rest with
  | nil => simpa [stackOk, hf] using h
  | cons g rest => simpa [stackOk, hf] using h

/-- The command's opcode, from the routine at the bottom. -/
theorem routineOf_op (x : Latches) :
    (∀ o m t, routineOf x = some (.ws o m t) → x.op = 1) ∧ (routineOf x = some .we → x.op = 2) ∧
    (routineOf x = some .er → x.op = 3) ∧ (routineOf x = some .pw → x.op = 4) ∧ (routineOf x = some .eq → x.op = 5) ∧
    (routineOf x = some .e4 → x.op = 6) ∧ (routineOf x = some .mm → x.op = 7) := by
  unfold routineOf
  repeat' split
  all_goals simp_all

/-- What `chipOk` reads. -/
theorem chipOk_congr {f f' : Frame} {s t : State} (h : chipOk f s) (hr : f'.routine = f.routine)
    (hp : performed f' t ↔ performed f s) (h1 : t.params = s.params) (h2 : t.c = s.c) (h3 : t.bus = s.bus)
    (h4 : t.seq.x = s.seq.x) : chipOk f' t := by
  unfold chipOk at *
  rw [hr]
  cases hR : f.routine <;> rw [hR] at h <;>
    simp only [hp, h1, h2, h3, h4, lastPollMatched, eraseUnderWay, programUnderWay, sectorErased,
      wordProgrammed] at * <;> exact h

/-- What `chipOk` of a caller reads: not the history. -/
theorem chipOk_caller {f : Frame} {s t : State} (h : chipOk f s) (hw : ∀ o m t, f.routine ≠ .ws o m t)
    (hp : performed f t ↔ performed f s) (h1 : t.params = s.params) (h2 : t.c = s.c) (h4 : t.seq.x = s.seq.x) :
    chipOk f t := by
  unfold chipOk at *
  cases hR : f.routine <;> rw [hR] at h <;>
    simp only [hp, h1, h2, h4, eraseUnderWay, programUnderWay, sectorErased, wordProgrammed] at *
  · exact absurd hR (hw _ _ _)
  all_goals exact h

theorem performed_unarmed {g : Frame} {s t : State} (h : g.step ≠ g.routine.armedStep) :
    performed g t ↔ performed g s := by
  simp [performed, h]

/-- What `keptAt` reads. -/
theorem kept_congr {r : Routine} {k : Nat} {s t : State} (h : r.keptAt k s) (h1 : t.p.addr = s.p.addr)
    (h2 : t.p.data = s.p.data) (h3 : t.seq.x = s.seq.x) : r.keptAt k t := by
  cases r <;> simp only [Routine.keptAt, h1, h2, h3] at * <;> exact h

/-- The frames below the top keep what they say of the chip where the chip and the history stay. -/
theorem rest_chip {s t : State} {f : Frame} {rest : List Frame} (hA : ActiveOk s) (hs : s.seq.stack = f :: rest)
    (h1 : t.params = s.params) (h2 : t.c = s.c) (h3 : t.bus = s.bus) (h4 : t.seq.x = s.seq.x) :
    ∀ g ∈ rest, chipOk g t := by
  intro g hg
  have hst := hA.stack; rw [hs] at hst
  exact chipOk_congr (hA.chip g (by rw [hs]; simp [hg])) rfl (performed_unarmed (caller_unarmed hst g hg)) h1 h2 h3 h4

/-! ## The top frame -/

theorem TopOk.live_none {f : Frame} {s : State} (h : TopOk f s) (hk : f.step ≠ f.routine.armedStep) :
    s.p.live = none := by
  rcases h.live with h | ⟨h, _⟩
  · exact h
  · exact absurd h hk

theorem TopOk.idle {f : Frame} {s : State} (hB : Basic s) (h : TopOk f s) (hk : f.step ≠ f.routine.armedStep) :
    s.p.busy = false := by
  rw [hB.busy_live, h.live_none hk]; rfl

/-- SMF is clear outside the two steps of WS between a match and its acknowledgement. -/
theorem TopOk.smf_clear {f : Frame} {s : State} (h : TopOk f s)
    (hk : ∀ o m t, f.routine = .ws o m t → f.step ≠ 9 ∧ f.step ≠ 10) : s.p.smf = false := by
  cases hs : s.p.smf
  · rfl
  · obtain ⟨⟨o, m, t, hr⟩, h1, _⟩ := h.smf hs
    have := hk o m t hr
    omega

/-- What a step that keeps the command going keeps. -/
structure StepRes (s t : State) : Prop where
  active : ActiveOk t
  apms : s.p.apms = true → t.p.apms = true
  chip : t.c = s.c
  phase : t.seq.phase = s.seq.phase
  fault : t.seq.fault = s.seq.fault

/-- A step that advances the top frame and touches only the peripheral's registers. -/
theorem advance_res {s u : State} {f : Frame} {rest : List Frame} (hA : ActiveOk s) (hs : s.seq.stack = f :: rest)
    (h1 : u.params = s.params) (h2 : u.c = s.c) (h3 : u.bus = s.bus) (h4 : u.seq.x = s.seq.x)
    (h5 : u.seq.phase = s.seq.phase) (h6 : u.seq.fault = s.seq.fault) (h7 : s.p.apms = true → u.p.apms = true)
    (hrest : (u.p.addr = s.p.addr ∧ u.p.data = s.p.data) ∨ rest = [])
    (hkept : f.routine.keptAt (f.step + 1) (advance f rest u))
    (hperf : performed ⟨f.routine, f.step + 1⟩ (advance f rest u) ↔ performed f s)
    (htop : TopOk ⟨f.routine, f.step + 1⟩ (advance f rest u)) : StepRes s (advance f rest u) := by
  have hst := hA.stack; rw [hs] at hst
  refine ⟨?_, by simpa using h7, by simpa using h2, by simpa using h5, by simpa using h6⟩
  constructor
  · simpa [h4, h5] using hA.legal
  · simp only [advance_params, advance_seq, h1, h4]
    exact stackOk_retop hst rfl
  · intro g r hg
    simp only [advance_seq, List.cons.injEq] at hg
    obtain ⟨rfl, rfl⟩ := hg
    exact htop
  · intro g hg
    simp only [advance_seq, List.mem_cons] at hg
    rcases hg with rfl | hg
    · exact chipOk_congr (hA.chip f (by rw [hs]; simp)) rfl hperf (by simpa using h1) (by simpa using h2)
        (by simpa using h3) (by simpa using h4)
    · exact rest_chip hA hs (by simpa using h1) (by simpa using h2) (by simpa using h3) (by simpa using h4) g hg
  · intro g hg
    simp only [advance_seq, List.mem_cons] at hg
    rcases hg with rfl | hg
    · exact hkept
    · rcases hrest with ⟨ha, hd⟩ | rfl
      · exact kept_congr (hA.kept g (by rw [hs]; simp [hg])) (by simpa using ha) (by simpa using hd)
          (by simpa using h4)
      · cases hg
  · simpa [h4, h2] using hA.calm
  · intro h; simp at h

/-! ## What the poll's configuration says, and when it arms -/

theorem poll_fmode (op : Byte) : pcfgFmode (kPoll ||| op.setWidth 32) = 2 := by revert op; decide
theorem poll_imode (op : Byte) : pcfgImode (kPoll ||| op.setWidth 32) = 3 := by revert op; decide
theorem poll_admode (op : Byte) : pcfgAdmode (kPoll ||| op.setWidth 32) = 0 := by revert op; decide
theorem poll_dmode (op : Byte) : pcfgDmode (kPoll ||| op.setWidth 32) = 3 := by revert op; decide
theorem poll_dcyc (op : Byte) : pcfgDcyc (kPoll ||| op.setWidth 32) = 0 := by revert op; decide
theorem poll_instr (op : Byte) : pcfgInstr (kPoll ||| op.setWidth 32) = op := by revert op; decide

/-- The opcode write of WS arms (spec/46 R207). -/
theorem arms_poll (op : Byte) (p : Periph) (h1 : p.en = true) (h2 : p.busy = false)
    (h3 : p.pcfg = kPoll ||| op.setWidth 32) : arms .pcfg p = true := by
  simp [arms, h1, h2, h3, poll_fmode, poll_imode, armTrigger, poll_admode, poll_dmode, fmodeMapped, modeNone,
    fmodeWrite]

/-! ## The register steps of each routine -/

/-- The register steps of WS. -/
theorem wsStep_res (op mask pattern : Byte) (k : Nat) (rest : List Frame) (s t : State) (hB : Basic s) (hA : ActiveOk s)
    (hst : s.seq.stack = ⟨.ws op mask pattern, k⟩ :: rest) (hk : k < 12) (hne : k ≠ 9) (m : Micro)
    (hm : (routineSteps (.ws op mask pattern) s.params s.seq.x)[k]? = some m)
    (h : microStep m ⟨.ws op mask pattern, k⟩ rest s = .next t) : StepRes s t := by
  have hT := hA.top _ _ hst
  have hb : s.p.busy = false := hT.idle hB (by simp only [Routine.armedStep]; omega)
  have hl : s.p.live = none := hT.live_none (by simp only [Routine.armedStep]; omega)
  have S' : k ≠ 10 → s.p.smf = false := by
    intro h10
    exact hT.smf_clear (fun _ _ _ _ => ⟨hne, h10⟩)
  obtain ⟨_, E, D, P, O, _, _, L, _⟩ := hT
  simp only [Routine.enAt, Routine.dlenAt, Routine.pcfgAt, Routine.operandsAt, performed, Routine.armedStep]
    at E D P O L
  interval_cases k <;> first | (exfalso; omega) | skip
  all_goals
    simp only [routineSteps, wsSteps, List.getElem?_cons_zero, List.getElem?_cons_succ, Option.some.injEq] at hm
    subst hm
    simp only [microStep, Host.Outcome.next.injEq] at h
    subst h
    simp at E P O S'
    first
      | rw [writeEn_idle _ _ hb]
      | rw [setApms_idle _ hb]
      | rw [ackMatch_eq]
      | (rw [writeReg_quiet _ _ _ (by simp) hb]; on_goal 2 => (simp [arms, setReg, E]; done))
      | (rw [writeReg_arms _ _ _ (by simp) hb]; on_goal 2 => (apply arms_poll op <;> simp [setReg, E, hb, P]; done))
    refine advance_res hA hst rfl rfl rfl rfl rfl rfl (by simp [setReg]) (.inl ⟨rfl, rfl⟩) trivial
      (by simp [performed, Routine.armedStep, setReg]) ?_
    constructor <;> first
      | (simp [routineSteps, wsSteps, Routine.enAt, Routine.dlenAt, Routine.operandsAt, performed, Routine.armedStep,
          snapshot, setReg, *]; done)
      | (intro w hw; simp [Routine.pcfgAt, Routine.waitedOn] at hw; done)
      | (intro w hw; simp [Routine.pcfgAt] at hw; subst hw; simp [setReg, *]; done)

/-- The register steps of WE. -/
theorem weStep_res (k : Nat) (rest : List Frame) (s t : State) (hB : Basic s) (hA : ActiveOk s)
    (hst : s.seq.stack = ⟨.we, k⟩ :: rest) (hk : k < 7) (hne : k ≠ 5) (m : Micro)
    (hm : (routineSteps (.we) s.params s.seq.x)[k]? = some m)
    (h : microStep m ⟨.we, k⟩ rest s = .next t) : StepRes s t := by
  have hT := hA.top _ _ hst
  have hb : s.p.busy = false := hT.idle hB (by simp only [Routine.armedStep]; omega)
  have hl : s.p.live = none := hT.live_none (by simp only [Routine.armedStep]; omega)
  have S' : s.p.smf = false := hT.smf_clear (by simp)
  obtain ⟨_, E, D, P, O, _, _, L, _⟩ := hT
  simp only [Routine.enAt, Routine.dlenAt, Routine.pcfgAt, Routine.operandsAt, performed, Routine.armedStep]
    at E D P O L
  interval_cases k <;> first | (exfalso; omega) | skip
  all_goals
    simp only [routineSteps, weSteps, List.getElem?_cons_zero, List.getElem?_cons_succ, Option.some.injEq] at hm
    subst hm
    simp only [microStep, Host.Outcome.next.injEq] at h
    subst h
    simp at E P O
    first
      | rw [writeEn_idle _ _ hb]
      | (rw [writeReg_quiet _ _ _ (by simp) hb]; on_goal 2 => (simp [arms, setReg, E]; done))
      | (rw [writeReg_arms _ _ _ (by simp) hb]; on_goal 2 => (simp [arms, setReg, E, hb, P]; decide))
    refine advance_res hA hst rfl rfl rfl rfl rfl rfl (by simp [setReg]) (.inl ⟨rfl, rfl⟩) trivial
      (by simp [performed, Routine.armedStep, setReg]) ?_
    constructor <;> first
      | (simp [routineSteps, weSteps, Routine.enAt, Routine.dlenAt, Routine.operandsAt, performed, Routine.armedStep,
          snapshot, setReg, *]; done)
      | (intro w hw; simp [Routine.pcfgAt, Routine.waitedOn] at hw; done)
      | (intro w hw; simp [Routine.pcfgAt] at hw; subst hw; simp [setReg, *]; done)

/-- The register steps of ER. -/
theorem erStep_res (k : Nat) (rest : List Frame) (s t : State) (hB : Basic s) (hA : ActiveOk s)
    (hst : s.seq.stack = ⟨.er, k⟩ :: rest) (hk0 : 2 ≤ k) (hk : k < 9) (hne : k ≠ 7) (m : Micro)
    (hm : (routineSteps (.er) s.params s.seq.x)[k]? = some m)
    (h : microStep m ⟨.er, k⟩ rest s = .next t) : StepRes s t := by
  have hT := hA.top _ _ hst
  have hb : s.p.busy = false := hT.idle hB (by simp only [Routine.armedStep]; omega)
  have hl : s.p.live = none := hT.live_none (by simp only [Routine.armedStep]; omega)
  have K := hA.kept _ (by rw [hst]; exact List.mem_cons_self)
  simp only [Routine.keptAt] at K
  have S' : s.p.smf = false := hT.smf_clear (by simp)
  obtain ⟨_, E, D, P, O, _, _, L, _⟩ := hT
  simp only [Routine.enAt, Routine.dlenAt, Routine.pcfgAt, Routine.operandsAt, performed, Routine.armedStep]
    at E D P O L
  interval_cases k <;> first | (exfalso; omega) | skip
  all_goals
    simp only [routineSteps, erSteps, List.getElem?_cons_zero, List.getElem?_cons_succ, Option.some.injEq] at hm
    subst hm
    simp only [microStep, Host.Outcome.next.injEq] at h
    subst h
    simp at E P O L K
    first
      | rw [writeEn_idle _ _ hb]
      | (rw [writeReg_quiet _ _ _ (by simp) hb]; on_goal 2 => (simp [arms, setReg, E]; done))
      | (rw [writeReg_quiet _ _ _ (by simp) hb]; on_goal 2 => (simp [arms, setReg, E, hb, P]; decide))
      | (rw [writeReg_arms _ _ _ (by simp) hb]; on_goal 2 => (simp [arms, setReg, E, hb, P]; decide))
    refine advance_res hA hst rfl rfl rfl rfl rfl rfl (by simp [setReg]) (.inr (bottom (hst ▸ hA.stack) (by simp)))
      (by simp [Routine.keptAt, setReg, K])
      (by simp [performed, Routine.armedStep, setReg]) ?_
    constructor <;> first
      | (simp [routineSteps, erSteps, Routine.enAt, Routine.dlenAt, Routine.operandsAt, performed, Routine.armedStep,
          snapshot, setReg, *]; done)
      | (intro w hw; simp [Routine.pcfgAt, Routine.waitedOn] at hw; done)
      | (intro w hw; simp [Routine.pcfgAt] at hw; subst hw; simp [setReg, *]; done)

/-- The register steps of PW. -/
theorem pwStep_res (k : Nat) (rest : List Frame) (s t : State) (hB : Basic s) (hA : ActiveOk s)
    (hst : s.seq.stack = ⟨.pw, k⟩ :: rest) (hk0 : 1 ≤ k) (hk : k < 11) (hne : k ≠ 8) (m : Micro)
    (hm : (routineSteps (.pw) s.params s.seq.x)[k]? = some m)
    (h : microStep m ⟨.pw, k⟩ rest s = .next t) : StepRes s t := by
  have hT := hA.top _ _ hst
  have hb : s.p.busy = false := hT.idle hB (by simp only [Routine.armedStep]; omega)
  have hl : s.p.live = none := hT.live_none (by simp only [Routine.armedStep]; omega)
  have K := hA.kept _ (by rw [hst]; exact List.mem_cons_self)
  simp only [Routine.keptAt] at K
  have S' : s.p.smf = false := hT.smf_clear (by simp)
  obtain ⟨_, E, D, P, O, _, _, L, _⟩ := hT
  simp only [Routine.enAt, Routine.dlenAt, Routine.pcfgAt, Routine.operandsAt, performed, Routine.armedStep]
    at E D P O L
  interval_cases k <;> first | (exfalso; omega) | skip
  all_goals
    simp only [routineSteps, pwSteps, List.getElem?_cons_zero, List.getElem?_cons_succ, Option.some.injEq] at hm
    subst hm
    simp only [microStep, Host.Outcome.next.injEq] at h
    subst h
    simp at E P O L K
    first
      | rw [writeEn_idle _ _ hb]
      | (rw [writeReg_quiet _ _ _ (by simp) hb]; on_goal 2 => (simp [arms, setReg, E]; done))
      | (rw [writeReg_quiet _ _ _ (by simp) hb]; on_goal 2 => (simp [arms, setReg, E, hb, P]; decide))
      | (rw [writeReg_arms _ _ _ (by simp) hb]; on_goal 2 => (simp [arms, setReg, E, hb, P]; decide))
    refine advance_res hA hst rfl rfl rfl rfl rfl rfl (by simp [setReg]) (.inr (bottom (hst ▸ hA.stack) (by simp)))
      (by simp [Routine.keptAt, setReg, K])
      (by simp [performed, Routine.armedStep, setReg]) ?_
    constructor <;> first
      | (simp [routineSteps, pwSteps, Routine.enAt, Routine.dlenAt, Routine.operandsAt, performed, Routine.armedStep,
          snapshot, setReg, *]; done)
      | (intro w hw; simp [Routine.pcfgAt, Routine.waitedOn] at hw; done)
      | (intro w hw; simp [Routine.pcfgAt] at hw; subst hw; simp [setReg, *]; done)

/-- The register steps of EQ. -/
theorem eqStep_res (k : Nat) (rest : List Frame) (s t : State) (hB : Basic s) (hA : ActiveOk s)
    (hst : s.seq.stack = ⟨.eq, k⟩ :: rest) (hk : k < 7) (hne : k ≠ 5) (m : Micro)
    (hm : (routineSteps (.eq) s.params s.seq.x)[k]? = some m)
    (h : microStep m ⟨.eq, k⟩ rest s = .next t) : StepRes s t := by
  have hT := hA.top _ _ hst
  have hb : s.p.busy = false := hT.idle hB (by simp only [Routine.armedStep]; omega)
  have hl : s.p.live = none := hT.live_none (by simp only [Routine.armedStep]; omega)
  have S' : s.p.smf = false := hT.smf_clear (by simp)
  obtain ⟨_, E, D, P, O, _, _, L, _⟩ := hT
  simp only [Routine.enAt, Routine.dlenAt, Routine.pcfgAt, Routine.operandsAt, performed, Routine.armedStep]
    at E D P O L
  interval_cases k <;> first | (exfalso; omega) | skip
  all_goals
    simp only [routineSteps, eqSteps, List.getElem?_cons_zero, List.getElem?_cons_succ, Option.some.injEq] at hm
    subst hm
    simp only [microStep, Host.Outcome.next.injEq] at h
    subst h
    simp at E P O
    first
      | (rw [if_neg]; on_goal 2 => (simp [E]; done))
      | rw [writeEn_idle _ _ hb]
      | (rw [writeReg_quiet _ _ _ (by simp) hb]; on_goal 2 => (simp [arms, setReg, E]; done))
      | (rw [writeReg_arms _ _ _ (by simp) hb]; on_goal 2 => (simp [arms, setReg, E, hb, P]; decide))
    refine advance_res hA hst rfl rfl rfl rfl rfl rfl (by simp [setReg]) (.inl ⟨rfl, rfl⟩) trivial
      (by simp [performed, Routine.armedStep, setReg]) ?_
    constructor <;> first
      | (simp [routineSteps, eqSteps, Routine.enAt, Routine.dlenAt, Routine.operandsAt, performed, Routine.armedStep,
          snapshot, setReg, *]; done)
      | (intro w hw; simp [Routine.pcfgAt, Routine.waitedOn] at hw; done)
      | (intro w hw; simp [Routine.pcfgAt] at hw; subst hw; simp [setReg, *]; done)

/-- The register steps of E4. -/
theorem e4Step_res (k : Nat) (rest : List Frame) (s t : State) (hB : Basic s) (hA : ActiveOk s)
    (hst : s.seq.stack = ⟨.e4, k⟩ :: rest) (hk : k < 7) (hne : k ≠ 5) (m : Micro)
    (hm : (routineSteps (.e4) s.params s.seq.x)[k]? = some m)
    (h : microStep m ⟨.e4, k⟩ rest s = .next t) : StepRes s t := by
  have hT := hA.top _ _ hst
  have hb : s.p.busy = false := hT.idle hB (by simp only [Routine.armedStep]; omega)
  have hl : s.p.live = none := hT.live_none (by simp only [Routine.armedStep]; omega)
  have S' : s.p.smf = false := hT.smf_clear (by simp)
  obtain ⟨_, E, D, P, O, _, _, L, _⟩ := hT
  simp only [Routine.enAt, Routine.dlenAt, Routine.pcfgAt, Routine.operandsAt, performed, Routine.armedStep]
    at E D P O L
  interval_cases k <;> first | (exfalso; omega) | skip
  all_goals
    simp only [routineSteps, e4Steps, List.getElem?_cons_zero, List.getElem?_cons_succ, Option.some.injEq] at hm
    subst hm
    simp only [microStep, Host.Outcome.next.injEq] at h
    subst h
    simp at E P O
    first
      | (rw [if_neg]; on_goal 2 => (simp [E]; done))
      | rw [writeEn_idle _ _ hb]
      | (rw [writeReg_quiet _ _ _ (by simp) hb]; on_goal 2 => (simp [arms, setReg, E]; done))
      | (rw [writeReg_arms _ _ _ (by simp) hb]; on_goal 2 => (simp [arms, setReg, E, hb, P]; decide))
    refine advance_res hA hst rfl rfl rfl rfl rfl rfl (by simp [setReg]) (.inl ⟨rfl, rfl⟩) trivial
      (by simp [performed, Routine.armedStep, setReg]) ?_
    constructor <;> first
      | (simp [routineSteps, e4Steps, Routine.enAt, Routine.dlenAt, Routine.operandsAt, performed, Routine.armedStep,
          snapshot, setReg, *]; done)
      | (intro w hw; simp [Routine.pcfgAt, Routine.waitedOn] at hw; done)
      | (intro w hw; simp [Routine.pcfgAt] at hw; subst hw; simp [setReg, *]; done)

/-- The register steps of MM, the settle step among them. -/
theorem mmStep_res (k : Nat) (rest : List Frame) (s t : State) (hB : Basic s) (hA : ActiveOk s)
    (hst : s.seq.stack = ⟨.mm, k⟩ :: rest) (hk : k < 6) (m : Micro)
    (hm : (routineSteps (.mm) s.params s.seq.x)[k]? = some m)
    (h : microStep m ⟨.mm, k⟩ rest s = .next t) : StepRes s t := by
  have hT := hA.top _ _ hst
  have hb : s.p.busy = false := hT.idle hB (by simp only [Routine.armedStep]; omega)
  have hl : s.p.live = none := hT.live_none (by simp only [Routine.armedStep]; omega)
  have S' : s.p.smf = false := hT.smf_clear (by simp)
  obtain ⟨_, E, D, P, O, _, _, L, _⟩ := hT
  simp only [Routine.enAt, Routine.dlenAt, Routine.pcfgAt, Routine.operandsAt, performed, Routine.armedStep]
    at E D P O L
  interval_cases k <;> first | (exfalso; omega) | skip
  all_goals
    simp only [routineSteps, mmSteps, List.getElem?_cons_zero, List.getElem?_cons_succ, Option.some.injEq] at hm
    subst hm
    simp only [microStep, Host.Outcome.next.injEq] at h
    subst h
    simp at E P O
    first
      | rw [writeEn_idle _ _ hb]
      | (rw [writeReg_quiet _ _ _ (by simp) hb]; on_goal 2 => (simp [arms, setReg, E]; done))
      | skip
    refine advance_res hA hst rfl rfl rfl rfl rfl rfl (by simp [setReg]) (.inl ⟨rfl, rfl⟩) trivial
      (by simp [performed, Routine.armedStep, setReg]) ?_
    constructor <;> first
      | (simp [routineSteps, mmSteps, Routine.enAt, Routine.dlenAt, Routine.operandsAt, performed, Routine.armedStep,
          snapshot, setReg, *]; done)
      | (intro w hw; simp [Routine.pcfgAt, Routine.waitedOn] at hw; done)
      | (intro w hw; simp [Routine.pcfgAt] at hw; subst hw; simp [setReg, *]; done)

/-- A poll that matched was a poll. -/
theorem lastPollMatched.polled {op mask pattern : Byte} {s : State} (h : lastPollMatched op mask pattern s) :
    lastPolled op s := h.imp fun _ hb => hb.1

/-! ## Calls, returns, waits, done -/

/-- A call (spec/10 R23): the routine called starts idle and disabled, the caller stands at its next step. -/
theorem call_step (f : Frame) (rest : List Frame) (s : State) (r : Routine) (hB : Basic s) (hA : ActiveOk s)
    (hst : s.seq.stack = f :: rest)
    (hm : (routineSteps f.routine s.params s.seq.x)[f.step]? = some (.call r)) :
    ActiveOk { s with seq := { s.seq with stack := startFrame r :: { f with step := f.step + 1 } :: rest } } := by
  have hT := hA.top _ _ hst
  have hC := hA.chip f (by rw [hst]; simp)
  have hK := hA.kept f (by rw [hst]; simp)
  have hs := hA.stack; rw [hst] at hs
  have hcall := call_index _ _ _ _ _ hm
  have hne : f.step ≠ f.routine.armedStep := by
    obtain ⟨fr, k⟩ := f
    rcases hcall with ⟨h1, h2, _⟩ | ⟨h1, h2, _⟩ | ⟨h1, h2, _⟩ | ⟨h1, h2, _⟩ | ⟨h1, h2, _⟩ | ⟨h1, h2, _⟩ | ⟨h1, h2,
        _⟩ <;>
      simp only at h1 h2 <;> subst h1 h2 <;> simp [Routine.armedStep]
  have hl := hT.live_none hne
  have hsmf : s.p.smf = false := hT.smf_clear (by
    intro o m t hr
    rcases hcall with ⟨h1, h2, _⟩ | ⟨h1, h2, _⟩ | ⟨h1, h2, _⟩ | ⟨h1, h2, _⟩ | ⟨h1, h2, _⟩ | ⟨h1, h2, _⟩ | ⟨h1, h2,
        _⟩ <;> rw [h1] at hr <;> cases hr)
  have hperf : performed { f with step := f.step + 1 } s ↔ performed f s := by
    obtain ⟨fr, k⟩ := f
    rcases hcall with ⟨h1, h2, _⟩ | ⟨h1, h2, _⟩ | ⟨h1, h2, _⟩ | ⟨h1, h2, _⟩ | ⟨h1, h2, _⟩ | ⟨h1, h2, _⟩ | ⟨h1, h2,
        _⟩ <;>
      simp only at h1 h2 <;> subst h1 h2 <;> simp [performed, Routine.armedStep]
  have hE := hT.en
  have hD := hT.dlen
  have hr : r = .we ∨ ∃ o m t, r = .ws o m t := by
    rcases hcall with ⟨_, _, h⟩ | ⟨_, _, h⟩ | ⟨_, _, h⟩ | ⟨_, _, h⟩ | ⟨_, _, h⟩ | ⟨_, _, h⟩ | ⟨_, _, h⟩ <;>
        rw [h] <;> simp [wsLatch, wsIdle]
  constructor
  · exact hA.legal
  · refine ⟨by simp, ?_, stackOk_retop hs rfl⟩
    simpa [startFrame] using hm
  · intro g r' hg
    simp only [List.cons.injEq] at hg
    obtain ⟨rfl, _⟩ := hg
    have en0 : s.p.en = false := by
      obtain ⟨fr, k⟩ := f
      rcases hcall with ⟨h1, h2, _⟩ | ⟨h1, h2, _⟩ | ⟨h1, h2, _⟩ | ⟨h1, h2, _⟩ | ⟨h1, h2, _⟩ | ⟨h1, h2, _⟩ | ⟨h1,
          h2, _⟩ <;>
      simp only at h1 h2 <;> subst h1 h2 <;> simpa [Routine.enAt] using hE
    have d0 : s.p.dlen = 0 := by
      obtain ⟨fr, k⟩ := f
      rcases hcall with ⟨h1, h2, _⟩ | ⟨h1, h2, _⟩ | ⟨h1, h2, _⟩ | ⟨h1, h2, _⟩ | ⟨h1, h2, _⟩ | ⟨h1, h2, _⟩ | ⟨h1,
          h2, _⟩ <;>
      simp only at h1 h2 <;> subst h1 h2 <;> simpa [Routine.dlenAt] using hD
    rcases hr with rfl | ⟨o, m, t, rfl⟩
    all_goals
      constructor <;> simp [startFrame, routineSteps, weSteps, wsSteps, Routine.enAt, Routine.dlenAt,
          Routine.pcfgAt, Routine.operandsAt, Routine.waitedOn, en0, d0, hl, hsmf]
  · intro g hg
    simp only [List.mem_cons] at hg
    rcases hg with rfl | rfl | hg
    · obtain ⟨fr, k⟩ := f
      rcases hcall with ⟨h1, h2, h⟩ | ⟨h1, h2, h⟩ | ⟨h1, h2, h⟩ | ⟨h1, h2, h⟩ | ⟨h1, h2, h⟩ | ⟨h1, h2, h⟩ | ⟨h1,
          h2, h⟩ <;>
        simp only at h1 h2 <;> subst h1 h2 h <;> simp [chipOk, startFrame, wsLatch, wsIdle, performed,
            Routine.armedStep] at hC ⊢
      · exact hC
      · exact hC
    · exact chipOk_congr hC rfl hperf rfl rfl rfl rfl
    · exact rest_chip hA hst rfl rfl rfl rfl g hg
  · intro g hg
    simp only [List.mem_cons] at hg
    rcases hg with rfl | rfl | hg
    · rcases hr with rfl | ⟨o, m, t, rfl⟩ <;> simp [startFrame, Routine.keptAt]
    · obtain ⟨fr, k⟩ := f
      rcases hcall with ⟨h1, h2, h⟩ | ⟨h1, h2, h⟩ | ⟨h1, h2, h⟩ | ⟨h1, h2, h⟩ | ⟨h1, h2, h⟩ | ⟨h1, h2, h⟩ | ⟨h1,
          h2, h⟩ <;>
        simp only at h1 h2 <;> subst h1 h2 <;> simpa [Routine.keptAt] using hK
    · exact kept_congr (hA.kept g (by rw [hst]; simp [hg])) rfl rfl rfl
  · exact hA.calm
  · intro h; simp at h

/-- The return of the command's own routine. -/
theorem ret_finish (f : Frame) (s : State) (hA : ActiveOk s) (hst : s.seq.stack = [f])
    (hm : (routineSteps f.routine s.params s.seq.x)[f.step]? = some .ret) :
    ActiveOk { s with seq := { s.seq with stack := [] } } := by
  have hT := hA.top _ _ hst
  have hC := hA.chip f (by rw [hst]; simp)
  have hK := hA.kept f (by rw [hst]; simp)
  have hs := hA.stack; rw [hst] at hs
  simp only [stackOk] at hs
  have hO := routineOf_op s.seq.x
  rw [← hs] at hO
  have hcalm := hA.calm
  refine ⟨hA.legal, trivial, by simp, by simp, by simp, hA.calm, fun _ => ?_⟩
  obtain ⟨fr, k⟩ := f
  obtain ⟨_, E, D, P, O, Lv, S, _, St, Wt⟩ := hT
  rcases ret_index _ _ _ _ hm with ⟨⟨o, m, t, h1⟩, h2⟩ | ⟨h1, h2⟩ | ⟨h1, h2⟩ | ⟨h1, h2⟩ | ⟨h1, h2⟩ | ⟨h1, h2⟩ |
      ⟨h1, h2⟩ <;>
    simp only at h1 h2 <;> subst h1 h2 <;>
    simp [Routine.enAt, Routine.dlenAt, Routine.pcfgAt, Routine.operandsAt, Routine.armedStep, Routine.keptAt,
        Routine.waitedOn, chipOk, performed] at E D P O Lv S St Wt hC hK hO <;>
    (try rw [hO] at hcalm) <;>
    (constructor <;> simp only [← hs] <;> simp_all [pollConfigured, lastPolled, lastPollMatched, programUnderWay,
        eraseUnderWay, sectorErased, wordProgrammed]) <;>
    first
      | exact ⟨_, Wt, rfl⟩
      | exact ⟨_, hC.imp fun _ h => h.1, rfl⟩
      | (intro o m t h; rw [← hs] at h; cases h; exact hC)
      | (intro o m t h; rw [← hs] at h; cases h; done)
      | (constructor <;> simp_all)


/-- A return to a caller. -/
theorem ret_caller (f g : Frame) (rest : List Frame) (s : State) (hA : ActiveOk s) (hst : s.seq.stack = f :: g :: rest)
    (hm : (routineSteps f.routine s.params s.seq.x)[f.step]? = some .ret) :
    ActiveOk { s with seq := { s.seq with stack := g :: rest } } := by
  have hT := hA.top _ _ hst
  have hC := hA.chip f (by rw [hst]; simp)
  have hCg := hA.chip g (by rw [hst]; simp)
  have hs := hA.stack; rw [hst] at hs
  refine ⟨hA.legal, hs.2.2, ?_, ?_, ?_, hA.calm, by simp⟩
  · intro g' r' h
    simp only [List.cons.injEq] at h
    obtain ⟨rfl, rfl⟩ := h
    obtain ⟨h1, h2, h3⟩ := hs
    have hci := call_index _ _ _ _ _ h2
    have hgs : g.step = (g.step - 1) + 1 := by omega
    obtain ⟨fr, k⟩ := f
    obtain ⟨gr, j⟩ := g
    obtain ⟨_, E, D, P, O, Lv, S, _, St, Wt⟩ := hT
    simp only at *
    rcases hci with ⟨a1, a2, a3⟩ | ⟨a1, a2, a3⟩ | ⟨a1, a2, a3⟩ | ⟨a1, a2, a3⟩ | ⟨a1, a2, a3⟩ | ⟨a1, a2, a3⟩ | ⟨a1,
        a2, a3⟩ <;>
      subst a1 a3 <;> rw [a2] at hgs <;> subst hgs <;> 
      rcases ret_index _ _ _ _ hm with ⟨⟨o, m, t, b1⟩, b2⟩ | ⟨b1, b2⟩ | ⟨b1, b2⟩ | ⟨b1, b2⟩ | ⟨b1, b2⟩ | ⟨b1, b2⟩ |
          ⟨b1, b2⟩ <;>
      simp only [wsLatch, wsIdle, reduceCtorEq, Routine.ws.injEq] at b1 <;> subst b2 <;>
      simp [Routine.enAt, Routine.dlenAt, Routine.pcfgAt, Routine.operandsAt, Routine.armedStep, Routine.keptAt,
          chipOk, performed, wsLatch, wsIdle] at E D P O Lv S St hC hCg
    all_goals
      constructor <;> simp [Routine.enAt, Routine.dlenAt, Routine.pcfgAt, Routine.operandsAt, Routine.armedStep,
          performed, Routine.waitedOn, routineSteps, weSteps, erSteps, pwSteps, eqSteps, e4Steps, *]
      try
        show lastPolled o s
        rw [← b1.1]
        exact hC.1.polled
  · intro g' hg'
    exact chipOk_congr (hA.chip g' (by rw [hst]; simp at hg' ⊢; tauto)) rfl Iff.rfl rfl rfl rfl rfl
  · intro g' hg'
    exact kept_congr (hA.kept g' (by rw [hst]; simp at hg' ⊢; tauto)) rfl rfl rfl

/-- No command is legal in `P3_MMAP` (R25). -/
theorem p3_illegal (op : Byte) : legalPhase op .p3Mmap = false := by
  unfold legalPhase; repeat' split
  all_goals rfl

/-- While a command executes a read of BUSY gives the flag. -/
theorem active_readBusy (s : State) (hA : ActiveOk s) : readBusy s = s.p.busy := by
  unfold readBusy
  split
  · next h => have := hA.legal; rw [h, p3_illegal] at this; cases this
  · rfl

/-- What `ActiveOk` reads. -/
theorem ActiveOk.congr {s t : State} (h : ActiveOk s) (h1 : t.params = s.params) (h2 : t.seq.x = s.seq.x)
    (h3 : t.seq.stack = s.seq.stack) (h3' : t.seq.phase = s.seq.phase) (h4 : t.p = s.p) (h5 : t.c = s.c) (h6 : t.bus = s.bus) : ActiveOk t := by
  obtain ⟨a, b, c, d, e, f, g⟩ := h
  have hp : ∀ f, performed f t ↔ performed f s := by intro f; simp [performed, h4]
  constructor
  · rw [h2, h3']; exact a
  · rw [h1, h2, h3]; exact b
  · intro f r hf
    rw [h3] at hf
    obtain ⟨q1, q2, q3, q4, q5, q6, q7, q8, q9, q10⟩ := c f r hf
    refine ⟨by rw [h1, h2]; exact q1, by rw [h4]; exact q2, by rw [h4]; exact q3, by rw [h1, h4]; exact q4, ?_,
        by rw [h4]; exact q6, by rw [h4]; exact q7, ?_, by rw [h5]; exact q9,
        by rw [h1]; simp only [lastPolled, h6]; exact q10⟩
    · cases hR : f.routine <;> rw [hR] at q5 <;> simp only [Routine.operandsAt, h4, h1] at q5 ⊢ <;> exact q5
    · rw [hp, h5]; exact q8
  · intro f hf
    rw [h3] at hf
    exact chipOk_congr (d f hf) rfl (hp f) h1 h5 h6 h2
  · intro f hf
    rw [h3] at hf
    exact kept_congr (e f hf) (by rw [h4]) (by rw [h4]) h2
  · rw [h2, h5]; exact f
  · intro hf
    rw [h3] at hf
    obtain ⟨⟨z1, z2, z3⟩, q2, q3, q4, q5, q6, q7, q8, q9, q10⟩ := g hf
    have hq : Quiet t := ⟨by rw [h4]; exact z1, by rw [h4]; exact z2, by rw [h4]; exact z3⟩
    constructor <;> simp only [h2, h4, h5, h1, lastPollMatched, h6, eraseUnderWay, programUnderWay, sectorErased,
        wordProgrammed, pollConfigured, lastPolled] at * <;> first | assumption | exact hq

/-- A wait (spec/40 R133): the command goes on, or a Timeout is raised. -/
theorem spin_step (f : Frame) (rest : List Frame) (s : State) (hB : Basic s) (hA : ActiveOk s)
    (hst : s.seq.stack = f :: rest)
    (hm : (routineSteps f.routine s.params s.seq.x)[f.step]? = some .spin) (t : State) (ht : t = spin f rest s) :
    (ActiveOk t ∧ t.p = s.p ∧ t.c = s.c ∧ t.seq.phase = s.seq.phase ∧ t.seq.fault = s.seq.fault ∧ t.seq.active = s.seq.active) ∨
      (t.seq.cause = 3 ∧ t.seq.active = false ∧ t.seq.phase = s.seq.phase) := by
  rcases spin_cases f rest s with ⟨hb, h⟩ | ⟨_, _, h⟩ | ⟨_, n, _, _, h⟩ | ⟨_, n, _, _, h⟩
  · rw [active_readBusy s hA] at hb
    have hl : s.p.live = none := by
      have := hB.busy_live; rw [hb] at this
      simpa using this.symm
    have hT := hA.top _ _ hst
    have hK := hA.kept f (by rw [hst]; simp)
    rw [ht, h]
    refine .inl ⟨(advance_res (u := { s with seq := { s.seq with spincnt := 0 } }) hA hst rfl rfl rfl rfl rfl rfl id
      (.inl ⟨rfl, rfl⟩) ?_ ?_ ?_).active, rfl, rfl, rfl, rfl, rfl⟩
    rotate_left 2
    · obtain ⟨_, E, D, P, O, Lv, S, L, St⟩ := hT
      obtain ⟨fr, k⟩ := f
      rcases spin_index _ _ _ _ hm with hk | ⟨h1, h2⟩
      · simp only at hk; subst hk
        cases fr <;> (try cases hm) <;>
        simp [Routine.enAt, Routine.dlenAt, Routine.pcfgAt, Routine.operandsAt, Routine.armedStep, performed,
            hl] at E D P O Lv S St <;>
        constructor <;> simp [Routine.enAt, Routine.dlenAt, Routine.pcfgAt, Routine.operandsAt, Routine.armedStep,
            performed, Routine.waitedOn, routineSteps, wsSteps, weSteps, erSteps, pwSteps, eqSteps, e4Steps, *]
      · simp only at h1 h2; subst h1 h2
        simp [Routine.enAt, Routine.dlenAt, Routine.pcfgAt, Routine.operandsAt, Routine.armedStep, performed,
            hl] at E D P O Lv S St L
        constructor <;> simp [Routine.enAt, Routine.dlenAt, Routine.pcfgAt, Routine.operandsAt, Routine.armedStep,
            performed, Routine.waitedOn, routineSteps, wsSteps, weSteps, erSteps, pwSteps, eqSteps, e4Steps, *]
    · obtain ⟨fr, k⟩ := f
      rcases spin_index _ _ _ _ hm with hk | ⟨h1, h2⟩
      · simp only at hk; subst hk
        cases fr <;> simp_all [Routine.keptAt, Routine.armedStep]
      · simp only at h1 h2; subst h1 h2
        simp [Routine.keptAt]
    · obtain ⟨fr, k⟩ := f
      rcases spin_index _ _ _ _ hm with hk | ⟨h1, h2⟩
      · simp only at hk; subst hk
        simp [performed, hl]
      · simp only at h1 h2; subst h1 h2
        simp [performed, Routine.armedStep]
  · rw [ht, h]
    exact .inl ⟨hA, rfl, rfl, rfl, rfl, rfl⟩
  · rw [ht, h]
    exact .inl ⟨hA.congr rfl rfl rfl rfl rfl rfl rfl, rfl, rfl, rfl, rfl, rfl⟩
  · rw [ht, h]; exact .inr ⟨rfl, rfl, rfl⟩

/-- The phases before and after a legal command (R25). -/
theorem legal_next (op : Byte) (ph : Phase) (h : legalPhase op ph = true) :
    nextPhase op ph ≠ .p0Reset ∧ (ph ≠ .p0Reset ∨ op = 5) ∧ (nextPhase op ph = .p3Mmap ↔ op = 7) ∧
    (nextPhase op ph = .p2Ready → op = 6 ∨ ph = .p2Ready) ∧ (op = 7 → ph = .p2Ready) := by
  unfold legalPhase at h
  unfold nextPhase
  cases ph <;> repeat' split at h
  all_goals simp_all
  all_goals repeat' split
  all_goals simp_all

/-- Completion of a command (R24). -/
theorem done_step (s : State) (hA : ActiveOk s) (hP : PhaseOk s) (hst : s.seq.stack = []) :
    IdleOk (commandDone s) ∧ PhaseOk (commandDone s) := by
  obtain ⟨⟨z1, z2, z3⟩, q2, q3, q4, q5, q6, q7, q8, q9, q10⟩ := hA.finished hst
  obtain ⟨n0, n1, n2, n3, n4⟩ := legal_next _ _ hA.legal
  constructor
  · refine ⟨⟨z1, z2, z3⟩, q2, ?_, ?_, ?_⟩
    · intro h; exact absurd h n0
    · intro h
      refine q3 fun h7 => ?_
      have := n2.mpr h7
      simp [commandDone, this] at h
    · intro h; exact q4 (n2.mp h)
  · constructor
    · intro _
      rcases n1 with h | h
      · exact hP.quad h
      · exact q9 h
    · intro h
      rcases h with h | h
      · rcases n3 h with h | h
        · exact q10 h
        · exact hP.addr4 (.inl h)
      · exact hP.addr4 (.inl (n4 (n2.mp h)))

end Sys2Proof.Machine
end

