-- ==== Sys2Proof/Laws/PerInstr.lean ====
section
/-! SUPPORT. The per-instruction family LegalEncoding: what the encoder gives for an instruction is a legal encoding
by the spec's own words, stated without the decoder: for a command, `legalEncoding` of spec/30_encoding.md R93; for a
chip instruction, one of the eight opcodes of R100. -/

namespace Sys2Proof.Laws.LegalEncoding

open Sys2Proof

/-- The eight chip opcodes of R100. -/
def chipOpcodes : List Byte := [0x06, 0x20, 0x12, 0x35, 0xB7, 0xEC, 0x05, 0x15]

/-- The instruction's encoding is legal. -/
def Statement (i : Instr) : Prop :=
  match encode i with
  | .command w => legalEncoding w = true
  | .bus r => r.instr ∈ chipOpcodes

theorem cmdOp_cmdWord (op : Byte) (a b : Word) (c : Byte) : cmdOp (cmdWord op a b c) = op := by
  ext i hi
  simp only [cmdOp, cmdWord, BitVec.getElem_extractLsb']
  simp only [BitVec.getLsbD_append]
  rw [if_neg (by omega), if_neg (by omega), if_neg (by omega)]
  rw [BitVec.getLsbD_eq_getElem (by omega)]
  congr 1; omega

theorem cmdA_cmdWord (op : Byte) (a b : Word) (c : Byte) : cmdA (cmdWord op a b c) = a := by
  ext i hi
  simp only [cmdA, cmdWord, BitVec.getElem_extractLsb']
  simp only [BitVec.getLsbD_append]
  rw [if_neg (by omega), if_neg (by omega), if_pos (by omega)]
  rw [BitVec.getLsbD_eq_getElem (by omega)]
  congr 1; omega

theorem cmdB_cmdWord (op : Byte) (a b : Word) (c : Byte) : cmdB (cmdWord op a b c) = b := by
  ext i hi
  simp only [cmdB, cmdWord, BitVec.getElem_extractLsb']
  simp only [BitVec.getLsbD_append]
  rw [if_neg (by omega), if_pos (by omega)]
  rw [BitVec.getLsbD_eq_getElem (by omega)]
  congr 1; omega

theorem cmdC_cmdWord (op : Byte) (a b : Word) (c : Byte) : cmdC (cmdWord op a b c) = c := by
  ext i hi
  simp only [cmdC, cmdWord, BitVec.getElem_extractLsb']
  simp only [BitVec.getLsbD_append]
  rw [if_pos (by omega)]
  rw [BitVec.getLsbD_eq_getElem (by omega)]
  congr 1; omega

/-- A byte widened to a word has nothing above bit 7. -/
theorem shifted_byte (m : Byte) : (m.setWidth 32) >>> 8 = (0 : Word) := by
  ext i hi
  simp [BitVec.getElem_ushiftRight, BitVec.getLsbD_setWidth]

theorem waitStatus (o m t : Byte) : Statement (.waitStatus o m t) := by
  show legalEncoding (cmdWord 0x01 (m.setWidth 32) (t.setWidth 32) o) = true
  simp [legalEncoding, cmdOp_cmdWord, cmdA_cmdWord, cmdB_cmdWord, shifted_byte]

/-- A word of an operandless command is legal. -/
theorem noOperands_legal (op : Byte) (h : op = 0x02 ∨ op = 0x05 ∨ op = 0x06 ∨ op = 0x07) :
    legalEncoding (cmdWord op 0 0 0) = true := by
  rcases h with rfl | rfl | rfl | rfl <;> decide

theorem writeEnable : Statement .writeEnable := noOperands_legal _ (by decide)

theorem eraseSector (i : Word) : Statement (.eraseSector i) := by
  show legalEncoding (cmdWord 0x03 i 0 0) = true
  simp [legalEncoding, cmdOp_cmdWord, cmdB_cmdWord, cmdC_cmdWord]

theorem writeWord (a d : Word) : Statement (.writeWord a d) := by
  show legalEncoding (cmdWord 0x04 a d 0) = true
  simp [legalEncoding, cmdOp_cmdWord, cmdC_cmdWord]

theorem enterQuad : Statement .enterQuad := noOperands_legal _ (by decide)

theorem enterAddr4 : Statement .enterAddr4 := noOperands_legal _ (by decide)

theorem enterMmap : Statement .enterMmap := noOperands_legal _ (by decide)

theorem chipWren : Statement .chipWren := by simp [Statement, encode, chipOpcodes, opcWren]

theorem chipSe4k (a : Word) : Statement (.chipSe4k a) := by simp [Statement, encode, chipOpcodes, opcSe]

theorem chipPp4b (a : Word) (d0 d1 d2 d3 : Byte) : Statement (.chipPp4b a d0 d1 d2 d3) := by
  simp [Statement, encode, chipOpcodes, opcPp4b]

theorem chipEqio (l : Lines) : Statement (.chipEqio l) := by simp [Statement, encode, chipOpcodes, opcEqio]

theorem chipEn4b : Statement .chipEn4b := by simp [Statement, encode, chipOpcodes, opcEn4b]

theorem chipRdsrA (l : Lines) : Statement (.chipRdsrA l) := by simp [Statement, encode, chipOpcodes, opcRead05]

theorem chipRdsrB (l : Lines) : Statement (.chipRdsrB l) := by simp [Statement, encode, chipOpcodes, opcRead15]

theorem chipQiofr (a : Word) (d : BitVec 5) (n : Nat) : Statement (.chipQiofr a d n) := by
  simp [Statement, encode, chipOpcodes, opcQread]

end Sys2Proof.Laws.LegalEncoding
end

