-- ==== Sys2Proof/Laws/Perform.lean ====
section
/-! SUPPORT. The peripheral, the chip and the host keep the control-point invariant: the request each routine's live
descriptor stands for, what performing it does to a machine in `ActiveOk`, the completion of the pending operation,
and the acceptance of a command. -/

namespace Sys2Proof.Machine

/-- The redraw of the chip after a Timeout keeps the relations between fields. -/
theorem basic_unsettle {s : State} (h : Basic s) : Basic (unsettle s) := by
  unfold unsettle
  split
  · exact { h with
      wip_pending := unknownChip_wip s
      pending_range := unknownChip_pending s h.params
      flash := loseBytes_wf _ s h.flash }
  · exact h

/-! ## The request of each routine's descriptor (spec/30 R97, R103) -/

theorem request_ws (p : Periph) (op : Byte) (h : p.pcfg = kPoll ||| op.setWidth 32) (hd : p.dlen = 0) :
    requestOf (snapshot p) = .ok ⟨.four, op, none, 0, .fromChip 1⟩ := by
  simp [requestOf, snapshot, h, requestLines, requestAddress, requestData, poll_imode, poll_admode, poll_dmode,
      poll_fmode, poll_instr, poll_dcyc, modeOne, modeFour, modeNone, fmodeWrite, fmodePoll, hd]

theorem request_we (p : Periph) (h : p.pcfg = kWren ||| opcWren.setWidth 32) :
    requestOf (snapshot p) = .ok ⟨.four, opcWren, none, 0, .none⟩ := by
  simp only [requestOf, snapshot, h, requestLines, requestAddress, requestData]; rfl
theorem request_er (p : Periph) (h : p.pcfg = kErase ||| opcSe.setWidth 32) :
    requestOf (snapshot p) = .ok ⟨.four, opcSe, some p.addr, 0, .none⟩ := by
  simp only [requestOf, snapshot, h, requestLines, requestAddress, requestData]; rfl
theorem request_pw (p : Periph) (h : p.pcfg = kProgram ||| opcPp4b.setWidth 32) (hd : p.dlen = 3) :
    requestOf (snapshot p) = .ok ⟨.four, opcPp4b, some p.addr, 0, .toChip (dataBytes p.data)⟩ := by
  simp only [requestOf, snapshot, h, requestLines, requestAddress, requestData, hd]; rfl
theorem request_eq (p : Periph) (h : p.pcfg = kQuad ||| opcEqio.setWidth 32) :
    requestOf (snapshot p) = .ok ⟨.one, opcEqio, none, 0, .none⟩ := by
  simp only [requestOf, snapshot, h, requestLines, requestAddress, requestData]; rfl
theorem request_e4 (p : Periph) (h : p.pcfg = kAddr4 ||| opcEn4b.setWidth 32) :
    requestOf (snapshot p) = .ok ⟨.four, opcEn4b, none, 0, .none⟩ := by
  simp only [requestOf, snapshot, h, requestLines, requestAddress, requestData]; rfl

theorem fmode_we : pcfgFmode (kWren ||| opcWren.setWidth 32) = 0 := by decide
theorem fmode_er : pcfgFmode (kErase ||| opcSe.setWidth 32) = 0 := by decide
theorem fmode_pw : pcfgFmode (kProgram ||| opcPp4b.setWidth 32) = 0 := by decide
theorem fmode_eq : pcfgFmode (kQuad ||| opcEqio.setWidth 32) = 1 := by decide
theorem fmode_e4 : pcfgFmode (kAddr4 ||| opcEn4b.setWidth 32) = 1 := by decide

/-- The peripheral executes the instruction its descriptor's request decodes to. -/
theorem performLive_ok {s : State} {d : Descriptor} {r : BusReq} {i : Instr} (h : requestOf d = .ok r)
    (hf : ¬ (pcfgFmode d.pcfg = fmodePoll ∧ pollShape r = false)) (hd : decodeBus r = .ok i) : performLive d s = exec i s := by
  simp [performLive, h, hf, hd]
theorem performLive_bad {s : State} {d : Descriptor} {r : BusReq} {e : DecodeError} (h : requestOf d = .ok r)
    (hf : ¬ (pcfgFmode d.pcfg = fmodePoll ∧ pollShape r = false)) (hd : decodeBus r = .error e) :
    performLive d s = .next (performUnknown e r s) := by
  simp [performLive, h, hf, hd]

theorem refuse_ne (r : Refusal) (s : State) : (refuse r s).refused ≠ none := by simp [refuse]
theorem unknown_ne (e : DecodeError) (r : BusReq) (s : State) : (performUnknown e r s).refused ≠ none := by
  unfold performUnknown; split <;> simp [refuse, finishTxn]

/-- A status poll decodes to one of the two status reads or to nothing (spec/46 R221, R224). -/
theorem decode_poll (op : Byte) :
    (op = opcRead05 ∧ decodeBus ⟨.four, op, none, 0, .fromChip 1⟩ = .ok (.chipRdsrA .four)) ∨
    (op = opcRead15 ∧ decodeBus ⟨.four, op, none, 0, .fromChip 1⟩ = .ok (.chipRdsrB .four)) ∨
    ∃ e, decodeBus ⟨.four, op, none, 0, .fromChip 1⟩ = .error e := by
  by_cases h1 : op = opcRead05
  · subst h1; exact .inl ⟨rfl, rfl⟩
  by_cases h2 : op = opcRead15
  · subst h2; exact .inr (.inl ⟨rfl, rfl⟩)
  refine .inr (.inr ?_)
  unfold decodeBus
  simp only [h1, h2, if_false]
  repeat' split
  all_goals first | exact ⟨_, rfl⟩ | simp_all [instructionOnly]

/-- The opcode of a status register reads that register (spec/10 R29). -/
@[simp] theorem statusReg_statusOpcode (p : Params) (r : StatusReg) : p.statusReg (p.statusOpcode r) = r := by
  unfold Params.statusReg Params.statusOpcode
  cases p.reads05 <;> cases r <;> decide

/-- A poll of register A that sees WIP clear sees it clear in the chip (spec/10 R29). -/
theorem status_wip (p : Params) (hp : p.wf = true) (c : Chip) (fr : Byte)
    (h : statusMatches (statusByte p .a c fr) p.wipMask 0 = true) : c.wip = false := by
  cases hw : c.wip
  · rfl
  · exfalso
    have hm : p.wipMask ≠ 0 := by
      simp only [Params.wf, Bool.and_eq_true, oneBit] at hp
      have := hp.1.1.1.1.1.1.1.2.1
      simpa using this
    apply hm
    simp only [statusMatches, beq_iff_eq, statusByte, flagBits, hw, onFlag, if_true] at h
    ext i hi
    have := congrArg (fun x => x.getLsbD i) h
    simp only [BitVec.getLsbD_and, BitVec.getLsbD_or, BitVec.getLsbD_zero, BitVec.ofNat_eq_ofNat] at this
    rw [← BitVec.getLsbD_eq_getElem hi]
    cases hq : p.wipMask.getLsbD i <;> simp_all

/-- A reaction that leaves the mark clear is the effect on a chip that listens and is idle. -/
theorem react_unmarked {l : Lines} {eff : State → State} {s : State} (h : (chipReact l eff s).refused = none) :
    lineOk l s.c = true ∧ s.c.wip = false ∧ chipReact l eff s = eff s := by
  rcases chipReact_cases l eff s with ⟨r, hr⟩ | hr
  · rw [hr] at h; exact absurd h (refuse_ne _ _)
  · exact hr

/-- What a performed transaction keeps. -/
structure PerfRes (s t : State) : Prop where
  act : ActiveOk t
  seq : t.seq = s.seq
  apms : t.p.apms = s.p.apms
  params : t.params = s.params
  quad : s.c.quad = true → t.c.quad = true
  addr4 : s.c.addr4 = true → t.c.addr4 = true

/-- A poll of WS (spec/46 R209, R210). -/
theorem perf_ws (o m' t' : Byte) (rest : List Frame) (s t : State) (hB : Basic s) (hA : ActiveOk s)
    (hst : s.seq.stack = ⟨.ws o m' t', 9⟩ :: rest) (hl : s.p.live = some (snapshot s.p))
    (h : performLive (snapshot s.p) s = .next t) (hr : t.refused = none) : PerfRes s t := by
  have hT := hA.top _ _ hst
  have hC := hA.chip _ (by rw [hst]; exact List.mem_cons_self)
  have hs := hA.stack; rw [hst] at hs
  obtain ⟨_, E, D, P, O, Lv, S, L, St⟩ := hT
  simp only [Routine.pcfgAt, Routine.dlenAt, Routine.operandsAt] at P D O
  have P' : s.p.pcfg = kPoll ||| o.setWidth 32 := P _ (by simp)
  have S' : s.p.smf = false := by
    cases h : s.p.smf
    · rfl
    · have := (S h).2.2; rw [hl] at this; cases this
  obtain ⟨O1, O2, O3, O4⟩ := O
  have O1 := O1 (by decide); have O2 := O2 (by decide); have O4 := O4 (by decide)
  have hq := request_ws s.p o P' D
  have hf : ¬ (pcfgFmode (snapshot s.p).pcfg = fmodePoll ∧ pollShape ⟨.four, o, none, 0, .fromChip 1⟩ = false) := by
    simp [pollShape]
  have main : t = poll .four o s → PerfRes s t := by
    intro ht
    subst ht
    cases hlo : lineOk .four s.c
    · rw [poll_refused _ _ _ hlo] at hr; exact absurd hr (refuse_ne _ _)
    rw [poll_ok _ _ _ hlo]
    generalize hb : statusByte s.params (s.params.statusReg o) s.c (Config.freeStatus s.draws) = b
    rcases pollCompare_cases b s.p with hcmp | ⟨d, hd, hm, hcmp⟩
    · rw [hcmp]
      refine ⟨?_, rfl, rfl, rfl, id, id⟩
      constructor
      · exact hA.legal
      · exact hA.stack
      · intro f r' hfr
        have := hA.top f r' hfr
        obtain ⟨q1, q2, q3, q4, q5, q6, q7, q8, q9, _⟩ := this
        refine ⟨q1, q2, q3, q4, ?_, q6, q7, q8, q9, ?_⟩
        · cases hR : f.routine <;> rw [hR] at q5 <;> exact q5
        · replace hfr : s.seq.stack = f :: r' := hfr
          rw [hst] at hfr
          cases hfr
          intro op hop
          cases hop
      · intro g hg
        rw [show s.seq.stack = _ from hst] at hg
        rcases List.mem_cons.mp hg with rfl | hg
        · simp [chipOk, performed, Routine.armedStep, hl]
        · exact chipOk_caller (hA.chip g (by rw [hst]; simp [hg])) (callers_not_ws hs g hg) Iff.rfl rfl rfl rfl
      · intro g hg; exact kept_congr (hA.kept g hg) rfl rfl rfl
      · exact hA.calm
      · intro h; simp [hst] at h
    · rw [hl] at hd
      simp only [Option.some.injEq] at hd
      subst hd
      simp only [snapshot, O1, O2] at hm
      have hm : statusMatches b m' t' = true := by simpa using hm
      rcases hcmp with ⟨_, hcmp⟩ | ⟨hno, _⟩
      swap
      · rw [O4] at hno; cases hno
      rw [hcmp]
      refine ⟨?_, rfl, rfl, rfl, id, id⟩
      constructor
      · exact hA.legal
      · exact hA.stack
      · intro f r' hfr
        rw [show s.seq.stack = _ from hst] at hfr
        simp only [List.cons.injEq] at hfr
        obtain ⟨rfl, _⟩ := hfr
        constructor
        · simp [routineSteps, wsSteps]
        · exact E
        · exact D
        · exact P
        · exact ⟨fun _ => O1, fun _ => O2, O3, fun _ => O4⟩
        · exact .inl rfl
        · intro _; exact ⟨⟨_, _, _, rfl⟩, .inl rfl, rfl⟩
        · intro h; simp at h
        · intro h; simp at h
        · intro op hop; cases hop
      · intro g hg
        rw [show s.seq.stack = _ from hst] at hg
        rcases List.mem_cons.mp hg with rfl | hg
        · intro _
          refine ⟨⟨b, by simp [pollRecord], hm⟩, ?_⟩
          intro h1 h2 h3
          replace h1 : o = s.params.opcRdsrA := h1
          rw [h2, h3, ← hb, h1, Params.opcRdsrA, statusReg_statusOpcode] at hm
          exact status_wip _ hB.params _ _ hm
        · exact chipOk_caller (hA.chip g (by rw [hst]; simp [hg])) (callers_not_ws hs g hg) (performed_unarmed (caller_unarmed hs g hg)) rfl rfl rfl
      · intro g hg; exact kept_congr (hA.kept g hg) rfl rfl rfl
      · exact hA.calm
      · intro h; simp [hst] at h
  rcases decode_poll o with ⟨ho, hd⟩ | ⟨ho, hd⟩ | ⟨e, hd⟩
  · rw [performLive_ok hq hf hd] at h
    subst ho
    exact main (by simpa [exec, execChipRdsrA] using h.symm)
  · rw [performLive_ok hq hf hd] at h
    subst ho
    exact main (by simpa [exec, execChipRdsrB] using h.symm)
  · rw [performLive_bad hq hf hd] at h
    simp only [Host.Outcome.next.injEq] at h
    rw [← h] at hr; exact absurd hr (unknown_ne _ _ _)

/-- A non-polling transaction whose reaction changes the chip alone (spec/46 R208). -/
theorem perf_txn (tx : BusTxn) (c' : Chip) (f : Frame) (rest : List Frame) (s : State) (hB : Basic s) (hA : ActiveOk s)
    (hst : s.seq.stack = f :: rest) (hl : s.p.live = some (snapshot s.p)) (hf : f.step = f.routine.armedStep)
    (hws : ∀ o m t, f.routine ≠ .ws o m t)
    (hq : s.c.quad = true → c'.quad = true) (ha : s.c.addr4 = true → c'.addr4 = true)
    (hC : chipOk f (finishTxn tx { s with c := c' })) (hR : ∀ g ∈ rest, chipOk g (finishTxn tx { s with c := c' }))
    (hcalm : s.seq.x.op ≠ 0x03 → s.seq.x.op ≠ 0x04 → c'.wip = false) :
    PerfRes s (finishTxn tx { s with c := c' }) := by
  have hT := hA.top _ _ hst
  obtain ⟨q1, q2, q3, q4, q5, q6, q7, q8, q9, _⟩ := hT
  have S' : s.p.smf = false := by
    cases h : s.p.smf
    · rfl
    · have := (q7 h).2.2; rw [hl] at this; cases this
  refine ⟨?_, rfl, rfl, rfl, hq, ha⟩
  constructor
  · exact hA.legal
  · exact hA.stack
  · intro g r hg
    replace hg : s.seq.stack = g :: r := hg
    rw [hst] at hg
    simp only [List.cons.injEq] at hg
    obtain ⟨rfl, _⟩ := hg
    refine ⟨q1, q2, q3, q4, ?_, .inl rfl, ?_, ?_, ?_, ?_⟩
    · cases hr : f.routine <;> rw [hr] at q5 <;> exact q5
    · intro h; have : s.p.smf = true := h; rw [S'] at this; cases this
    · intro _ _ hn; exact absurd (.inr ⟨hf, rfl⟩) hn
    · intro h
      rcases h with ⟨h, h2⟩ | ⟨h, h2⟩ <;> rw [h, h2] at hf <;> simp [Routine.armedStep] at hf
    · intro op hop
      rw [hf] at hop
      cases hr : f.routine <;> rw [hr] at hop <;> cases hop
  · intro g hg
    replace hg : g ∈ s.seq.stack := hg
    rw [hst] at hg
    rcases List.mem_cons.mp hg with rfl | hg
    · exact hC
    · exact hR g hg
  · intro g hg; exact kept_congr (hA.kept g hg) rfl rfl rfl
  · exact hcalm
  · intro h
    replace h : s.seq.stack = [] := h
    rw [hst] at h; cases h

/-- An erase address is a multiple of 4096 (spec/20 R62). -/
theorem erase_aligned (i : Word) :
    eraseAddress i - BitVec.ofNat 32 ((eraseAddress i).toNat % sectorSize) = eraseAddress i := by
  have : (eraseAddress i).toNat % sectorSize = 0 := by
    simp only [eraseAddress, sectorSize, BitVec.toNat_mul, show (4096 : Word).toNat = 4096 from rfl]
    omega
  rw [this]; simp

theorem finish_refused (tx : BusTxn) (u : State) : (finishTxn tx u).refused = u.refused := rfl

theorem op_of_bottom {p : Params} {x : Latches} {f : Frame} (h : stackOk p x [f]) :
    (f.routine = .er → x.op = 3) ∧ (f.routine = .pw → x.op = 4) := by
  simp only [stackOk] at h
  have := routineOf_op x
  rw [← h] at this
  exact ⟨fun e => this.2.2.1 (by rw [e]), fun e => this.2.2.2.1 (by rw [e])⟩

/-- The transaction of WE, ER, PW, EQ or E4. -/
theorem perf_nonpoll (f : Frame) (rest : List Frame) (s t : State) (hB : Basic s) (hA : ActiveOk s)
    (hst : s.seq.stack = f :: rest) (hl : s.p.live = some (snapshot s.p)) (hf : f.step = f.routine.armedStep)
    (hws : ∀ o m t, f.routine ≠ .ws o m t)
    (h : performLive (snapshot s.p) s = .next t) (hr : t.refused = none) : PerfRes s t := by
  have hT := hA.top _ _ hst
  have hC := hA.chip f (by rw [hst]; simp)
  have hK := hA.kept f (by rw [hst]; simp)
  have hs := hA.stack; rw [hst] at hs
  obtain ⟨fr, k⟩ := f
  simp only at hf; subst hf
  have hT' := hT
  obtain ⟨_, E, D, P, O, Lv, S, L, St⟩ := hT'
  cases fr
  case ws o m t' => exact absurd rfl (hws _ _ _)
  case mm =>
    have := hT.bound
    simp [Routine.armedStep, routineSteps, mmSteps] at this
  case we =>
    have P' : s.p.pcfg = kWren ||| opcWren.setWidth 32 := P _ (by simp [Routine.pcfgAt, Routine.armedStep])
    rw [performLive_ok (request_we s.p P') (by simp only [snapshot, P', fmode_we]; simp [fmodePoll]) rfl] at h
    simp only [exec, execChipWren, Host.Outcome.next.injEq] at h
    subst h
    obtain ⟨r1, r2, r3⟩ := react_unmarked (by simpa [performTxn, finish_refused] using hr)
    simp only [performTxn, r3]
    refine perf_txn _ { s.c with wel := true } _ _ s hB hA hst hl rfl hws id id ?_ ?_ ?_
    · exact ⟨r2, fun _ => rfl⟩
    · intro g hg
      cases rest with
      | nil => cases hg
      | cons g' r =>
        obtain ⟨h1, h2, h3⟩ := hs
        have hci := call_index _ _ _ _ _ h2
        have hb := bottom h3
        obtain ⟨gr, j⟩ := g'
        simp [wsLatch, wsIdle] at hci
        have hj : j = 1 := by simp only at h1; omega
        rcases hci with ⟨rfl, _⟩ | ⟨rfl, _⟩
        · rw [hb (by simp)] at hg; simp only [List.mem_cons, List.not_mem_nil, or_false] at hg; subst hg; subst hj
          simp [chipOk, performed, Routine.armedStep, finishTxn, r2]
        · rw [hb (by simp)] at hg; simp only [List.mem_cons, List.not_mem_nil, or_false] at hg; subst hg; subst hj
          simp [chipOk, performed, Routine.armedStep, finishTxn, r2]
    · intro _ _; exact r2
  case er =>
    have P' : s.p.pcfg = kErase ||| opcSe.setWidth 32 := P _ (by simp [Routine.pcfgAt, Routine.armedStep])
    have hb := bottom hs (by simp)
    subst hb
    have hop := (op_of_bottom hs).1 rfl
    have K : s.p.addr = eraseAddress s.seq.x.a := hK (by simp [Routine.armedStep])
    rw [performLive_ok (request_er s.p P') (by simp only [snapshot, P', fmode_er]; simp [fmodePoll]) rfl] at h
    simp only [exec, execChipSe4k, Host.Outcome.next.injEq] at h
    subst h
    obtain ⟨r1, r2, r3⟩ := react_unmarked (by simpa [performTxn, finish_refused] using hr)
    simp only [performTxn, r3] at hr ⊢
    unfold acceptErase at hr ⊢
    split at hr
    · exact absurd hr (by simp [finishTxn, refuse])
    split at hr
    · exact absurd hr (by simp [finishTxn, refuse])
    rename_i n1 n2
    rw [if_neg n1, if_neg n2]
    refine perf_txn _ { s.c with pending := some (.erase (s.p.addr - BitVec.ofNat 32 (s.p.addr.toNat % sectorSize))), wip := true } _ _ s hB hA hst hl rfl hws id id ?_ (by simp) ?_
    · constructor
      · intro hn; exact absurd (.inr ⟨rfl, rfl⟩) hn
      · intro _; left
        simp only [finishTxn, K, erase_aligned]
    · intro h3 _; exact absurd hop h3
  case pw =>
    have P' : s.p.pcfg = kProgram ||| opcPp4b.setWidth 32 := P _ (by simp [Routine.pcfgAt, Routine.armedStep])
    have D' : s.p.dlen = 3 := by simpa [Routine.dlenAt, Routine.armedStep] using D
    have hb := bottom hs (by simp)
    subst hb
    have hop := (op_of_bottom hs).2 rfl
    have K1 : s.p.addr = s.seq.x.a := hK.1 (by simp [Routine.armedStep])
    have K2 : s.p.data = s.seq.x.b := hK.2 (by simp [Routine.armedStep])
    rw [performLive_ok (request_pw s.p P' D') (by simp only [snapshot, P', fmode_pw]; simp [fmodePoll]) rfl] at h
    simp only [exec, execChipPp4b, Host.Outcome.next.injEq] at h
    subst h
    obtain ⟨r1, r2, r3⟩ := react_unmarked (by simpa [performTxn, finish_refused] using hr)
    simp only [performTxn, r3] at hr ⊢
    unfold acceptProgram at hr ⊢
    split at hr
    · exact absurd hr (by simp [finishTxn, refuse])
    split at hr
    · exact absurd hr (by simp [finishTxn, refuse])
    split at hr
    · exact absurd hr (by simp [finishTxn, refuse])
    rename_i n1 n2 n3
    rw [if_neg n1, if_neg n2, if_neg n3]
    refine perf_txn _ { s.c with pending := some (.program s.p.addr (wordByte s.p.data 0) (wordByte s.p.data 1) (wordByte s.p.data 2) (wordByte s.p.data 3)), wip := true } _ _ s hB hA hst hl rfl hws id id ?_ (by simp) ?_
    · constructor
      · intro hn; exact absurd (.inr ⟨rfl, rfl⟩) hn
      · intro _; left
        simp only [finishTxn, K1, K2]
    · intro _ h3; exact absurd hop h3
  case eq =>
    have P' : s.p.pcfg = kQuad ||| opcEqio.setWidth 32 := P _ (by simp [Routine.pcfgAt, Routine.armedStep])
    have hb := bottom hs (by simp)
    subst hb
    rw [performLive_ok (request_eq s.p P') (by simp only [snapshot, P', fmode_eq]; simp [fmodePoll]) rfl] at h
    simp only [exec, execChipEqio, Host.Outcome.next.injEq] at h
    subst h
    obtain ⟨r1, r2, r3⟩ := react_unmarked (by simpa [performTxn, finish_refused] using hr)
    simp only [performTxn, r3]
    obtain ⟨c1, c2, c3⟩ := hC
    refine perf_txn _ { s.c with quad := true } _ _ s hB hA hst hl rfl hws (fun _ => rfl) id ?_ (by simp) ?_
    · refine ⟨r2, ?_, c3⟩
      simp [performed, finishTxn]
    · intro _ _; exact r2
  case e4 =>
    have P' : s.p.pcfg = kAddr4 ||| opcEn4b.setWidth 32 := P _ (by simp [Routine.pcfgAt, Routine.armedStep])
    have hb := bottom hs (by simp)
    subst hb
    rw [performLive_ok (request_e4 s.p P') (by simp only [snapshot, P', fmode_e4]; simp [fmodePoll]) rfl] at h
    simp only [exec, execChipEn4b, Host.Outcome.next.injEq] at h
    subst h
    obtain ⟨r1, r2, r3⟩ := react_unmarked (by simpa [performTxn, finish_refused] using hr)
    simp only [performTxn, r3]
    refine perf_txn _ { s.c with addr4 := true } _ _ s hB hA hst hl rfl hws id (fun _ => rfl) ?_ (by simp) ?_
    · exact ⟨r2, fun _ => rfl⟩
    · intro _ _; exact r2

/-- Whatever transaction is live while a command executes. -/
theorem perf_active (s t : State) (d : Descriptor) (hB : Basic s) (hA : ActiveOk s)
    (hd : s.p.live = some d) (h : performLive d s = .next t) (hr : t.refused = none) : PerfRes s t := by
  rcases hst : s.seq.stack with _ | ⟨f, rest⟩
  · have := (hA.finished hst).quiet.live; rw [hd] at this; cases this
  have hT := hA.top _ _ hst
  rcases hT.live with hl | ⟨hf, hl⟩
  · rw [hd] at hl; cases hl
  have hdd : d = snapshot s.p := by rw [hd] at hl; exact Option.some.inj hl
  subst hdd
  by_cases hw : ∃ o m t, f.routine = .ws o m t
  · obtain ⟨o, m, t', hw⟩ := hw
    obtain ⟨fr, k⟩ := f
    simp only at hw hf; subst hw; subst hf
    exact perf_ws o m t' rest s t hB hA hst hl h hr
  · exact perf_nonpoll f rest s t hB hA hst hl hf (by push Not at hw; exact hw) h hr

/-- A byte of an erased sector (spec/46 R222). -/
theorem apply_erase_read (p : Params) (b : Word) (m : Memory) (j : Nat) (hj : j < sectorSize) :
    Memory.read p.launchByte ((PendingOp.erase b).apply p m) (b.toNat + j) = p.erasedByte := by
  simp only [PendingOp.apply, Memory.read_setRun]
  rw [if_pos (by omega)]

/-- A programmed byte holds no bit its data lacks. -/
theorem apply_program_read (p : Params) (a d : Word) (m : Memory) (k : Nat) (hk : k < 4) :
    Memory.read p.launchByte ((PendingOp.program a (wordByte d 0) (wordByte d 1) (wordByte d 2) (wordByte d 3)).apply p m) (a.toNat + k)
      &&& ~~~ wordByte d k = 0 := by
  simp only [PendingOp.apply, Memory.read_setRun]
  rw [if_pos (by omega)]
  have : [wordByte d 0, wordByte d 1, wordByte d 2, wordByte d 3].getD (a.toNat + k - a.toNat) 0 = wordByte d k := by
    rw [Nat.add_sub_cancel_left]
    interval_cases k <;> rfl
  rw [this, BitVec.and_assoc]
  ext i hi
  simp

/-- The chip completes the pending operation while a command executes. -/
theorem complete_active (s : State) (op : PendingOp) (hB : Basic s) (hA : ActiveOk s) (hw : s.c.wip = true)
    (hp : s.c.pending = some op) :
    ActiveOk (completed op s) := by
  have hchip : ∀ f ∈ s.seq.stack, chipOk f (completed op s) := by
    intro f hf
    have hC := hA.chip f hf
    have hpf : ∀ u : State, u.p = s.p → (performed f u ↔ performed f s) := by intro u h; simp [performed, h]
    obtain ⟨fr, k⟩ := f
    cases fr <;> simp only [chipOk] at hC ⊢
    case ws o m t =>
      intro h
      exact ⟨(hC h).1, fun _ _ _ => rfl⟩
    all_goals try (exfalso; simp [hw] at hC; done)
    case er =>
      refine ⟨fun _ => rfl, fun h => ?_⟩
      rcases hC.2 h with he | ⟨he, _⟩
      · rw [hp] at he; simp only [Option.some.injEq] at he; subst he
        exact .inr ⟨rfl, rfl, fun j hj => apply_erase_read _ _ _ _ hj⟩
      · rw [hp] at he; cases he
    case pw =>
      refine ⟨fun _ => rfl, fun h => ?_⟩
      rcases hC.2 h with he | ⟨he, _⟩
      · rw [hp] at he; simp only [Option.some.injEq] at he; subst he
        exact .inr ⟨rfl, rfl, fun j hj => apply_program_read _ _ _ _ _ hj⟩
      · rw [hp] at he; cases he
  constructor
  · exact hA.legal
  · exact hA.stack
  · intro f r hfr
    obtain ⟨q1, q2, q3, q4, q5, q6, q7, q8, q9, q10⟩ := hA.top f r hfr
    have hC := hA.chip f (by replace hfr : s.seq.stack = f :: r := hfr; rw [hfr]; simp)
    refine ⟨q1, q2, q3, q4, ?_, q6, q7, ?_, fun _ => rfl, q10⟩
    · cases hR : f.routine <;> rw [hR] at q5 <;> exact q5
    · intro h1 h2 h3
      exfalso
      replace h3 : ¬ performed f s := h3
      rcases h1 with h1 | h1 <;> simp only [chipOk, h1] at hC <;> have := hC.1 h3 <;> rw [hw] at this <;> cases this
  · exact hchip
  · intro f hf; exact kept_congr (hA.kept f hf) rfl rfl rfl
  · intro _ _; rfl
  · intro h
    have := (hA.finished h).wip
    rw [hw] at this; cases this

/-- The state an accepted command starts in. -/
theorem accept_active (x : Latches) (r : Routine) (s : State) (hB : Basic s) (hP : PhaseOk s) (hI : IdleOk s)
    (hx : routineOf x = some r) (hleg : legalPhase x.op s.seq.phase = true) :
    ActiveOk { s with seq := { s.seq with x := x, active := true, spincnt := 0, stack := [startFrame r] } } := by
  have hen : s.p.en = false := by
    cases h : s.seq.phase
    · exact (hI.p0 h).1
    · exact (hI.indirect (.inl h)).1
    · exact (hI.indirect (.inr h)).1
    · rw [h, p3_illegal] at hleg; cases hleg
  obtain ⟨l1, l2, l3⟩ := hI.quiet
  have hw := hI.wip
  have hO := routineOf_op x
  rw [hx] at hO
  constructor
  · exact hleg
  · simp [stackOk, startFrame, hx]
  · intro f rest hf
    simp only [List.cons.injEq] at hf
    obtain ⟨rfl, _⟩ := hf
    cases r <;> constructor <;> simp [startFrame, routineSteps, wsSteps, weSteps, erSteps, pwSteps, eqSteps,
        e4Steps, mmSteps, Routine.enAt, Routine.dlenAt, Routine.pcfgAt, Routine.operandsAt, Routine.waitedOn, hen, l1,
        l2, l3]
  · intro f hf
    simp only [List.mem_cons, List.not_mem_nil, or_false] at hf
    subst hf
    cases r <;> simp [chipOk, startFrame, performed, Routine.armedStep, hw]
    have : x.op = 5 := hO.2.2.2.2.1 rfl
    have hp0 : s.seq.phase = .p0Reset := by
      rw [this] at hleg
      cases h : s.seq.phase <;> rw [h] at hleg <;> simp [legalPhase] at hleg ⊢
    have := hI.p0 hp0
    simp [this]
  · intro f hf
    simp only [List.mem_cons, List.not_mem_nil, or_false] at hf
    subst hf
    cases r <;> simp [startFrame, Routine.keptAt]
  · intro _ _; exact hw
  · intro h; cases h

/-- What `PhaseOk` reads. -/
theorem PhaseOk.congr {s t : State} (h : PhaseOk s) (h1 : t.seq.phase = s.seq.phase) (h2 : s.p.apms = true → t.p.apms = true)
    (h3 : s.c.quad = true → t.c.quad = true) (h4 : s.c.addr4 = true → t.c.addr4 = true) : PhaseOk t :=
  ⟨fun hh => by rw [h1] at hh; exact ⟨h3 (h.quad hh).1, h2 (h.quad hh).2⟩,
      fun hh => by rw [h1] at hh; exact h4 (h.addr4 hh)⟩

/-- What `IdleOk` reads: the history before `P3_MMAP` only, the latches of an unfaulted machine only. -/
theorem IdleOk.congr {s t : State} (h : IdleOk s) (h1 : t.params = s.params) (h2 : t.seq.phase = s.seq.phase)
    (h3 : t.p = s.p) (h4 : t.c = s.c) (h5 : t.seq.spincnt = s.seq.spincnt)
    (h6 : s.seq.phase ≠ .p3Mmap → t.bus = s.bus)
    (h7 : t.seq.fault = false → t.seq.x = s.seq.x ∧ s.seq.fault = false) : IdleOk t := by
  obtain ⟨⟨a, b, c⟩, d, e, f, g⟩ := h
  refine ⟨⟨by rw [h3]; exact a, by rw [h3]; exact b, by rw [h3]; exact c⟩, by rw [h4]; exact d, ?_, ?_, ?_⟩
  · intro hp
    rw [h2] at hp
    obtain ⟨e1, e2, e3, e4, e5, e6, e7, e8, e9, e10, e11, e12, e13, e14⟩ := e hp
    rw [h3, h4, h5, h6 (by rw [hp]; decide)]
    exact ⟨e1, e2, e3, e4, e5, e6, e7, e8, e9, e10, e11, e12, e13, fun hf => by rw [(h7 hf).1]; exact e14 (h7 hf).2⟩
  · intro hp
    rw [h2] at hp
    simp only [pollConfigured, lastPolled, h3]
    rw [h6 (by rcases hp with hp | hp <;> rw [hp] <;> decide)]
    exact f hp
  · rw [h2, h1, h3]; exact g

end Sys2Proof.Machine
end

