-- ==== Sys2Proof/Tests/Slice0.lean ====
section
/-! SUPPORT. The model's own tests: words and vectors of spec/95_test_vectors.md, and for each statement of
Certificates/Slice0/Obligations.lean with hypotheses a witness that meets them. -/

namespace Sys2Proof.Tests

open Sys2Proof Sys2Proof.Machine

/-! ## Words -/

/-- V10 to V13 (spec/95_test_vectors.md). -/
theorem test_decode_commands :
    decodeCommand 0x01_00000001_00000000_05 = .ok (.waitStatus 0x05 0x01 0x00) ∧
    decodeCommand 0x01_00000020_00000020_15 = .ok (.waitStatus 0x15 0x20 0x20) ∧
    decodeCommand 0x02_00000000_00000000_00 = .ok .writeEnable ∧
    decodeCommand 0x03_00003FFF_00000000_00 = .ok (.eraseSector 0x3FFF) ∧
    decodeCommand 0x04_00000000_01234567_00 = .ok (.writeWord 0 0x01234567) ∧
    decodeCommand 0x05_00000000_00000000_00 = .ok .enterQuad ∧
    decodeCommand 0x06_00000000_00000000_00 = .ok .enterAddr4 ∧
    decodeCommand 0x07_00000000_00000000_00 = .ok .enterMmap := by decide

/-- V21 to V28: words that are no legal encoding. -/
theorem test_decode_illegal :
    decodeCommand 0x00_00000000_00000000_00 = .error .unknownOp ∧
    decodeCommand 0x08_00000000_00000000_00 = .error .unknownOp ∧
    decodeCommand 0xFF_FFFFFFFF_FFFFFFFF_FF = .error .unknownOp ∧
    decodeCommand 0x02_00000001_00000000_00 = .error .nonzeroUnused ∧
    decodeCommand 0x01_00000100_00000000_05 = .error .nonzeroUnused ∧
    decodeCommand 0x03_00000000_00000001_00 = .error .nonzeroUnused ∧
    decodeCommand 0x04_00000000_00000000_01 = .error .nonzeroUnused ∧
    decodeCommand 0x07_00000000_00000000_01 = .error .nonzeroUnused := by decide

/-- The eight requests of R97 and R103. -/
theorem test_decode_requests :
    decodeBus ⟨.four, 0x06, none, 0, .none⟩ = .ok .chipWren ∧
    decodeBus ⟨.four, 0x20, some 0x3FFF000, 0, .none⟩ = .ok (.chipSe4k 0x3FFF000) ∧
    decodeBus ⟨.four, 0x12, some 0x1000, 0, .toChip [0x78, 0x56, 0x34, 0x12]⟩ =
      .ok (.chipPp4b 0x1000 0x78 0x56 0x34 0x12) ∧
    decodeBus ⟨.one, 0x35, none, 0, .none⟩ = .ok (.chipEqio .one) ∧
    decodeBus ⟨.four, 0xB7, none, 0, .none⟩ = .ok .chipEn4b ∧
    decodeBus ⟨.four, 0x05, none, 0, .fromChip 1⟩ = .ok (.chipRdsrA .four) ∧
    decodeBus ⟨.four, 0x15, none, 0, .fromChip 1⟩ = .ok (.chipRdsrB .four) ∧
    decodeBus ⟨.four, 0xEC, some 0xFFC, 6, .fromChip 4⟩ = .ok (.chipQiofr 0xFFC 6 4) := by decide

/-- Requests of no defined shape, and an opcode outside the eight (R224, V87). -/
theorem test_decode_undefined :
    decodeBus ⟨.one, 0x06, none, 0, .none⟩ = .error .undefinedShape ∧
    decodeBus ⟨.four, 0x20, none, 0, .none⟩ = .error .undefinedShape ∧
    decodeBus ⟨.four, 0x12, some 0, 0, .toChip [1, 2]⟩ = .error .undefinedShape ∧
    decodeBus ⟨.four, 0xEC, some 0, 6, .fromChip 3⟩ = .error .undefinedShape ∧
    decodeBus ⟨.four, 0x9F, none, 0, .fromChip 1⟩ = .error .unknownOpcode := by decide

/-- A term each check of WellFormed refuses, and its neighbours that pass (R63, R64). -/
theorem test_wellformed_smoke :
    (Instr.chipQiofr 0 6 3).wellFormed = false ∧ (Instr.chipQiofr 0 6 0).wellFormed = false ∧
    (Instr.chipQiofr 0 6 4).wellFormed = true ∧ (Instr.writeWord 0xFFFFFFFF 0).wellFormed = true := by decide

/-- Every row of the opcode table is read from its table word. -/
theorem test_table_words :
    decodeTableWord 80 (0x01 * 2 ^ 72) = some (.waitStatus 0 0 0) ∧
    decodeTableWord 80 (0x07 * 2 ^ 72) = some .enterMmap ∧
    decodeTableWord 8 0x06 = some .chipWren ∧ decodeTableWord 8 0x20 = some (.chipSe4k 0) ∧
    decodeTableWord 8 0x12 = some (.chipPp4b 0 0 0 0 0) ∧ decodeTableWord 8 0x35 = some (.chipEqio .one) ∧
    decodeTableWord 8 0xB7 = some .chipEn4b ∧ decodeTableWord 8 0x05 = some (.chipRdsrA .four) ∧
    decodeTableWord 8 0x15 = some (.chipRdsrB .four) ∧ decodeTableWord 8 0xEC = some (.chipQiofr 0 0 1) ∧
    decodeTableWord 8 0x9F = none := by decide

/-! ## Vectors -/

/-- V40 to V50: the words the routines compose. -/
theorem test_descriptor_words :
    kPoll ||| 0x05 = 0x0B000305 ∧ kWren ||| 0x06 = 0x00000306 ∧ kErase ||| 0x20 = 0x00003F20 ∧
    kProgram ||| 0x12 = 0x03003F12 ∧ kQuad ||| 0x35 = 0x04000135 ∧ kAddr4 ||| 0xB7 = 0x040003B7 ∧
    kMapped Params.default = 0x03183FEC ∧ kMapped Params.default ||| kMappedMode = 0x0F183FEC ∧
    kMapped { Params.default with dummyCycles := 10 } = 0x03283FEC ∧
    kMapped { Params.default with dummyCycles := 31 } ||| kMappedMode = 0x0F7C3FEC := by decide

/-- A peripheral with the given enable and `P.PCFG`, idle. -/
def periph (en : Bool) (pcfg : Word) : Periph := { Periph.reset with en := en, pcfg := pcfg }

/-- V55 to V63: which writes arm. -/
theorem test_arming :
    arms .pcfg (periph true 0x0B000305) = true ∧ arms .pcfg (periph false 0x0B000305) = false ∧
    arms .pcfg (periph true 0x00000306) = true ∧ arms .pcfg (periph true 0x00003F20) = false ∧
    arms .addr (periph true 0x00003F20) = true ∧ arms .pcfg (periph true 0x03003F12) = false ∧
    arms .addr (periph true 0x03003F12) = false ∧ arms .data (periph true 0x03003F12) = true ∧
    arms .pcfg (periph true 0x0F183FEC) = false := by decide

/-- V70 to V80: the match condition. -/
theorem test_match :
    statusMatches 0x42 0x03 0x02 = true ∧ statusMatches 0x43 0x03 0x02 = false ∧
    statusMatches 0x40 0x03 0x02 = false ∧ statusMatches 0x40 0x01 0x00 = true ∧
    statusMatches 0x43 0x01 0x00 = false ∧ statusMatches 0x00 0x40 0x40 = false ∧
    statusMatches 0xFF 0x00 0x00 = true ∧ statusMatches 0xBD 0x03 0x01 = true := by decide

/-- V33 to V37: the address of a sector wraps modulo 2^32. -/
theorem test_erase_address :
    eraseAddress 0x3FFF = 0x03FFF000 ∧ eraseAddress 0x4000 = 0x04000000 ∧ eraseAddress 0xFFFFF = 0xFFFFF000 ∧
    eraseAddress 0x100000 = 0 ∧ eraseAddress 0xFFFFFFFF = 0xFFFFF000 := by decide

/-- V102: the AND law over FF 0F F0 00. -/
theorem test_program_ands :
    let m : Memory := [(0x1000, 0xFF), (0x1001, 0x0F), (0x1002, 0xF0), (0x1003, 0x00)]
    let m' := (PendingOp.program 0x1000 0x78 0x56 0x34 0x12).apply Params.default m
    Memory.readBytes 0xA5 m' 0x1000 4 = [0x78, 0x06, 0x30, 0x00] ∧ Memory.wf Params.default m' = true := by decide

/-- V126: bytes 23 01 EF CD read as 0xCDEF0123. -/
theorem test_little_endian : littleEndian [0x23, 0x01, 0xEF, 0xCD] = 0xCDEF0123 := by decide

/-! ## Small states -/

/-- The parameters of the tests: the defaults over an erased chip. -/
def params : Params := { Params.default with launchByte := 0xFF }

/-- No command executes, in the given phase (R227). -/
def idle (ph : Phase) : State :=
  { State.reset with
    params := params
    seq := { Seq.reset with phase := ph }
    bus := if ph = .p0Reset then [] else [pollRecord 0x05 0x40]
    p := match ph with
      | .p0Reset => Periph.reset
      | .p1Quad | .p2Ready => { periph false 0x0B000305 with apms := true }
      | .p3Mmap => { periph true 0x0F183FEC with apms := true }
    c := { Chip.reset [] with quad := ph != .p0Reset, addr4 := ph == .p2Ready || ph == .p3Mmap } }

/-- `idle` with the host's next moves. -/
def withMoves (l : List HostMove) (s : State) : State := { s with moves := l }

theorem idle_basic (ph : Phase) : Basic (idle ph) := by
  cases ph <;> constructor <;> decide

theorem test_idle_consistent (ph : Phase) : Consistent (idle ph) := by
  refine ⟨idle_basic ph, fun _ => ?_, fun _ _ => ?_, fun h => (by cases ph <;> cases h), fun _ => by cases ph <;> decide⟩
  · cases ph <;> constructor <;> decide
  · cases ph <;> refine ⟨⟨?_, ?_, ?_⟩, ?_, ?_, ?_, ?_⟩ <;>
      first
      | decide
      | (intro h; cases h; done)
      | (rintro (h | h) <;> cases h; done)
      | exact fun _ => ⟨rfl, 0x05, ⟨0x40, rfl⟩, by decide⟩

/-- What the host will do next is no part of consistency. -/
theorem consistent_moves (l : List HostMove) (s : State) (h : Consistent s) : Consistent (withMoves l s) where
  basic := { h.basic with }
  phase := fun hf => { h.phase hf with }
  mapped := h.mapped
  idle := fun hf ha => { h.idle hf ha with quiet := { (h.idle hf ha).quiet with } }
  active := fun ha =>
    { h.active ha with
      top := fun f rest hs => { (h.active ha).top f rest hs with }
      finished := fun hs =>
        { (h.active ha).finished hs with quiet := { ((h.active ha).finished hs).quiet with } } }

/-- `idle` with a command word as the host's next move. -/
def offered (w : CmdWord) (ph : Phase) : State := withMoves [.command w] (idle ph)

/-- A state whose live transaction is the given descriptor. -/
def armed (d : Descriptor) (s : State) : State :=
  { s with p := { s.p with live := some d, busy := true }, turn := .peripheral }

/-- A state with the command in the latches executing, its frames and the peripheral as given. -/
def executing (x : Latches) (stack : List Frame) (p : Periph) (s : State) : State :=
  { s with seq := { s.seq with x := x, active := true, stack := stack }, p := p }

/-- The peripheral in the middle of a status-wait's busy-wait: `kPoll` and the opcode, mask and match, a poll live. -/
def polling (op mask pattern : Byte) (addr data : Word) : Periph :=
  let p : Periph := { Periph.reset with
    en := true, apms := true, pcfg := kPoll ||| op.setWidth 32, addr := addr, data := data
    psmask := mask.setWidth 32, psmatch := pattern.setWidth 32, pint := 0x10 }
  { p with live := some (snapshot p), busy := true }

/-- A command whose last routine has returned: one state for each of the seven. -/
def finishing (op : Byte) : State :=
  let s := idle (if op = 0x05 then .p0Reset else if op = 0x06 then .p1Quad else .p2Ready)
  let x : Latches :=
    if op = 0x01 then ⟨op, 1, 0, 0x05⟩
    else if op = 0x03 then ⟨op, 0x3FFF, 0, 0⟩
    else if op = 0x04 then ⟨op, 0x03FFFFFC, 0xFFFFFFFF, 0⟩
    else ⟨op, 0, 0, 0⟩
  let p : Periph :=
    if op = 0x07 then { s.p with en := true, pcfg := 0x0F183FEC }
    else { s.p with
      apms := true, pcfg := 0x0B000305
      addr := if op = 0x03 then 0x03FFF000 else if op = 0x04 then 0x03FFFFFC else 0
      data := if op = 0x04 then 0xFFFFFFFF else 0 }
  { executing x [] p s with
    bus := [pollRecord 0x05 0x60]
    c := { s.c with wel := op == 0x02, quad := true, addr4 := op != 0x05 } }

theorem finishing_basic (op : Byte) (h : op ∈ [1, 2, 3, 4, 5, 6, 7]) : Basic (finishing op) := by
  simp only [List.mem_cons, List.not_mem_nil, or_false] at h
  rcases h with rfl | rfl | rfl | rfl | rfl | rfl | rfl <;> constructor <;> decide

/-- Every one of them is a state the rules lead to. -/
theorem test_finishing_consistent (op : Byte) (h : op ∈ [1, 2, 3, 4, 5, 6, 7]) : Consistent (finishing op) := by
  refine ⟨finishing_basic op h, ?_, ?_, ?_, fun _ => nofun⟩ <;>
    simp only [List.mem_cons, List.not_mem_nil, or_false] at h
  · intro _
    rcases h with rfl | rfl | rfl | rfl | rfl | rfl | rfl <;> constructor <;> decide
  · intro _ ha
    rcases h with rfl | rfl | rfl | rfl | rfl | rfl | rfl <;> cases ha
  · intro _
    rcases h with rfl | rfl | rfl | rfl | rfl | rfl | rfl
    all_goals
      refine ⟨by decide, trivial, fun f rest hs => (nomatch hs), fun f hf => (nomatch hf), fun f hf => (nomatch hf),
        by decide, fun _ => ⟨⟨rfl, rfl, rfl⟩, rfl, ?_, by decide, ?_, by decide, ?_, ?_, by decide, by decide⟩⟩
      · first | exact fun _ => ⟨rfl, 0x05, ⟨0x60, rfl⟩, by decide⟩ | exact fun hx => absurd rfl hx
      · intro o m t hr
        first
        | (have e : some (Routine.ws 0x05 1 0) = some (.ws o m t) := hr
           cases e; exact ⟨0x60, rfl, by decide⟩)
        | (revert hr; simp [routineOf, finishing, executing]; done)
      · first
        | exact fun _ => ⟨.inr ⟨rfl, rfl, fun j _ => rfl⟩, rfl⟩
        | exact fun hx => absurd hx (by decide)
      · first
        | exact fun _ => ⟨.inr ⟨rfl, rfl, by unfold wordProgrammed; decide⟩, rfl, rfl⟩
        | exact fun hx => absurd hx (by decide)

/-- A status-wait whose match has a bit its mask lacks, in its busy-wait (V79). -/
def hopeless : State := executing ⟨0x01, 1, 3, 0x05⟩ [⟨.ws 0x05 1 3, 9⟩] (polling 0x05 1 3 0 0) (idle .p2Ready)

/-- WRITE_WORD 8, 0 in its final busy-wait, the program still pending in the chip (V104). -/
def programming : State :=
  let s := executing ⟨0x04, 8, 0, 0⟩ [⟨.ws 0x05 1 0, 9⟩, ⟨.pw, 12⟩] (polling 0x05 1 0 8 0) (idle .p2Ready)
  { s with c := { s.c with wel := true, wip := true, pending := some (.program 8 0 0 0 0) } }

theorem test_hopeless_consistent : Consistent hopeless := by
  refine ⟨by constructor <;> decide, fun _ => by constructor <;> decide, fun _ ha => (nomatch ha), fun _ => ?_, nofun⟩
  refine ⟨by decide, rfl, ?_, ?_, ?_, by decide, fun hs => (nomatch hs)⟩
  · intro f rest hs
    cases hs
    refine ⟨by decide, rfl, rfl, ?_, ?_, .inr ⟨rfl, rfl⟩, fun h => (nomatch h), ?_, ?_, nofun⟩
    · intro w hw; cases hw; rfl
    · exact ⟨fun _ => rfl, fun _ => rfl, fun _ => rfl, fun _ => rfl⟩
    · rintro (h | h) <;> cases h
    · rintro (⟨h, _⟩ | ⟨h, _⟩) <;> cases h
  · intro f hf
    rw [List.mem_singleton.1 hf]
    rintro (h | ⟨_, h⟩)
    · exact absurd h (by decide)
    · cases h
  · intro f hf
    rw [List.mem_singleton.1 hf]
    trivial

theorem test_programming_consistent : Consistent programming := by
  refine ⟨by constructor <;> decide, fun _ => by constructor <;> decide, fun _ ha => (nomatch ha), fun _ => ?_, nofun⟩
  refine ⟨by decide, ⟨by decide, rfl, rfl⟩, ?_, ?_, ?_, fun _ h => absurd rfl h, fun hs => (nomatch hs)⟩
  · intro f rest hs
    cases hs
    refine ⟨by decide, rfl, rfl, ?_, ?_, .inr ⟨rfl, rfl⟩, fun h => (nomatch h), ?_, ?_, nofun⟩
    · intro w hw; cases hw; rfl
    · exact ⟨fun _ => rfl, fun _ => rfl, fun _ => rfl, fun _ => rfl⟩
    · rintro (h | h) <;> cases h
    · rintro (⟨h, _⟩ | ⟨h, _⟩) <;> cases h
  · intro f hf
    rcases List.mem_cons.1 hf with rfl | hf
    · rintro (h | ⟨_, h⟩)
      · exact absurd h (by decide)
      · cases h
    · rw [List.mem_singleton.1 hf]
      exact ⟨fun h => absurd (.inl (by decide)) h, fun _ => .inl rfl⟩
  · intro f hf
    rcases List.mem_cons.1 hf with rfl | hf
    · trivial
    · rw [List.mem_singleton.1 hf]
      exact ⟨fun _ => rfl, fun _ => rfl⟩

/-! ## Witnesses: encodings and steps -/

/-- DecodeOfEncode, EncodeOfDecode: a well-formed instruction, a word that decodes. -/
theorem test_hyp_codec :
    (Instr.chipQiofr 0xFFC 31 4).wellFormed = true ∧ (Instr.waitStatus 0xFF 0xFF 0xFF).wellFormed = true ∧
    decode (.command 0x01_000000FF_000000FF_FF) = .ok (.waitStatus 0xFF 0xFF 0xFF) ∧
    decode (.bus ⟨.four, 0xEC, some 0xFFC, 31, .fromChip 4⟩) = .ok (.chipQiofr 0xFFC 31 4) := by decide

/-- LegalEncodingDecodes and IllegalCommandRaised: an illegal word before a ready port (V25, V28). -/
theorem test_hyp_illegal :
    let s := offered 0x07_00000000_00000000_01 .p2Ready
    legalEncoding 0x07_00000000_00000000_01 = false ∧ legalEncoding 0x01_00000100_00000000_05 = false ∧
    s.refused = none ∧ s.moves = [.command 0x07_00000000_00000000_01] ∧ portReady s = true ∧
    s.seq.active = false ∧ s.seq.fault = false := by decide

/-- PreconditionViolationRaised: ENTER_ADDR4 in `P0_RESET`, WRITE_ENABLE in `P3_MMAP` (V118, V92). -/
theorem test_hyp_out_of_phase :
    let s := offered 0x06_00000000_00000000_00 .p0Reset
    legalEncoding 0x06_00000000_00000000_00 = true ∧ legalPhase (cmdOp 0x06_00000000_00000000_00) s.seq.phase = false ∧
    s.refused = none ∧ s.moves = [.command 0x06_00000000_00000000_00] ∧ s.seq.active = false ∧ s.seq.fault = false ∧
    legalPhase (cmdOp 0x02_00000000_00000000_00) .p3Mmap = false := by decide

/-- StepRunsCommandWord and CommandPortRules: a legal word before a ready port, one while a command executes, and the
last step of a command. -/
theorem test_hyp_port :
    let s := offered 0x02_00000000_00000000_00 .p1Quad
    let b : State := { s with seq := { s.seq with active := true } }
    s.refused = none ∧ s.turn = .host ∧ s.moves = [.command 0x02_00000000_00000000_00] ∧
    decode (.command 0x02_00000000_00000000_00) = .ok .writeEnable ∧ portReady s = true ∧
    legalEncoding 0x02_00000000_00000000_00 = true ∧ legalPhase 0x02 s.seq.phase = true ∧
    b.refused = none ∧ b.moves = s.moves ∧ portReady b = false ∧ b.seq.stack = [] := by decide

/-- StepRunsLiveTransaction: an erase, and a poll (R97). -/
theorem test_hyp_live :
    let d : Descriptor := ⟨0x00003F20, 0x1000, 0, 0, 0, 0⟩
    let q : Descriptor := ⟨0x0B000305, 0, 0, 0, 1, 0⟩
    (armed d (idle .p2Ready)).p.live = some d ∧ (armed d (idle .p2Ready)).turn = .peripheral ∧
    pcfgFmode d.pcfg ≠ fmodeMapped ∧ pcfgFmode d.pcfg ≠ fmodePoll ∧
    requestOf d = .ok ⟨.four, 0x20, some 0x1000, 0, .none⟩ ∧
    decode (.bus ⟨.four, 0x20, some 0x1000, 0, .none⟩) = .ok (.chipSe4k 0x1000) ∧
    pcfgFmode q.pcfg = fmodePoll ∧ requestOf q = .ok ⟨.four, 0x05, none, 0, .fromChip 1⟩ := by
  refine ⟨rfl, rfl, by decide, by decide, rfl, rfl, by decide, rfl⟩

/-- StepRunsWindowRead and WindowReadGivesFlash: the first and the last word of the window, and one byte (V120). -/
theorem test_hyp_window :
    let s := withMoves [.read 0x93FFFFFC 4] (idle .p3Mmap)
    s.refused = none ∧ s.turn = .host ∧ s.moves = [.read 0x93FFFFFC 4] ∧ inWindow s.params 0x93FFFFFC 4 = true ∧
    inWindow s.params 0x90000000 4 = true ∧ inWindow s.params 0x93FFFFFF 1 = true ∧
    s.params.wf = true ∧ s.seq.phase = .p3Mmap ∧ s.seq.active = false ∧ s.p.en = true ∧
    pcfgFmode s.p.pcfg = fmodeMapped ∧ s.p.pcfg = kMapped s.params ||| kMappedMode ∧ s.c.quad = true ∧
    s.c.addr4 = true ∧ s.c.wip = false ∧ s.params.mmapBase ≤ 0x93FFFFFC ∧
    0x93FFFFFC + 4 ≤ s.params.mmapBase + s.params.flashSize := by decide

theorem test_hyp_window_request :
    windowRequest 0x0F183FEC 0x03FFFFFC 4 = .ok ⟨.four, 0xEC, some 0x03FFFFFC, 6, .fromChip 4⟩ ∧
    (some 0x03FFFFFC : Option Word) ≠ none ∧
    decode (.bus ⟨.four, 0xEC, some 0x03FFFFFC, 6, .fromChip 4⟩) = .ok (.chipQiofr 0x03FFFFFC 6 4) :=
  ⟨rfl, nofun, rfl⟩

/-- PlacedWordRuns. -/
theorem test_hyp_placed :
    State.reset.params.wf = true ∧ decodeTableWord 8 0xEC = some (.chipQiofr 0 0 1) ∧
    decodeTableWord 80 (0x03 * 2 ^ 72) = some (.eraseSector 0) := by decide

/-! ## Witnesses: commands -/

/-- CommandsStartTheirRoutines and the seven RunsToDone statements: a consistent idle machine in each phase, with the
conditions of WAIT_STATUS (V85), ERASE_SECTOR (V33) and WRITE_WORD (V105, V108) at their bounds. -/
theorem test_hyp_commands (ph : Phase) :
    Consistent (idle ph) ∧ (idle ph).refused = none ∧ (idle ph).seq.active = false ∧ (idle ph).seq.fault = false ∧
    (idle ph).seq.phase = ph :=
  ⟨test_idle_consistent ph, rfl, rfl, rfl, rfl⟩

theorem test_hyp_wait_condition (free : Byte) :
    statusByte (idle .p2Ready).params .a (idle .p2Ready).c free &&& 0x01 = 0x00 ∧
    statusByte (idle .p1Quad).params .a (idle .p1Quad).c free &&& 0x43 = 0x40 := by
  revert free; decide

theorem test_hyp_operands :
    (eraseAddress 0x3FFF).toNat < (idle .p2Ready).params.flashSize ∧
    (0x03FFFFFC : Word).toNat + 3 < (idle .p2Ready).params.flashSize ∧
    (0x000000FC : Word).toNat % (idle .p2Ready).params.pageSize + 4 ≤ (idle .p2Ready).params.pageSize := by decide

/-- DoneGuarantees and CommandsTouchOnlyTheirBytes: each command's last step, on a schedule without the host. -/
theorem test_hyp_done (op : Byte) (h : op ∈ [1, 2, 3, 4, 5, 6, 7]) :
    Agent.host ∉ [Agent.sequencer] ∧ Consistent (finishing op) ∧ (finishing op).seq.active = true ∧
    (finishing op).seq.x.op = op ∧
    ∃ t, runAs [.sequencer] (finishing op) = .next t ∧ t.refused = none ∧ t.seq.active = false ∧
      t.seq.fault = false := by
  refine ⟨by decide, test_finishing_consistent op h, rfl, ?_, ?_⟩ <;>
    simp only [List.mem_cons, List.not_mem_nil, or_false] at h <;>
    rcases h with rfl | rfl | rfl | rfl | rfl | rfl | rfl
  all_goals first | decide | exact ⟨_, rfl, rfl, rfl, rfl⟩

/-- CommandsTouchOnlyTheirBytes: addresses at both edges of the erased sector and of the programmed word. -/
theorem test_hyp_outside :
    0x03FFEFFF < (eraseAddress (finishing 3).seq.x.a).toNat ∧
    (eraseAddress (finishing 3).seq.x.a).toNat + 4096 ≤ 0x04000000 ∧
    0x03FFFFFB < (finishing 4).seq.x.a.toNat ∧ (finishing 4).seq.x.a.toNat + 4 ≤ 0x04000000 := by decide

/-- A finished run, as a state. -/
def after (l : List Agent) (s : State) : State :=
  match runAs l s with
  | .next t => t
  | _ => s

/-- The machine after a poll of register A that matched. -/
def polled (s : State) : State :=
  { s with
    bus := s.bus ++ [pollRecord 0x05 (statusByte s.params .a s.c (Config.freeStatus s.draws))]
    p := { s.p with smf := true, live := none, busy := false }
    draws := s.draws + 1
    turn := Config.agentAt s.draws }

theorem poll_runs (s : State) (d : Descriptor) (hr : s.refused = none) (hx : s.seq.cause = 0) (hl : s.p.live = some d)
    (hq : requestOf d = .ok ⟨.four, 0x05, none, 0, .fromChip 1⟩) (hf : pcfgFmode d.pcfg ≠ fmodeMapped)
    (hc : s.c.quad = true) (ha : s.p.apms = true) (h05 : s.params.reads05 = .a)
    (hm : ∀ b, statusMatches (statusByte s.params .a s.c b) (d.psmask.setWidth 8) (d.psmatch.setWidth 8) = true) :
    stepAs .peripheral s = .next (polled s) := by
  have hb : decodeBus ⟨.four, 0x05, none, 0, .fromChip 1⟩ = .ok (.chipRdsrA .four) := by decide
  have hp : pollShape ⟨.four, 0x05, none, 0, .fromChip 1⟩ = true := by decide
  have he : peripheralStep s = exec (.chipRdsrA .four) s := by
    simp only [peripheralStep, hl, if_neg hf, performLive, hq, hp, hb, Bool.true_eq_false, and_false, if_false]
  simp only [stepAs, hr, agentStep, he]
  have hn : ∀ (u : State), u.seq = s.seq → unsettle u = u := fun u hu => unsettle_of u (by rw [hu, hx]; decide)
  have hs : s.params.statusReg 5#8 = .a := by simp [Params.statusReg, h05, opcRead05]
  simp [exec, execChipRdsrA, poll, lineOk, hc, pollCompare, hl, hs, hm, ha, tick, polled, pollRecord, opcRead05, hr, hn]

/-- WRITE_WORD 8, 0 just accepted (V104). -/
def accepted : State := executing ⟨0x04, 8, 0, 0⟩ [⟨.pw, 0⟩] (idle .p2Ready).p (idle .p2Ready)

theorem test_accepted_consistent : Consistent accepted := by
  refine ⟨by constructor <;> decide, fun _ => by constructor <;> decide, fun _ ha => (nomatch ha), fun _ => ?_, nofun⟩
  refine ⟨by decide, rfl, ?_, ?_, ?_, fun _ h => absurd rfl h, fun hs => (nomatch hs)⟩
  · intro f rest hs
    cases hs
    refine ⟨by decide, rfl, rfl, ?_, trivial, .inl rfl, fun h => (nomatch h), ?_, fun _ => rfl, nofun⟩
    · intro w hw; cases hw
    · intro _ h; exact absurd h (by decide)
  · intro f hf
    rw [List.mem_singleton.1 hf]
    exact ⟨fun _ => rfl, fun h => absurd h (by rintro (h | ⟨h, _⟩) <;> revert h <;> decide)⟩
  · intro f hf
    rw [List.mem_singleton.1 hf]
    exact ⟨fun h => absurd h (by decide), fun h => absurd h (by decide)⟩

/-- Its run up to the live poll of the write-enable. -/
def toLatchPoll : List Agent :=
  List.replicate 6 Agent.sequencer ++ [.peripheral] ++ List.replicate 12 .sequencer
def atLatchPoll : State := after toLatchPoll accepted
/-- From there to the live poll of the final status-wait. -/
def toIdlePoll : List Agent :=
  List.replicate 12 Agent.sequencer ++ [.peripheral] ++ List.replicate 4 .sequencer ++ [.chip] ++
    List.replicate 9 .sequencer
def atIdlePoll : State := after toIdlePoll (polled atLatchPoll)
/-- From there to `done`. -/
def toDone : List Agent := List.replicate 6 Agent.sequencer
def atDone : State := after toDone (polled atIdlePoll)

theorem latch_poll_runs : stepAs .peripheral atLatchPoll = .next (polled atLatchPoll) :=
  poll_runs atLatchPoll ⟨0x0B000305, 0, 0, 0, 3, 2⟩ rfl rfl rfl rfl (by decide) rfl rfl rfl
    (by show ∀ b, statusMatches (statusByte params .a { (idle .p2Ready).c with wel := true } b) 3 2 = true; decide)

theorem idle_poll_runs : stepAs .peripheral atIdlePoll = .next (polled atIdlePoll) :=
  poll_runs atIdlePoll ⟨0x0B000305, 8, 0, 0, 1, 0⟩ rfl rfl rfl rfl (by decide) rfl rfl rfl
    (by
      show ∀ b, statusMatches
        (statusByte params .a { (idle .p2Ready).c with flash := [(8, 0), (9, 0), (10, 0), (11, 0)] } b) 1 0 = true
      decide)

/-- ProgramAndsOnEverySchedule: one run of WRITE_WORD 8, 0 from acceptance to `done` (V104). -/
theorem test_hyp_program_run :
    Agent.host ∉ toLatchPoll ++ ([.peripheral] ++ (toIdlePoll ++ ([.peripheral] ++ toDone))) ∧
    Consistent accepted ∧ accepted.seq.active = true ∧ accepted.seq.x.op = 0x04 ∧ accepted.seq.stack = [⟨.pw, 0⟩] ∧
    runAs (toLatchPoll ++ ([.peripheral] ++ (toIdlePoll ++ ([.peripheral] ++ toDone)))) accepted = .next atDone ∧
    atDone.refused = none ∧ atDone.seq.active = false ∧ atDone.seq.fault = false := by
  refine ⟨by decide, test_accepted_consistent, rfl, rfl, rfl, ?_, rfl, rfl, rfl⟩
  rw [runAs_append _ _ _ atLatchPoll rfl, runAs_append _ _ _ _ (runAs_one _ _ _ latch_poll_runs),
    runAs_append _ _ _ atIdlePoll rfl, runAs_append _ _ _ _ (runAs_one _ _ _ idle_poll_runs)]
  rfl

/-! ## Witnesses: the sequencer's steps, faults -/

/-- StepMovesThePosition: a call, a return, an enabling write, and a busy-wait on an idle and on a busy peripheral. -/
theorem test_hyp_position :
    let s := executing ⟨0x02, 0, 0, 0⟩ [⟨.we, 7⟩] (periph false 0x306) (idle .p2Ready)
    s.seq.stack = [⟨.we, 7⟩] ∧ (∃ t, microStep (.call (wsLatch params)) ⟨.we, 7⟩ [] s = .next t) ∧
    (∃ t, microStep .ret ⟨.we, 7⟩ [] s = .next t) ∧ (∃ t, microStep (.en true) ⟨.we, 7⟩ [] s = .next t) ∧
    (∃ t, microStep .spin ⟨.we, 7⟩ [] s = .next t) ∧ readBusy s = false ∧ readBusy hopeless = true ∧
    hopeless.seq.stack = [⟨.ws 0x05 1 3, 9⟩] ∧ (∃ t, microStep .spin ⟨.ws 0x05 1 3, 9⟩ [] hopeless = .next t) :=
  ⟨rfl, ⟨_, rfl⟩, ⟨_, rfl⟩, ⟨_, rfl⟩, ⟨_, rfl⟩, rfl, rfl, rfl, ⟨_, rfl⟩⟩

/-- `hopeless` at the last read a bound of 3 allows (V86). -/
def expiring : State :=
  { hopeless with params := { params with spinLimit := some 3 }, seq := { hopeless.seq with spincnt := 2 } }

/-- StepMovesThePosition, FlashChangesOnlyByCompletion, LastingFacts: a step that takes a Timeout. -/
theorem test_hyp_timeout :
    expiring.seq.stack = [⟨.ws 0x05 1 3, 9⟩] ∧
    (∃ t, microStep .spin ⟨.ws 0x05 1 3, 9⟩ [] expiring = .next t ∧ timedOut expiring t) ∧
    ∃ t, stepAs .sequencer expiring = .next t ∧ timedOut expiring t :=
  ⟨rfl, ⟨_, rfl, _, rfl⟩, ⟨_, rfl, _, rfl⟩⟩

/-- BusyWaitBranches: BUSY clear, no bound, and below and at a bound of 3 (V86). -/
theorem test_hyp_busy_wait :
    let u (k : Nat) : State :=
      { hopeless with params := { params with spinLimit := some 3 }, seq := { hopeless.seq with spincnt := k } }
    (idle .p2Ready).seq.phase ≠ .p3Mmap ∧ readBusy (idle .p2Ready) = false ∧
    readBusy hopeless = true ∧ hopeless.params.spinLimit = none ∧
    readBusy (u 1) = true ∧ (u 1).params.spinLimit = some 3 ∧ (u 1).seq.spincnt + 1 < 3 ∧
    readBusy (u 2) = true ∧ 3 ≤ (u 2).seq.spincnt + 1 := by decide

/-- A faulted machine with the host's next move. -/
def faulted (m : HostMove) : State :=
  let s := withMoves [m] (idle .p1Quad)
  { s with seq := { s.seq with fault := true, cause := 2 } }

/-- FaultStandsUntilReset: a faulted machine, its host about to present a command, and about to reset. -/
theorem test_hyp_faulted :
    Basic (faulted (.command 0x06_00000000_00000000_00)) ∧ Basic (faulted .powerOnReset) ∧
    (faulted .powerOnReset).seq.fault = true ∧ resetsNext .host (faulted .powerOnReset) ∧
    ¬ resetsNext .host (faulted (.command 0x06_00000000_00000000_00)) ∧
    (∃ t, stepAs .host (faulted (.command 0x06_00000000_00000000_00)) = .next t) ∧
    (∃ t, stepAs .host (faulted .powerOnReset) = .next t) := by
  refine ⟨by constructor <;> decide, by constructor <;> decide, rfl, ⟨rfl, rfl⟩, ?_, ⟨_, rfl⟩, ⟨_, rfl⟩⟩
  rintro ⟨_, h⟩; cases h

/-- LatchesChangeAtAcceptance, LastingFacts, FlashChangesOnlyByCompletion, BasicKept, ConsistentKept: steps of the four
agents from states the rules lead to. -/
theorem test_hyp_steps :
    Basic programming ∧ Consistent programming ∧ programming.refused = none ∧
    (∃ t, stepAs .host programming = .next t) ∧ (∃ t, stepAs .sequencer programming = .next t ∧ t.refused = none) ∧
    (∃ t, stepAs .chip programming = .next t ∧ t.refused = none) ∧
    (∃ t, stepAs .host (offered 0x06_00000000_00000000_00 .p1Quad) = .next t ∧ t.refused = none) :=
  ⟨test_programming_consistent.basic, test_programming_consistent, rfl, ⟨_, rfl⟩, ⟨_, rfl, rfl⟩, ⟨_, rfl, rfl⟩,
    ⟨_, rfl, rfl⟩⟩

/-- HopelessWaitHangs: a match bit outside the mask (V79), on a schedule of the three agents. -/
theorem test_hyp_hopeless :
    Agent.host ∉ [Agent.sequencer, .chip] ∧ Consistent hopeless ∧ hopeless.params.spinLimit = none ∧
    hopeless.seq.active = true ∧ hopeless.seq.stack = [⟨.ws 0x05 1 3, 9⟩] ∧ hopeless.p.live ≠ none ∧
    (3 : Byte) &&& ~~~1 ≠ 0 ∧ hopeless.refused = none ∧ ∃ t, runAs [.sequencer, .chip] hopeless = .next t :=
  ⟨by decide, test_hopeless_consistent, rfl, rfl, rfl, by decide, by decide, rfl, ⟨_, rfl⟩⟩

/-! ## Witnesses: the register interface, the peripheral and the chip -/

/-- RegistersHoldWrites, StatusAndFlagClear, DisabledStartsNothing: an idle disabled peripheral, values with and without
the bits the rules name. -/
theorem test_hyp_registers :
    (idle .p1Quad).p.busy = false ∧ (idle .p1Quad).p.en = false ∧ (0x0F7C3FEC : Word) &&& pcfgReserved = 0 ∧
    (0x8 : Word).getLsbD 3 = true ∧ (0x7 : Word).getLsbD 3 = false ∧ (idle .p1Quad).seq.phase ≠ .p3Mmap ∧
    Reg.ctrl ≠ Reg.devcfg ∧ Reg.devcfg ≠ Reg.stat := by decide

/-- ArmingRule: writes that meet the rule's condition, one that does not, and a busy peripheral (V55 to V63). -/
theorem test_hyp_arming :
    let enabled : State := { idle .p2Ready with p := periph true 0x00003F20 }
    let programs : State := { idle .p2Ready with p := periph true 0x03003F12 }
    enabled.p.busy = false ∧ enabled.p.en = true ∧ pcfgFmode enabled.p.pcfg ≠ 3 ∧ pcfgImode enabled.p.pcfg ≠ 0 ∧
    pcfgAdmode enabled.p.pcfg ≠ 0 ∧ ¬ (pcfgDmode enabled.p.pcfg ≠ 0 ∧ pcfgFmode enabled.p.pcfg = 0) ∧
    (pcfgDmode programs.p.pcfg ≠ 0 ∧ pcfgFmode programs.p.pcfg = 0) ∧
    pcfgAdmode 0x0B000305 = 0 ∧ ¬ (pcfgDmode 0x0B000305 ≠ 0 ∧ pcfgFmode 0x0B000305 = 0) ∧
    (idle .p2Ready).p.en = false ∧ hopeless.p.busy = true := by decide

/-- MisuseSetsTheMark: a busy peripheral, and a live descriptor for each code the block never writes. -/
theorem test_hyp_misuse :
    let l (w dlen : Word) : Descriptor := ⟨w, 0, dlen, 0, 0, 0⟩
    hopeless.p.busy = true ∧ (armed (l 0x00000206 0) (idle .p2Ready)).p.live = some (l 0x00000206 0) ∧
    pcfgFmode 0x00000206 ≠ 3 ∧ pcfgImode 0x00000206 = 2 ∧ pcfgAdmode 0x00003720 = 1 ∧ pcfgAdmode 0x00003B20 = 2 ∧
    (pcfgAdmode 0x00002F20 = 3 ∧ pcfgAdsize 0x00002F20 ≠ 3) ∧ pcfgDmode 0x01003F12 = 1 ∧ pcfgDmode 0x02003F12 = 2 ∧
    (pcfgFmode 0x0B000305 = 2 ∧ (l 0x0B000305 3).dlen ≠ 0) := by decide

/-- MisuseSetsTheMark: a poll of an opcode outside the eight (V87). -/
theorem test_hyp_unknown :
    requestOf ⟨0x0B00039F, 0, 0, 0, 0, 0⟩ = .ok ⟨.four, 0x9F, none, 0, .fromChip 1⟩ ∧
    decodeBus ⟨.four, 0x9F, none, 0, .fromChip 1⟩ = .error .unknownOpcode := ⟨rfl, rfl⟩

/-- IndirectTransactionIsOneStep: an indirect write, an indirect read without data, and one with data. -/
theorem test_hyp_indirect :
    let w : Descriptor := ⟨0x03003F12, 8, 3, 0x11223344, 0, 0⟩
    let r : Descriptor := ⟨0x040003B7, 0, 0, 0, 0, 0⟩
    (armed w (idle .p2Ready)).refused = none ∧ (armed w (idle .p2Ready)).p.live = some w ∧ pcfgFmode w.pcfg = 0 ∧
    requestOf w = .ok ⟨.four, 0x12, some 8, 0, .toChip [0x44, 0x33, 0x22, 0x11]⟩ ∧ pcfgFmode r.pcfg = 1 ∧
    requestOf r = .ok ⟨.four, 0xB7, none, 0, .none⟩ ∧ pcfgFmode 0x07000305 = 1 ∧ pcfgDmode 0x07000305 ≠ 0 :=
  ⟨rfl, rfl, by decide, rfl, by decide, rfl, by decide, by decide⟩

/-- StatusRegisterBits: parameters that make sense, the defaults among them. -/
theorem test_hyp_masks :
    Params.default.wf = true ∧ { Params.default with quadReg := .b, quadMask := 0x02 }.wf = true := by decide

/-- FlagOpcodesSetTheirFlag, LineAndBusyDiscipline: a chip in quad mode, one that is not, one that is busy. -/
theorem test_hyp_chip :
    (idle .p1Quad).c.quad = true ∧ (idle .p1Quad).c.wip = false ∧ (idle .p0Reset).c.quad = false ∧
    (idle .p0Reset).c.wip = false ∧ instrLines .chipWren = some .four ∧ lineOk .four (idle .p0Reset).c = false ∧
    lineOk .one (idle .p1Quad).c = false ∧ programming.c.wip = true ∧ isStatusRead .chipWren = false ∧
    instrLines (.chipQiofr 0x03FFFFFC 6 5) = some .four ∧ (idle .p1Quad).c.addr4 = false ∧
    (idle .p3Mmap).params.flashSize < (0x03FFFFFC : Word).toNat + 5 := by decide

/-- SectorEraseOpcode: the last address of the chip with the latch set; the first address past it, and each flag
clear (V33, V34). -/
theorem test_hyp_erase :
    let c (wel addr4 : Bool) : Chip := { (idle .p2Ready).c with wel := wel, addr4 := addr4 }
    (c true true).quad = true ∧ (c true true).wip = false ∧ (c true true).addr4 = true ∧ (c true true).wel = true ∧
    (0x03FFFFFF : Word).toNat < params.flashSize ∧ params.flashSize ≤ (0x04000000 : Word).toNat ∧
    (c true false).addr4 = false ∧ (c false true).wel = false := by decide

/-- PageProgramOpcode: the last word of a page and of the chip, and the addresses one byte further (V105 to V110). -/
theorem test_hyp_program :
    let p := params
    (0x03FFFFFC : Word).toNat + 3 < p.flashSize ∧ (0x03FFFFFC : Word).toNat % p.pageSize + 4 ≤ p.pageSize ∧
    p.pageSize < (0xFD : Word).toNat % p.pageSize + 4 ∧ p.flashSize ≤ (0x03FFFFFD : Word).toNat + 3 := by decide

/-- StatusReadsPoll: a live poll on four lines. -/
theorem test_hyp_poll : lineOk .four hopeless.c = true ∧ hopeless.p.live = some (snapshot hopeless.p) := by decide

/-- StatusReadsPoll: a poll on quad mode that matches whatever the free bits (V85), with APMS set and with APMS clear; and
one on a single line. -/
theorem test_hyp_poll_match (free : Byte) :
    let d : Descriptor := ⟨0x0B000305, 0, 0, 0, 0x40, 0x40⟩
    let s := armed d (idle .p2Ready)
    let u : State := { s with p := { s.p with apms := false } }
    s.p.live = some d ∧ u.p.live = some d ∧ s.p.apms = true ∧ u.p.apms = false ∧ lineOk .four s.c = true ∧
    statusByte s.params .a s.c free &&& d.psmask.setWidth 8 = d.psmatch.setWidth 8 ∧
    lineOk .one (armed d (idle .p0Reset)).c = true := by
  revert free; decide

/-- QuadReadOpcode: the last four bytes of the chip. -/
theorem test_hyp_quad_read :
    (idle .p3Mmap).c.quad = true ∧ (idle .p3Mmap).c.addr4 = true ∧ (idle .p3Mmap).c.wip = false ∧
    (0x03FFFFFC : Word).toNat + 4 ≤ (idle .p3Mmap).params.flashSize := by decide

/-- PendingOperationCompletes, FairAgentsMakeProgress: an operation in progress at the end of the
chip, and a schedule that is fair. -/
theorem test_hyp_pending :
    programming.c.wip = true ∧ programming.c.pending = some (.program 8 0 0 0 0) ∧
    programming.c.wip = programming.c.pending.isSome ∧
    (PendingOp.program 8 0 0 0 0).inChip programming.params = true ∧
    (PendingOp.program 0x03FFFFFC 0 0 0 0).inChip programming.params = true ∧
    (PendingOp.erase 0x03FFF000).inChip programming.params = true ∧ (idle .p2Ready).c.wip = false := by decide

/-- The agents in turn. -/
def roundRobin (n : Nat) : Agent :=
  if n % 4 = 0 then .host else if n % 4 = 1 then .sequencer else if n % 4 = 2 then .peripheral else .chip

theorem test_hyp_fair :
    Responsive roundRobin programming ∧ Consistent programming ∧ programming.refused = none ∧ programming.moves = [] ∧
    programming.params.chipResponsive = true ∧ programming.p.live = some (snapshot programming.p) ∧
    pcfgFmode (snapshot programming.p).pcfg ≠ fmodeMapped := by
  refine ⟨fun _ k => ⟨⟨4 * k + 2, by omega, ?_⟩, ⟨4 * k + 3, by omega, ?_⟩⟩, test_programming_consistent, rfl, rfl,
    rfl, rfl, by decide⟩ <;> simp [roundRobin] <;> omega

/-- EveryCommandEndsInDone: WRITE_WORD in its final busy-wait; WAIT_STATUS on WIP clear (V85) and ERASE_SECTOR of the last
sector (V33) about to end. -/
theorem test_hyp_ends :
    SequencerMoves roundRobin ∧ programming.seq.active = true ∧ programming.params.spinLimit = none ∧
    reachable programming ∧ reachable (finishing 1) ∧ reachable (finishing 3) := by
  refine ⟨fun k => ⟨4 * k + 1, by omega, by simp [roundRobin]⟩, rfl, rfl, ?_, ?_, ?_⟩
  · exact ⟨fun h => absurd h (by decide), fun h => absurd h (by decide), fun _ => by decide⟩
  · refine ⟨fun _ => ⟨.a, by decide, ?_⟩, fun h => absurd h (by decide), fun h => absurd h (by decide)⟩
    show ∀ free, statusByte params .a (finishing 1).c free &&& 1 = 0
    decide
  · exact ⟨fun h => absurd h (by decide), fun _ => by decide, fun h => absurd h (by decide)⟩

/-- ProgrammedWordReadsBack: erased bytes. -/
theorem test_hyp_erased : ∀ k, k < 4 → Memory.read 0xFF [] ((8 : Word).toNat + k) = 0xFF := by decide

/-- UnsupportedWindowAccess: a write to the window's last byte, reads of it before activation (V128, V129). -/
theorem test_hyp_unsupported :
    let w := withMoves [.write 0x93FFFFFF 1 0] (idle .p3Mmap)
    let r := withMoves [.read 0x90000000 4] (idle .p2Ready)
    w.refused = none ∧ w.moves = [.write 0x93FFFFFF 1 0] ∧ inWindow w.params 0x93FFFFFF 1 = true ∧
    r.refused = none ∧ r.moves = [.read 0x90000000 4] ∧ inWindow r.params 0x90000000 4 = true ∧
    r.seq.phase ≠ .p3Mmap := by decide

/-- FlashConstantAfterActivation, ActivationIsOneWay, OnlyReachableStops: an activated machine, its host about to read
and about to present a command. -/
theorem test_hyp_activated :
    Consistent (offered 0x02_00000000_00000000_00 .p3Mmap) ∧
    Consistent (withMoves [.read 0x90000000 4] (idle .p3Mmap)) ∧
    (offered 0x02_00000000_00000000_00 .p3Mmap).seq.phase = .p3Mmap ∧
    (offered 0x02_00000000_00000000_00 .p3Mmap).seq.fault = false ∧
    (offered 0x02_00000000_00000000_00 .p3Mmap).refused = none ∧
    legalEncoding 0x02_00000000_00000000_00 = true ∧
    (∃ t, stepAs .host (offered 0x02_00000000_00000000_00 .p3Mmap) = .next t) ∧
    ¬ resetsNext .host (offered 0x02_00000000_00000000_00 .p3Mmap) :=
  ⟨consistent_moves _ _ (test_idle_consistent _), consistent_moves _ _ (test_idle_consistent _), rfl, rfl, rfl,
    by decide, ⟨_, rfl⟩, fun h => nomatch h.2⟩

/-- An activated machine that an illegal word has faulted, its host about to read. -/
def illegalInP3 : State :=
  { withMoves [.read 0x90000000 4] (idle .p3Mmap) with
    seq := { Seq.reset with phase := .p3Mmap, fault := true, cause := 1 } }

/-- FlashConstantAfterActivation, OnlyReachableStops: a machine that a precise fault stands on is consistent. -/
theorem test_hyp_precise_fault :
    Consistent illegalInP3 ∧ illegalInP3.seq.phase = .p3Mmap ∧ illegalInP3.seq.cause ≠ 3 ∧
    illegalInP3.refused = none ∧ ∃ t, stepAs .host illegalInP3 = .next t := by
  have hi := (test_idle_consistent .p3Mmap).idle (by decide) rfl
  refine ⟨⟨by constructor <;> decide, fun _ => by constructor <;> decide, fun _ _ => ?_, nofun, fun _ => by decide⟩, rfl,
    by decide, rfl, ⟨_, rfl⟩⟩
  exact hi.congr rfl rfl rfl rfl rfl (fun h => absurd rfl h) nofun

/-- OnlyReachableStops: an access outside the window stops the host's step. -/
theorem test_hyp_outside_window :
    stepAs .host (withMoves [.read 0x8FFFFFFF 4] (idle .p3Mmap)) = .fault .outsideWindow := rfl

/-- CommandFrame, ChipOpcodeFrame: instructions of both kinds that answer a next state. -/
theorem test_hyp_frames :
    isCommand .enterMmap = true ∧ (∃ t, exec .enterMmap (idle .p2Ready) = .next t) ∧
    isCommand (.chipSe4k 0) = false ∧ (∃ t, exec (.chipSe4k 0) (idle .p2Ready) = .next t) :=
  ⟨rfl, ⟨_, rfl⟩, rfl, ⟨_, rfl⟩⟩

/-! ## Steps -/

/-- V86: the third unsuccessful read raises Timeout at (WS, 9) and leaves the peripheral enabled and busy; nothing is
known of the chip's flags (U16). -/
theorem test_timeout :
    ∃ t, stepAs .sequencer expiring = .next t ∧ t.seq.cause = 3 ∧ t.events = [.fault 3 (.position .ws 9)] ∧
      t.p.en = true ∧ t.p.busy = true ∧ t.c.quad = (Config.lostFlags 0).getLsbD 2 := ⟨_, rfl, rfl, rfl, rfl, rfl, rfl⟩

/-- A machine on which the Timeout of a WRITE_WORD stands, its host about to reset it. -/
def timedOutWrite : State :=
  let s := withMoves [.powerOnReset] programming
  { s with seq := { s.seq with stack := [], active := false, fault := true, cause := 3 } }

/-- PowerOnResetEffect, FlashChangesOnlyByCompletion, LastingFacts: a Timeout that stands, with bytes unverified (U16). -/
theorem test_hyp_timeout_stands :
    timedOutWrite.refused = none ∧ timedOutWrite.seq.cause = 3 ∧ timedOutWrite.moves = [.powerOnReset] ∧
    unverified timedOutWrite = [(8, 4)] ∧ (∃ t, stepAs .host timedOutWrite = .next t) ∧
    ∃ t, stepAs .peripheral timedOutWrite = .next t ∧ t.seq.cause = 3 :=
  ⟨rfl, rfl, rfl, rfl, ⟨_, rfl⟩, ⟨_, rfl, rfl⟩⟩

/-- U16, R287: the chip's step after a Timeout makes nothing known: WIP is any value, not clear. -/
theorem test_chip_after_timeout :
    ∃ t, stepAs .chip timedOutWrite = .next t ∧
      t.c.wip = (Config.lostFlags timedOutWrite.draws).getLsbD 1 := ⟨_, rfl, rfl⟩

/-- U16: the bytes of the unverified program hold any value after the reset too. -/
theorem test_reset_after_timeout :
    flashByte (powerOnReset timedOutWrite) 8 = Config.lostByte timedOutWrite.draws 8 :=
  (read_loseBytes [(8, 4)] timedOutWrite 8).trans (if_pos (by decide))

/-- V87: the first poll of an opcode outside the eight sets the mark. -/
theorem test_unknown_opcode_poll :
    ∃ t, stepAs .peripheral (armed ⟨0x0B00039F, 0, 0, 0, 0, 0⟩ (idle .p2Ready)) = .next t ∧
      t.refused = some .unknownOpcode := ⟨_, rfl, rfl⟩

/-- V109: a program that crosses the end of the chip is refused, and its record is on the bus. -/
theorem test_program_refused :
    ∃ t, exec (.chipPp4b 0x03FFFFFD 1 2 3 4) { programming with c := { programming.c with wip := false } } = .next t ∧
      t.refused = some .programOutOfRange ∧ 
      t.bus = [pollRecord 0x05 0x40, ⟨.four, 0x12, some 0x03FFFFFD, 0, some (.toChip, [1, 2, 3, 4])⟩] :=
  ⟨_, rfl, rfl, rfl⟩

/-- V101, V126 on the window: bytes 23 01 EF CD at 2 read as 0xCDEF0123. -/
theorem test_window_read :
    let s := withMoves [.read 0x90000002 4] (idle .p3Mmap)
    ∃ t, stepAs .host { s with c := { s.c with flash := [(2, 0x23), (3, 0x01), (4, 0xEF), (5, 0xCD)] } } = .next t ∧
      t.events = [.readData 4 0xCDEF0123] ∧
      t.bus = [pollRecord 0x05 0x40, ⟨.four, 0xEC, some 2, 6, some (.fromChip, [0x23, 0x01, 0xEF, 0xCD])⟩] := ⟨_, rfl, rfl, rfl⟩

/-- R267: a reset while a program is in progress keeps the other bytes of the array. -/
theorem test_reset_in_progress :
    let s := withMoves [.powerOnReset] programming
    ∃ t, stepAs .host { s with c := { s.c with flash := [(7, 0x12), (9, 0x34)] } } = .next t ∧
      t.c.pending = none ∧ t.c.quad = false ∧ Memory.read 0xFF t.c.flash 7 = 0x12 := ⟨_, rfl, rfl, rfl, rfl⟩

/-- PowerOnResetEffect: the mark does not stop the reset, which clears it (R54); every other step is refused. -/
theorem test_reset_clears_mark :
    let s := refuse .chipBusy (withMoves [.powerOnReset] programming)
    (∃ t, stepAs .host s = .next t ∧ t.refused = none ∧ t.seq = Seq.reset ∧ t.moves = []) ∧
    stepAs .sequencer s = .refused .chipBusy := ⟨⟨_, rfl, rfl, rfl, rfl⟩, rfl⟩

/-- R29, R10: on a chip whose register A is read by 0x15, a poll of 0x15 shows WIP and one of 0x05 does not. -/
theorem test_swapped_registers (free : Byte) :
    let p : Params := { params with reads05 := .b }
    let c : Chip := { Chip.reset [] with wip := true }
    p.opcRdsrA = 0x15 ∧ statusByte p (p.statusReg 0x15) c free &&& 0x01 = 0x01 ∧
    statusByte p (p.statusReg 0x05) c free &&& 0x01 = free &&& 0x01 := by
  revert free; decide

/-- R212, R104: a window read on a configuration without an address phase sets the mark. -/
theorem test_window_without_address :
    let s := withMoves [.read 0x90000000 1] (idle .p3Mmap)
    ∃ t, stepAs .host { s with p := { s.p with pcfg := 0x0F000305 } } = .next t ∧
      t.refused = some .undefinedTransaction ∧ t.moves = [] := ⟨_, rfl, rfl, rfl⟩

/-- R196: a chip in quad mode that is not in 4-byte addressing does not take the mapped read. -/
theorem test_quad_read_without_addr4 :
    ∃ t, exec (.chipQiofr 0 6 4) (idle .p1Quad) = .next t ∧ t.refused = some .readNotEnabled ∧ t.events = [] :=
  ⟨_, rfl, rfl, rfl⟩

/-- R218 is a difference of integers: with a page of 3 bytes every program is refused. -/
theorem test_small_page :
    (acceptProgram 0 0 0 0 0 { programming with params := { params with pageSize := 3 } }).refused =
      some .programPageCross := rfl

end Sys2Proof.Tests
end

/-! SUPPORT. What a step may change, said once for every agent: a register access of the sequencer, a transaction
of the peripheral with the chip's reaction, the acceptance of a command word, and the chip's own step. -/

namespace Sys2Proof.Machine

/-! ## Command words -/

/-- The latches as the acceptance of `w` loads them (spec/10 R24). -/
def cmdLatches (w : CmdWord) : Latches := ⟨cmdOp w, cmdA w, cmdB w, cmdC w⟩

/-- An operand word whose upper bits are zero is its low byte: the two spellings of that in R92 and the decoder. -/
theorem extract_high_eq_zero_iff (a : Word) : a.extractLsb' 8 24 = 0 ↔ a >>> 8 = 0 := by
  have h : (a.extractLsb' 8 24).toNat = (a >>> 8).toNat := by
    have := a.isLt
    simp only [BitVec.extractLsb'_toNat, BitVec.toNat_ushiftRight, Nat.shiftRight_eq_div_pow]
    omega
  rw [← BitVec.toNat_inj, ← BitVec.toNat_inj, h]
  rfl

theorem low_byte_widened (a : Word) (h : a >>> 8 = 0) : (a.extractLsb' 0 8).setWidth 32 = a := by
  have h : a.toNat / 2 ^ 8 = 0 := by
    simpa [← BitVec.toNat_inj, Nat.shiftRight_eq_div_pow] using h
  rw [← BitVec.toNat_inj]
  simp only [BitVec.extractLsb'_toNat, BitVec.toNat_setWidth, Nat.shiftRight_zero]
  omega

/-- A legal encoding decodes to a command whose meaning is the acceptance of the word's fields (R24, R93). -/
theorem decodeCommand_legal (w : CmdWord) (h : legalEncoding w = true) :
    ∃ i r, decodeCommand w = .ok i ∧ routineOf (cmdLatches w) = some r ∧
      ∀ s, exec i s = .next (acceptCommand (cmdLatches w) r s) := by
  unfold legalEncoding at h
  split at h
  · next ho =>
    simp only [Bool.and_eq_true, beq_iff_eq] at h
    obtain ⟨ha, hb⟩ := h
    refine ⟨.waitStatus (cmdC w) ((cmdA w).extractLsb' 0 8) ((cmdB w).extractLsb' 0 8), _,
      by simp [decodeCommand, ho, (extract_high_eq_zero_iff _).mpr ha, (extract_high_eq_zero_iff _).mpr hb],
      by simp [cmdLatches, routineOf, ho]; rfl, fun s => ?_⟩
    simp only [exec, execWaitStatus, low_byte_widened _ ha, low_byte_widened _ hb, cmdLatches, ho]
    rfl
  split at h
  · next ho =>
    simp only [Bool.and_eq_true, beq_iff_eq] at h
    exact ⟨.eraseSector (cmdA w), .er, by simp [decodeCommand, ho, h], by simp [cmdLatches, routineOf, ho],
      fun s => by simp [exec, execEraseSector, cmdLatches, ho, h]⟩
  split at h
  · next ho =>
    rw [beq_iff_eq] at h
    exact ⟨.writeWord (cmdA w) (cmdB w), .pw, by simp [decodeCommand, ho, h], by simp [cmdLatches, routineOf, ho],
      fun s => by simp [exec, execWriteWord, cmdLatches, ho, h]⟩
  split at h
  · next ho =>
    simp only [Bool.and_eq_true, beq_iff_eq, and_assoc] at h
    obtain ⟨ha, hb, hc⟩ := h
    rcases ho with ho | ho | ho | ho
    · exact ⟨.writeEnable, .we, by simp [decodeCommand, ho, noOperands, ha, hb, hc],
        by simp [cmdLatches, routineOf, ho], fun s => by simp [exec, execWriteEnable, cmdLatches, ho, ha, hb, hc]⟩
    · exact ⟨.enterQuad, .eq, by simp [decodeCommand, ho, noOperands, ha, hb, hc],
        by simp [cmdLatches, routineOf, ho], fun s => by simp [exec, execEnterQuad, cmdLatches, ho, ha, hb, hc]⟩
    · exact ⟨.enterAddr4, .e4, by simp [decodeCommand, ho, noOperands, ha, hb, hc],
        by simp [cmdLatches, routineOf, ho], fun s => by simp [exec, execEnterAddr4, cmdLatches, ho, ha, hb, hc]⟩
    · exact ⟨.enterMmap, .mm, by simp [decodeCommand, ho, noOperands, ha, hb, hc],
        by simp [cmdLatches, routineOf, ho], fun s => by simp [exec, execEnterMmap, cmdLatches, ho, ha, hb, hc]⟩
  · cases h

/-- The decoder reads nothing from a word that is no legal encoding (R93). -/
theorem decodeCommand_illegal (w : CmdWord) (h : legalEncoding w = false) : ∃ e, decodeCommand w = .error e := by
  cases hd : decodeCommand w with
  | error e => exact ⟨e, rfl⟩
  | ok i =>
    exfalso
    simp only [decodeCommand, noOperands, extract_high_eq_zero_iff] at hd
    simp only [legalEncoding] at h
    repeat' split at hd
    all_goals simp_all


/-- What the acceptance of `w` on a ready port makes of `s` (R24): IllegalCommand, PreconditionViolation, or the
start of the command's routine. -/
inductive Accepted (w : CmdWord) (s : State) : State → Prop
  | illegal (h : legalEncoding w = false) :
    Accepted w s (raise causeIllegal (.opByte (cmdOp w)) { s with seq := { s.seq with x := cmdLatches w } })
  | outOfPhase (h : legalEncoding w = true) (hp : legalPhase (cmdOp w) s.seq.phase = false) :
    Accepted w s (raise causePrecondition (.opByte (cmdOp w)) { s with seq := { s.seq with x := cmdLatches w } })
  | start (h : legalEncoding w = true) (hp : legalPhase (cmdOp w) s.seq.phase = true) (r : Routine)
    (hr : routineOf (cmdLatches w) = some r) : Accepted w s (started (cmdLatches w) r s)

/-- A ready port accepts the word presented. -/
theorem presentCommand_ready (w : CmdWord) (rest : List HostMove) (s : State) (hp : portReady s = true) :
    ∃ t, presentCommand w rest s = .next t ∧ Accepted w { s with moves := rest } t := by
  rw [presentCommand, if_pos hp]
  cases hl : legalEncoding w
  · obtain ⟨e, he⟩ := decodeCommand_illegal w hl
    rw [he]
    exact ⟨_, rfl, .illegal hl⟩
  · obtain ⟨i, r, hi, hr, hexec⟩ := decodeCommand_legal w hl
    rw [hi]
    refine ⟨_, hexec _, ?_⟩
    rcases acceptCommand_cases (cmdLatches w) r { s with moves := rest } with
      ⟨hno, _⟩ | ⟨_, hph, h⟩ | ⟨_, hph, h⟩
    · exact absurd (hp.symm.trans hno) (by decide)
    · exact h ▸ .start hl hph r hr
    · exact h ▸ .outOfPhase hl hph

theorem portReady_iff (s : State) : portReady s = true ↔ s.seq.active = false ∧ s.seq.fault = false := by
  simp [portReady]

/-- The meaning of a command is the acceptance of its latches (R24). -/
theorem exec_command (i : Instr) (hi : isCommand i = true) :
    ∃ x r, ∀ s, exec i s = .next (acceptCommand x r s) := by
  cases i with
  | waitStatus | writeEnable | eraseSector | writeWord | enterQuad | enterAddr4 | enterMmap =>
    exact ⟨_, _, fun _ => rfl⟩
  | _ => cases hi

/-- The chip's decoder reads no command (R100). -/
theorem decodeBus_isCommand (r : BusReq) (i : Instr) (h : decodeBus r = .ok i) : isCommand i = false := by
  unfold decodeBus at h
  repeat' split at h
  all_goals cases h
  all_goals rfl

/-! ## What lasts -/

/-- What no register access of the sequencer and no transaction undoes. -/
structure PeriphKept (p q : Periph) : Prop where
  apms : p.apms = true → q.apms = true
  presc : q.presc = p.presc
  fsize : q.fsize = p.fsize
  busy_live : p.busy = p.live.isSome → q.busy = q.live.isSome

theorem PeriphKept.refl (p : Periph) : PeriphKept p p := ⟨id, rfl, rfl, id⟩

/-- What every step of every agent but power-on reset keeps. -/
structure Lasting (s t : State) : Prop where
  params : t.params = s.params
  draws : t.draws = s.draws
  periph : PeriphKept s.p t.p
  bus : s.bus <+: t.bus
  events : s.events <+: t.events

theorem Lasting.refl (s : State) : Lasting s s :=
  ⟨rfl, rfl, .refl _, List.prefix_rfl, List.prefix_rfl⟩

/-- What an instruction may make of the chip: Flash stays, QUAD and ADDR4 are never cleared, and a new pending operation
lies in the chip. -/
structure ChipTakes (p : Params) (c d : Chip) : Prop where
  flash : d.flash = c.flash
  quad : c.quad = true → d.quad = true
  addr4 : c.addr4 = true → d.addr4 = true
  pending : d.wip = c.wip ∧ d.pending = c.pending ∨
    ∃ op, d.wip = true ∧ d.pending = some op ∧ (p.wf = true → op.inChip p = true)

theorem ChipTakes.refl (p : Params) (c : Chip) : ChipTakes p c c := ⟨rfl, id, id, .inl ⟨rfl, rfl⟩⟩

/-! ## Transactions -/

/-- What a transaction, refused or performed, may change: the chip as an instruction may, the peripheral's BUSY, SMF and
LIVE, the history, the events and the mark. -/
structure Transacted (s t : State) : Prop where
  seq : t.seq = s.seq
  pcfg : t.p.pcfg = s.p.pcfg
  chip : ChipTakes s.params s.c t.c
  lasting : Lasting s t

theorem Transacted.refl (s : State) : Transacted s s := ⟨rfl, rfl, .refl _ _, .refl _⟩

theorem Transacted.refuse {s t : State} (h : Transacted s t) (r : Refusal) : Transacted s (refuse r t) :=
  ⟨h.seq, h.pcfg, h.chip, { h.lasting with }⟩

/-- The host's moves are no part of a transaction. -/
theorem Transacted.spend {s t : State} {m : List HostMove} (h : Transacted { s with moves := m } t) : Transacted s t :=
  ⟨h.seq, h.pcfg, h.chip, { h.lasting with }⟩

theorem Transacted.finishTxn {s t : State} (h : Transacted s t) (tx : BusTxn) : Transacted s (finishTxn tx t) := by
  obtain ⟨hseq, hpcfg, hchip, hparams, hdraws, ⟨hapms, hpresc, hfsize, _⟩, hbus, hevents⟩ := h
  exact ⟨hseq, hpcfg, hchip, hparams, hdraws, ⟨hapms, hpresc, hfsize, fun _ => rfl⟩,
    hbus.trans (List.prefix_append _ _), hevents⟩

/-- An effect on the chip alone. -/
theorem Transacted.ofChip {s : State} {c : Chip} (h : ChipTakes s.params s.c c) : Transacted s { s with c := c } :=
  ⟨rfl, rfl, h, { Lasting.refl s with }⟩

theorem chipReact_transacted (l : Lines) (effect : State → State) (s : State) (h : Transacted s (effect s)) :
    Transacted s (chipReact l effect s) := by
  rcases chipReact_cases l effect s with ⟨r, hr⟩ | ⟨_, _, he⟩
  · exact hr ▸ (Transacted.refl s).refuse r
  · exact he ▸ h

/-- The reaction to 0x20 (R217): a sector of the chip is a whole one, its capacity being a multiple of 4096. -/
theorem acceptErase_transacted (a : Word) (s : State) : Transacted s (acceptErase a s) := by
  unfold acceptErase
  split
  · exact (Transacted.refl s).refuse _
  split
  · exact (Transacted.refl s).refuse _
  next hlt =>
    refine .ofChip ⟨rfl, id, id, .inr ⟨_, rfl, rfl, fun hwf => ?_⟩⟩
    have hsize : s.params.flashSize % 4096 = 0 := by
      simp only [Params.wf, Bool.and_eq_true, beq_iff_eq] at hwf
      tauto
    have hle : a.toNat % sectorSize ≤ a.toNat := Nat.mod_le _ _
    have ha := a.isLt
    simp only [PendingOp.inChip, PendingOp.range, decide_eq_true_eq, BitVec.toNat_sub, BitVec.toNat_ofNat, sectorSize]
      at hle ⊢
    omega

/-- The reaction to 0x12 (R218). -/
theorem acceptProgram_transacted (a : Word) (d0 d1 d2 d3 : Byte) (s : State) :
    Transacted s (acceptProgram a d0 d1 d2 d3 s) := by
  unfold acceptProgram
  split
  · exact (Transacted.refl s).refuse _
  split
  · exact (Transacted.refl s).refuse _
  split
  · exact (Transacted.refl s).refuse _
  next hlt _ =>
    refine .ofChip ⟨rfl, id, id, .inr ⟨_, rfl, rfl, fun _ => ?_⟩⟩
    exact decide_eq_true (by simp only [PendingOp.range]; omega)

/-- The reaction to 0xEC (R223). -/
theorem acceptRead_transacted (a : Word) (dummy : BitVec 5) (n : Nat) (s : State) :
    Transacted s (acceptRead a dummy n s) := by
  unfold acceptRead
  split
  · exact (Transacted.refl s).refuse _
  split
  · exact (Transacted.refl s).refuse _
  · exact ⟨rfl, rfl, .refl _ _, rfl, rfl, .refl _, List.prefix_append _ _, List.prefix_append _ _⟩

theorem pollCompare_kept (b : Byte) (p : Periph) :
    PeriphKept p (pollCompare b p) ∧ (pollCompare b p).pcfg = p.pcfg := by
  rcases pollCompare_cases b p with h | ⟨d, _, _, ⟨_, h⟩ | ⟨_, h⟩⟩ <;> rw [h]
  · exact ⟨.refl _, rfl⟩
  · exact ⟨⟨id, rfl, rfl, fun _ => rfl⟩, rfl⟩
  · exact ⟨⟨id, rfl, rfl, id⟩, rfl⟩

/-- A status poll (R209, R221). -/
theorem poll_transacted (l : Lines) (op : Byte) (s : State) : Transacted s (poll l op s) := by
  cases hl : lineOk l s.c
  · rw [poll_refused l op s hl]
    exact (Transacted.refl s).refuse _
  · rw [poll_ok l op s hl]
    obtain ⟨hk, hpcfg⟩ := pollCompare_kept
      (statusByte s.params (s.params.statusReg op) s.c (Config.freeStatus s.draws)) s.p
    exact ⟨rfl, hpcfg, .refl _ _, rfl, rfl, hk, List.prefix_append _ _, List.prefix_rfl⟩

/-- Every chip opcode is a transaction (R216 to R223). -/
theorem exec_transacted (i : Instr) (s t : State) (hi : isCommand i = false) (h : exec i s = .next t) :
    Transacted s t := by
  have react (tx : BusTxn) (effect : State → State) (he : Transacted s (effect s)) :
      Transacted s (performTxn tx effect s) := (chipReact_transacted tx.ilines effect s he).finishTxn tx
  cases i with
  | chipWren => cases h; exact react _ _ (.ofChip ⟨rfl, id, id, .inl ⟨rfl, rfl⟩⟩)
  | chipSe4k a => cases h; exact react _ _ (acceptErase_transacted a s)
  | chipPp4b a d0 d1 d2 d3 => cases h; exact react _ _ (acceptProgram_transacted a d0 d1 d2 d3 s)
  | chipEqio l => cases h; exact react _ _ (.ofChip ⟨rfl, fun _ => rfl, id, .inl ⟨rfl, rfl⟩⟩)
  | chipEn4b => cases h; exact react _ _ (.ofChip ⟨rfl, id, fun _ => rfl, .inl ⟨rfl, rfl⟩⟩)
  | chipRdsrA l => cases h; exact poll_transacted l _ s
  | chipRdsrB l => cases h; exact poll_transacted l _ s
  | chipQiofr a d n => cases h; exact chipReact_transacted _ _ s (acceptRead_transacted a d n s)
  | _ => cases hi

/-- The peripheral's step is a transaction or nothing (R208 to R211). -/
theorem peripheralStep_transacted (s t : State) (h : peripheralStep s = .next t) : Transacted s t := by
  rcases peripheralStep_cases s t h with
    rfl | ⟨d, _, _, ⟨r, rfl⟩ | ⟨req, _, _, ⟨i, hi, hx⟩ | ⟨e, _, rfl⟩⟩⟩
  · exact .refl _
  · exact (Transacted.refl s).refuse r
  · exact exec_transacted i s t (decodeBus_isCommand req i hi) hx
  · unfold performUnknown
    split
    · exact (Transacted.refl s).refuse _
    · exact ((Transacted.refl s).refuse _).finishTxn _

/-- A window read is a transaction or sets the mark (R63, R65, R212). -/
theorem windowRead_transacted (a n : Nat) (rest : List HostMove) (s t : State) (h : windowRead a n rest s = .next t) :
    Transacted s t := by
  rcases windowRead_cases a n rest s t h with ⟨r, rfl⟩ | ⟨_, _, req, i, _, _, hi, hx⟩
  · exact ((Transacted.refl _).refuse r).spend
  · exact (exec_transacted i _ t (decodeBus_isCommand req i hi) hx).spend

/-! ## Register accesses -/

/-- What a write of a register other than `P.CTRL` and `P.DEVCFG` may make of the peripheral. -/
theorem writeReg_kept (r : Reg) (v : Word) (s : State) (h1 : r ≠ .ctrl) (h2 : r ≠ .devcfg) :
    PeriphKept s.p (writeReg r v s).p := by
  have descriptor (hr : r = .dlen ∨ r = .pcfg ∨ r = .addr ∨ r = .data ∨ r = .psmask ∨ r = .psmatch ∨ r = .pint) :
      PeriphKept s.p (writeReg r v s).p := by
    have hset : (setReg r v s.p).apms = s.p.apms ∧ (setReg r v s.p).presc = s.p.presc ∧
        (setReg r v s.p).fsize = s.p.fsize ∧ (setReg r v s.p).busy = s.p.busy ∧ (setReg r v s.p).live = s.p.live := by
      rcases hr with rfl | rfl | rfl | rfl | rfl | rfl | rfl <;> exact ⟨rfl, rfl, rfl, rfl, rfl⟩
    obtain ⟨hapms, hpresc, hfsize, hbusy, hlive⟩ := hset
    cases hb : s.p.busy
    · cases ha : arms r (setReg r v s.p)
      · rw [writeReg_quiet r v s hr hb ha]
        exact ⟨fun h => hapms.trans h, hpresc, hfsize, fun h => by rw [hbusy, hlive, h]⟩
      · rw [writeReg_arms r v s hr hb ha]
        exact ⟨fun h => hapms.trans h, hpresc, hfsize, fun _ => rfl⟩
    · rw [writeReg_busy r v s hr hb]
      exact .refl _
  cases r with
  | ctrl => exact absurd rfl h1
  | devcfg => exact absurd rfl h2
  | stat => exact .refl _
  | fclr => simp only [writeReg, setReg]; split <;> exact ⟨id, rfl, rfl, id⟩
  | _ => exact descriptor (by simp)

/-- A register write changes `P.PCFG` to the value written or not at all. -/
theorem writeReg_pcfg (r : Reg) (v : Word) (s : State) :
    (writeReg r v s).p.pcfg = s.p.pcfg ∨ r = .pcfg ∧ (writeReg r v s).p.pcfg = v := by
  have harm (u : State) : (arm r u).p.pcfg = u.p.pcfg := by unfold arm; split <;> rfl
  unfold writeReg
  cases r <;> simp only [setReg] <;> repeat' split
  all_goals simp [harm]

/-- What a register access may change: the peripheral and the mark. -/
structure AccessOf (m : Micro) (s u : State) : Prop where
  frame : ∃ p mark, u = { s with p := p, refused := mark }
  periph : PeriphKept s.p u.p
  reserved : (∀ k, m = .orPcfg k → k &&& pcfgReserved = 0) → s.p.pcfg &&& pcfgReserved = 0 →
    u.p.pcfg &&& pcfgReserved = 0

theorem AccessOf.unchanged (m : Micro) (s : State) : AccessOf m s s := ⟨⟨_, _, rfl⟩, .refl _, fun _ h => h⟩

theorem writeReg_access (m : Micro) (r : Reg) (v : Word) (s : State) (h1 : r ≠ .ctrl) (h2 : r ≠ .devcfg)
    (hv : r = .pcfg → (∀ k, m = .orPcfg k → k &&& pcfgReserved = 0) → s.p.pcfg &&& pcfgReserved = 0 →
      v &&& pcfgReserved = 0) : AccessOf m s (writeReg r v s) := by
  refine ⟨writeReg_frame r v s, writeReg_kept r v s h1 h2, fun hk hs => ?_⟩
  rcases writeReg_pcfg r v s with h | ⟨hr, h⟩
  · rw [h, hs]
  · rw [h, hv hr hk hs]

theorem writeEn_access (m : Micro) (b : Bool) (s : State) : AccessOf m s (writeEn b s) := by
  refine ⟨writeEn_frame b s, ?_, fun _ h => ?_⟩ <;> unfold writeEn <;> split
  · exact .refl _
  · exact ⟨id, rfl, rfl, id⟩
  · exact h
  · exact h

theorem setApms_access (m : Micro) (s : State) : AccessOf m s (setApms s) := by
  refine ⟨setApms_frame s, ?_, fun _ h => ?_⟩ <;> unfold setApms <;> split
  · exact .refl _
  · exact ⟨fun _ => rfl, rfl, rfl, id⟩
  · exact h
  · exact h

/-- A step that is no wait, call or return is a register access before the next step of the same routine. -/
theorem microStep_access (m : Micro) (f : Frame) (rest : List Frame) (s t : State)
    (hm : (∀ r, m ≠ .call r) ∧ m ≠ .ret ∧ m ≠ .spin) (h : microStep m f rest s = .next t) :
    ∃ u, AccessOf m s u ∧ t = advance f rest u := by
  have write (r : Reg) (v : Word) (h1 : r ≠ .ctrl) (h2 : r ≠ .devcfg) (h3 : r ≠ .pcfg) :
      AccessOf m s (writeReg r v s) := writeReg_access m r v s h1 h2 fun hr => absurd hr h3
  cases m with
  | en b => cases h; exact ⟨_, writeEn_access _ b s, rfl⟩
  | disableIfActive =>
    cases h
    refine ⟨_, ?_, rfl⟩
    split
    · exact writeEn_access _ false s
    · exact .unchanged _ s
  | psmask v => cases h; exact ⟨_, write _ _ (by decide) (by decide) (by decide), rfl⟩
  | psmatch v => cases h; exact ⟨_, write _ _ (by decide) (by decide) (by decide), rfl⟩
  | pint v => cases h; exact ⟨_, write _ _ (by decide) (by decide) (by decide), rfl⟩
  | apms => cases h; exact ⟨_, setApms_access _ s, rfl⟩
  | clearPcfg => cases h; exact ⟨_, writeReg_access _ _ _ s (by decide) (by decide) fun _ _ _ => by decide, rfl⟩
  | orPcfg k =>
    cases h
    refine ⟨_, writeReg_access _ _ _ s (by decide) (by decide) fun _ hk hs => ?_, rfl⟩
    rw [BitVec.and_or_distrib_right, hs, hk k rfl]
    rfl
  | dlen v => cases h; exact ⟨_, write _ _ (by decide) (by decide) (by decide), rfl⟩
  | addr v => cases h; exact ⟨_, write _ _ (by decide) (by decide) (by decide), rfl⟩
  | data v => cases h; exact ⟨_, write _ _ (by decide) (by decide) (by decide), rfl⟩
  | spin => exact absurd rfl hm.2.2
  | ackMatch => cases h; exact ⟨_, write .fclr 0x8 (by decide) (by decide) (by decide), rfl⟩
  | call r => exact absurd rfl (hm.1 r)
  | settle => cases h; exact ⟨_, .unchanged _ s, rfl⟩
  | ret => exact absurd rfl hm.2.1

/-- What an elementary step can be (R23). -/
theorem microStep_cases (m : Micro) (f : Frame) (rest : List Frame) (s t : State) (h : microStep m f rest s = .next t) :
    (m = .spin ∧ t = spin f rest s) ∨
    (∃ r, m = .call r ∧ rest.length < 2 ∧
      t = { s with seq := { s.seq with stack := startFrame r :: { f with step := f.step + 1 } :: rest } }) ∨
    (m = .ret ∧ t = { s with seq := { s.seq with stack := rest } }) ∨
    (((∀ r, m ≠ .call r) ∧ m ≠ .ret ∧ m ≠ .spin) ∧ ∃ u, AccessOf m s u ∧ t = advance f rest u) := by
  by_cases hspin : m = .spin
  · subst hspin; cases h; exact .inl ⟨rfl, rfl⟩
  by_cases hret : m = .ret
  · subst hret; cases h; exact .inr (.inr (.inl ⟨rfl, rfl⟩))
  by_cases hcall : ∃ r, m = .call r
  · obtain ⟨r, rfl⟩ := hcall
    simp only [microStep] at h
    split at h
    · next hlt => cases h; exact .inr (.inl ⟨r, rfl, hlt, rfl⟩)
    · cases h
  · have hm : (∀ r, m ≠ .call r) ∧ m ≠ .ret ∧ m ≠ .spin := ⟨fun r hr => hcall ⟨r, hr⟩, hret, hspin⟩
    exact .inr (.inr (.inr ⟨hm, microStep_access m f rest s t hm h⟩))

/-- Every configuration a routine writes has the reserved bits of `P.PCFG` zero (R38, R97). -/
theorem routineSteps_reserved (r : Routine) (p : Params) (x : Latches) (k : Word)
    (h : .orPcfg k ∈ routineSteps r p x) : k &&& pcfgReserved = 0 := by
  have low (op : Byte) : op.setWidth 32 &&& pcfgReserved = 0 := by revert op; decide
  have mapped (d : BitVec 5) : (0x03003FEC ||| (d.setWidth 32 <<< 18)) &&& pcfgReserved = 0 := by revert d; decide
  cases r with
  | ws op mask pattern =>
    obtain rfl | rfl : k = kPoll ∨ k = op.setWidth 32 := by simpa [routineSteps, wsSteps] using h
    exacts [by decide, low op]
  | we =>
    obtain rfl | rfl : k = kWren ∨ k = opcWren.setWidth 32 := by simpa [routineSteps, weSteps] using h
    exacts [by decide, low _]
  | er =>
    obtain rfl | rfl : k = kErase ∨ k = opcSe.setWidth 32 := by simpa [routineSteps, erSteps] using h
    exacts [by decide, low _]
  | pw =>
    obtain rfl | rfl : k = kProgram ∨ k = opcPp4b.setWidth 32 := by simpa [routineSteps, pwSteps] using h
    exacts [by decide, low _]
  | eq =>
    obtain rfl | rfl : k = kQuad ∨ k = opcEqio.setWidth 32 := by simpa [routineSteps, eqSteps] using h
    exacts [by decide, low _]
  | e4 =>
    obtain rfl | rfl : k = kAddr4 ∨ k = opcEn4b.setWidth 32 := by simpa [routineSteps, e4Steps] using h
    exacts [by decide, low _]
  | mm =>
    obtain rfl | rfl : k = kMapped p ∨ k = kMappedMode := by simpa [routineSteps, mmSteps] using h
    exacts [mapped _, by decide]

end Sys2Proof.Machine

/-! SUPPORT. What one agent's step keeps: the lasting facts, what it may make of the chip, and the relations between
fields (`Basic`). -/

namespace Sys2Proof.Machine

/-! ## The sequencer -/

/-- What no elementary step touches. -/
structure MicroFrame (s t : State) : Prop where
  x : t.seq.x = s.seq.x
  phase : t.seq.phase = s.seq.phase
  params : t.params = s.params
  bus : t.bus = s.bus
  moves : t.moves = s.moves
  draws : t.draws = s.draws
  periph : PeriphKept s.p t.p

/-- An elementary step leaves the chip and the host's events, but for the Timeout of a wait. -/
theorem microStep_frame {m : Micro} {f : Frame} {rest : List Frame} {s t : State}
    (h : microStep m f rest s = .next t) :
    MicroFrame s t ∧ (m = .spin ∧ t = timeout f s ∨ t.c = s.c ∧ t.events = s.events) := by
  rcases microStep_cases m f rest s t h with
    ⟨hm, ht⟩ | ⟨r, _, _, rfl⟩ | ⟨_, rfl⟩ | ⟨_, u, ⟨⟨p, mark, rfl⟩, hk, _⟩, rfl⟩
  · rcases spin_cases f rest s with ⟨_, hs⟩ | ⟨_, _, hs⟩ | ⟨_, n, _, _, hs⟩ | ⟨_, n, _, _, hs⟩ <;> rw [ht, hs]
    · exact ⟨⟨rfl, rfl, rfl, rfl, rfl, rfl, .refl _⟩, .inr ⟨rfl, rfl⟩⟩
    · exact ⟨⟨rfl, rfl, rfl, rfl, rfl, rfl, .refl _⟩, .inr ⟨rfl, rfl⟩⟩
    · exact ⟨⟨rfl, rfl, rfl, rfl, rfl, rfl, .refl _⟩, .inr ⟨rfl, rfl⟩⟩
    · exact ⟨⟨rfl, rfl, rfl, rfl, rfl, rfl, .refl _⟩, .inl ⟨hm, rfl⟩⟩
  · exact ⟨⟨rfl, rfl, rfl, rfl, rfl, rfl, .refl _⟩, .inr ⟨rfl, rfl⟩⟩
  · exact ⟨⟨rfl, rfl, rfl, rfl, rfl, rfl, .refl _⟩, .inr ⟨rfl, rfl⟩⟩
  · exact ⟨⟨rfl, rfl, rfl, rfl, rfl, rfl, hk⟩, .inr ⟨rfl, rfl⟩⟩

theorem microStep_lasting {m : Micro} {f : Frame} {rest : List Frame} {s t : State}
    (h : microStep m f rest s = .next t) : Lasting s t := by
  obtain ⟨hf, ⟨_, rfl⟩ | ⟨_, hev⟩⟩ := microStep_frame h
  · exact ⟨rfl, rfl, .refl _, List.prefix_rfl, List.prefix_append _ _⟩
  · exact ⟨hf.params, hf.draws, hf.periph, hf.bus ▸ List.prefix_rfl, hev ▸ List.prefix_rfl⟩

/-! ## Every agent -/

/-- What a step of agent `a` can be: the access of a window, a transaction or nothing; the acceptance of a command word;
`done`; an elementary step of the top frame; the completion of the pending operation; power-on reset. -/
inductive StepOf (a : Agent) (s : State) : State → Prop
  | transacted {t : State} (h : Transacted s t) : StepOf a s t
  | accepted {t : State} (w : CmdWord) (rest : List HostMove) (ha : a = .host) (hm : s.moves = .command w :: rest)
    (hp : portReady s = true) (h : Accepted w { s with moves := rest } t) : StepOf a s t
  | finished (ha : a = .sequencer) (hact : s.seq.active = true) (hst : s.seq.stack = []) : StepOf a s (commandDone s)
  | micro {t : State} (f : Frame) (rest : List Frame) (m : Micro) (ha : a = .sequencer) (hact : s.seq.active = true)
    (hst : s.seq.stack = f :: rest) (hm : (routineSteps f.routine s.params s.seq.x)[f.step]? = some m)
    (h : microStep m f rest s = .next t) : StepOf a s t
  | completed (op : PendingOp) (ha : a = .chip) (hc : s.seq.cause ≠ 3) (hw : s.c.wip = true)
    (hop : s.c.pending = some op) (hin : op.inChip s.params = true) : StepOf a s (completed op s)
  | reset (h : resetsNext a s) : StepOf a s (powerOnReset { s with moves := s.moves.tail })

theorem hostStep_stepOf {s t : State} (h : hostStep s = .next t) : StepOf .host s t := by
  rcases hostStep_cases s t h with rfl | ⟨w, rest, hm, hp, _⟩ | ⟨a, n, rest, _, hr⟩ | ⟨_, _, _, rest, _, rfl⟩ |
    ⟨rest, _, rfl⟩ | ⟨rest, hm, rfl⟩
  · exact .transacted (.refl _)
  · obtain ⟨u, hu, ha⟩ := presentCommand_ready w rest s hp
    rw [hostStep, hm] at h
    cases hu.symm.trans h
    exact .accepted w rest rfl hm hp ha
  · exact .transacted (windowRead_transacted a n rest s t hr)
  · exact .transacted ((Transacted.refl _).refuse _).spend
  · exact .transacted (Transacted.refl { s with moves := rest }).spend
  · have hreset : resetsNext .host s := ⟨rfl, by simp [hm]⟩
    simpa [hm] using StepOf.reset hreset

/-- What the chip's own step can be (R222, R243). -/
theorem chipStep_cases {s t : State} (h : chipStep s = .next t) :
    t = s ∨ s.seq.cause ≠ 3 ∧
      ∃ op, s.c.wip = true ∧ s.c.pending = some op ∧ op.inChip s.params = true ∧ t = completed op s := by
  by_cases hc : s.seq.cause = 3
  · rw [chipStep_expired s hc] at h
    cases h
    exact .inl rfl
  · rw [chipStep_of s hc] at h
    rcases completePending_cases s t h with ⟨rfl, _⟩ | hop
    · exact .inl rfl
    · exact .inr ⟨hc, hop⟩

/-- The inversion of an agent's step. -/
theorem agentStep_stepOf {a : Agent} {s t : State} (h : agentStep a s = .next t) : StepOf a s t := by
  cases a with
  | host => exact hostStep_stepOf h
  | sequencer =>
    rcases sequencerStep_cases s t h with ⟨_, rfl⟩ | ⟨hact, hst, rfl⟩ | ⟨f, rest, m, hact, hst, hm, hstep⟩
    · exact .transacted (.refl _)
    · exact .finished rfl hact hst
    · exact .micro f rest m rfl hact hst hm hstep
  | peripheral => exact .transacted (peripheralStep_transacted s t h)
  | chip =>
    rcases chipStep_cases h with rfl | ⟨hc, op, hw, hop, hin, rfl⟩
    · exact .transacted (.refl _)
    · exact .completed op rfl hc hw hop hin

theorem Accepted.lasting {w : CmdWord} {s t : State} (h : Accepted w s t) : Lasting s t := by
  cases h with
  | illegal | outOfPhase => exact ⟨rfl, rfl, .refl _, List.prefix_rfl, List.prefix_append _ _⟩
  | start => exact { Lasting.refl s with }

/-- Acceptance leaves the chip. -/
theorem Accepted.chip {w : CmdWord} {s t : State} (h : Accepted w s t) : t.c = s.c := by
  cases h <;> rfl

/-- The host's power-on reset. -/
theorem agentStep_reset {a : Agent} {s : State} (h : resetsNext a s) :
    agentStep a s = .next (powerOnReset { s with moves := s.moves.tail }) := by
  obtain ⟨rfl, hm⟩ := h
  obtain ⟨rest, hm⟩ := List.head?_eq_some_iff.mp hm
  simp [agentStep, hostStep, hm]

/-- The facts that only power-on reset undoes. -/
theorem agentStep_lasting {a : Agent} {s t : State} (h : agentStep a s = .next t) (hn : ¬ resetsNext a s) :
    Lasting s t := by
  cases agentStep_stepOf h with
  | transacted ht => exact ht.lasting
  | accepted w rest _ _ _ hacc => exact { hacc.lasting with }
  | finished => exact ⟨rfl, rfl, .refl _, List.prefix_rfl, List.prefix_append _ _⟩
  | micro f rest m _ _ _ _ hstep => exact microStep_lasting hstep
  | completed => exact { Lasting.refl s with }
  | reset hr => exact absurd hr hn

/-- What a step makes of the chip: what an instruction may, the completion of the pending operation, the unknown chip
of a Timeout, or the reset one. -/
theorem agentStep_chip {a : Agent} {s t : State} (h : agentStep a s = .next t) :
    ChipTakes s.params s.c t.c ∨
    (a = .chip ∧ s.seq.cause ≠ 3 ∧
      ∃ op, s.c.wip = true ∧ s.c.pending = some op ∧ op.inChip s.params = true ∧ t = completed op s) ∨
    (a = .sequencer ∧ t.seq.cause = 3 ∧ t.c = unknownChip s) ∨
    (resetsNext a s ∧ t = powerOnReset { s with moves := s.moves.tail }) := by
  have same (hc : t.c = s.c) : ChipTakes s.params s.c t.c := hc ▸ .refl _ _
  cases agentStep_stepOf h with
  | transacted ht => exact .inl ht.chip
  | accepted w rest _ _ _ hacc => exact .inl (same hacc.chip)
  | finished => exact .inl (.refl _ _)
  | micro f rest m ha _ _ _ hstep =>
    obtain ⟨_, ⟨_, rfl⟩ | ⟨hc, _⟩⟩ := microStep_frame hstep
    · exact .inr (.inr (.inl ⟨ha, rfl, rfl⟩))
    · exact .inl (same hc)
  | completed op ha hc hw hop hin => exact .inr (.inl ⟨ha, hc, op, hw, hop, hin, rfl⟩)
  | reset hr => exact .inr (.inr (.inr ⟨hr, rfl⟩))

/-- Only the host changes the latches (R20). -/
theorem agentStep_x {a : Agent} {s t : State} (h : agentStep a s = .next t) (ha : a ≠ .host) :
    t.seq.x = s.seq.x := by
  cases agentStep_stepOf h with
  | transacted ht => exact congrArg Seq.x ht.seq
  | accepted _ _ hhost => exact absurd hhost ha
  | finished | completed => rfl
  | micro f rest m _ _ _ _ hstep => exact (microStep_frame hstep).1.x
  | reset hr => exact absurd hr.1 ha

/-- Where no command executes only the host changes the sequencer. -/
theorem agentStep_seq_of_idle {a : Agent} {s t : State} (h : agentStep a s = .next t) (ha : a ≠ .host)
    (hidle : s.seq.active = false) : t.seq = s.seq := by
  cases agentStep_stepOf h with
  | transacted ht => exact ht.seq
  | accepted _ _ hhost => exact absurd hhost ha
  | finished _ hact => exact Bool.noConfusion (hidle.symm.trans hact)
  | micro f rest m _ hact => exact Bool.noConfusion (hidle.symm.trans hact)
  | completed => rfl
  | reset hr => exact absurd hr.1 ha

/-! ## The relations between fields -/

/-- The relations of `Basic` inside the sequencer. -/
structure SeqBasic (p : Params) (q : Seq) : Prop where
  fault_cause : q.fault = false ↔ q.cause = 0
  fault_idle : q.fault = true → q.active = false
  idle_stack : q.active = false → q.stack = []
  depth : q.stack.length ≤ 3
  spin_bound : ∀ n, p.spinLimit = some n → q.spincnt < n
  spin_absent : p.spinLimit = none → q.spincnt = 0

theorem Basic.seqBasic {s : State} (h : Basic s) : SeqBasic s.params s.seq := { h with }

theorem SeqBasic.restack {p : Params} {q : Seq} (h : SeqBasic p q) (ha : q.active = true) (st : List Frame)
    (hd : st.length ≤ 3) : SeqBasic p { q with stack := st } :=
  { h with
    idle_stack := fun hf => absurd (ha.symm.trans hf) (by decide)
    depth := hd }

theorem SeqBasic.respin {p : Params} {q : Seq} (h : SeqBasic p q) (n : Nat)
    (hb : ∀ k, p.spinLimit = some k → n < k) (ha : p.spinLimit = none → n = 0) : SeqBasic p { q with spincnt := n } :=
  { h with
    spin_bound := hb
    spin_absent := ha }

theorem SeqBasic.raise {p : Params} {q : Seq} (h : SeqBasic p q) (k : BitVec 2) (hk : k ≠ 0) :
    SeqBasic p { q with fault := true, cause := k, stack := [], active := false } :=
  { h with
    fault_cause := ⟨fun hf => (Bool.noConfusion hf), fun hc => absurd hc hk⟩
    fault_idle := fun _ => rfl
    idle_stack := fun _ => rfl
    depth := Nat.zero_le _ }

/-- A spin bound is at least 1 (R10). -/
theorem Params.wf_spinLimit {p : Params} (h : p.wf = true) (n : Nat) (hn : p.spinLimit = some n) : 0 < n := by
  have hne : p.spinLimit ≠ some 0 := by
    simp only [Params.wf, Bool.and_eq_true, bne_iff_ne] at h
    tauto
  exact Nat.pos_of_ne_zero fun h0 => hne (hn.trans (h0 ▸ rfl))

theorem SeqBasic.clearSpin {p : Params} {q : Seq} (h : SeqBasic p q) (hp : p.wf = true) :
    SeqBasic p { q with spincnt := 0 } := h.respin 0 (Params.wf_spinLimit hp) fun _ => rfl

theorem spin_seqBasic {f : Frame} {rest : List Frame} {s : State} (h : SeqBasic s.params s.seq)
    (hp : s.params.wf = true) (ha : s.seq.active = true) (hst : s.seq.stack = f :: rest) :
    SeqBasic s.params (spin f rest s).seq := by
  have hd := h.depth
  rw [hst, List.length_cons] at hd
  rcases spin_cases f rest s with ⟨_, hs⟩ | ⟨_, _, hs⟩ | ⟨_, n, hn, hlt, hs⟩ | ⟨_, n, _, _, hs⟩ <;> rw [hs]
  · exact (h.clearSpin hp).restack ha _ hd
  · exact h
  · exact h.respin _ (fun k hk => by cases hn.symm.trans hk; exact hlt) fun hno => by cases hn.symm.trans hno
  · exact h.raise causeTimeout (by decide)

theorem microStep_seqBasic {m : Micro} {f : Frame} {rest : List Frame} {s t : State} (h : SeqBasic s.params s.seq)
    (hp : s.params.wf = true) (ha : s.seq.active = true) (hst : s.seq.stack = f :: rest)
    (hm : microStep m f rest s = .next t) : SeqBasic s.params t.seq := by
  have hd := h.depth
  rw [hst, List.length_cons] at hd
  rcases microStep_cases m f rest s t hm with
    ⟨_, rfl⟩ | ⟨r, _, hlt, rfl⟩ | ⟨_, rfl⟩ | ⟨_, u, ⟨⟨p, mark, rfl⟩, _, _⟩, rfl⟩
  · exact spin_seqBasic h hp ha hst
  · exact h.restack ha _ (by simp only [List.length_cons]; omega)
  · exact h.restack ha _ (by omega)
  · exact h.restack ha _ hd

theorem Accepted.seqBasic {w : CmdWord} {s t : State} (ha : Accepted w s t) (h : SeqBasic s.params s.seq)
    (hp : s.params.wf = true) (hready : portReady s = true) : SeqBasic s.params t.seq := by
  have hf := ((portReady_iff s).mp hready).2
  cases ha with
  | illegal => exact { h.raise causeIllegal (by decide) with }
  | outOfPhase => exact { h.raise causePrecondition (by decide) with }
  | start =>
    exact { h.clearSpin hp with
      fault_idle := fun hft => absurd (hf.symm.trans hft) (by decide)
      idle_stack := fun hno => Bool.noConfusion hno
      depth := by simp [started] }

/-- The sequencer's own relations after every step but power-on reset. -/
theorem agentStep_seqBasic {a : Agent} {s t : State} (hB : Basic s) (h : agentStep a s = .next t)
    (hn : ¬ resetsNext a s) : SeqBasic s.params t.seq := by
  have hS := hB.seqBasic
  cases agentStep_stepOf h with
  | transacted ht => exact ht.seq ▸ hS
  | accepted w rest _ _ hp hacc => exact hacc.seqBasic hS hB.params hp
  | finished _ _ hst =>
    exact { hS with
      fault_idle := fun _ => rfl
      idle_stack := fun _ => hst }
  | micro f rest m _ hact hst _ hstep => exact microStep_seqBasic hS hB.params hact hst hstep
  | completed => exact hS
  | reset hr => exact absurd hr hn

/-- A wait leaves the peripheral. -/
theorem spin_p (f : Frame) (rest : List Frame) (s : State) : (spin f rest s).p = s.p := by
  rcases spin_cases f rest s with ⟨_, hs⟩ | ⟨_, _, hs⟩ | ⟨_, n, _, _, hs⟩ | ⟨_, n, _, _, hs⟩ <;> rw [hs] <;> rfl

/-- The reserved bits of `P.PCFG` stay zero (R38). -/
theorem agentStep_reserved {a : Agent} {s t : State} (hB : Basic s) (h : agentStep a s = .next t)
    (hn : ¬ resetsNext a s) : t.p.pcfg &&& pcfgReserved = 0 := by
  have hR := hB.reserved
  cases agentStep_stepOf h with
  | transacted ht => rw [ht.pcfg, hR]
  | accepted w rest _ _ _ hacc => cases hacc <;> exact hR
  | finished | completed => exact hR
  | micro f rest m _ _ _ hk hstep =>
    rcases microStep_cases m f rest s t hstep with ⟨_, rfl⟩ | ⟨r, _, _, rfl⟩ | ⟨_, rfl⟩ | ⟨_, u, hu, rfl⟩
    · rw [spin_p, hR]
    · exact hR
    · exact hR
    · exact hu.reserved (fun k hmk => routineSteps_reserved _ _ _ _ (List.mem_of_getElem? (hmk ▸ hk))) hR
  | reset hr => exact absurd hr hn

/-- The relations of `Basic` inside the chip. -/
structure ChipBasic (p : Params) (c : Chip) : Prop where
  wip_pending : c.wip = c.pending.isSome
  pending_range : ∀ op, c.pending = some op → op.inChip p = true
  flash : Memory.wf p c.flash = true

theorem ChipTakes.basic {p : Params} {c d : Chip} (h : ChipTakes p c d) (hp : p.wf = true) (hc : ChipBasic p c) :
    ChipBasic p d := by
  rcases h.pending with ⟨hw, hop⟩ | ⟨op, hw, hop, hin⟩
  · exact ⟨by rw [hw, hop, hc.wip_pending], fun o ho => hc.pending_range o (hop ▸ ho), h.flash ▸ hc.flash⟩
  · refine ⟨by rw [hw, hop]; rfl, fun o ho => ?_, h.flash ▸ hc.flash⟩
    cases hop.symm.trans ho
    exact hin hp

theorem Basic.chipBasic {s : State} (h : Basic s) : ChipBasic s.params s.c := { h with }

/-- The chip's own relations after every step. -/
theorem agentStep_chipBasic {a : Agent} {s t : State} (hB : Basic s) (h : agentStep a s = .next t) :
    ChipBasic s.params t.c := by
  rcases agentStep_chip h with hc | ⟨_, _, op, _, _, hin, rfl⟩ | ⟨_, _, hc⟩ | ⟨_, rfl⟩
  · exact hc.basic hB.params hB.chipBasic
  · exact ⟨rfl, (fun _ ho => nomatch ho), apply_wf s.params op s.c.flash hB.flash hin⟩
  · exact hc ▸ ⟨unknownChip_wip s, unknownChip_pending s hB.params, loseBytes_wf _ s hB.flash⟩
  · exact ⟨rfl, (fun _ ho => nomatch ho), loseBytes_wf _ s hB.flash⟩

/-- The relations between fields after power-on reset. -/
theorem powerOnReset_basic {s : State} (hp : s.params.wf = true) (hf : Memory.wf s.params s.c.flash = true) :
    Basic (powerOnReset s) where
  params := hp
  busy_live := rfl
  wip_pending := rfl
  pending_range := fun _ ho => nomatch ho
  flash := loseBytes_wf _ s hf
  reserved := BitVec.zero_and
  fault_cause := iff_of_true rfl rfl
  fault_idle := fun _ => rfl
  idle_stack := fun _ => rfl
  depth := Nat.zero_le _
  spin_bound := Params.wf_spinLimit hp
  spin_absent := fun _ => rfl

theorem agentStep_basic {a : Agent} {s t : State} (hB : Basic s) (h : agentStep a s = .next t) : Basic t := by
  by_cases hn : resetsNext a s
  · cases (agentStep_reset hn).symm.trans h
    exact powerOnReset_basic (s := { s with moves := s.moves.tail }) hB.params hB.flash
  · have hL := agentStep_lasting h hn
    have hc := agentStep_chipBasic hB h
    have hs := agentStep_seqBasic hB h hn
    rw [← hL.params] at hc hs
    exact { hc, hs with
      params := hL.params ▸ hB.params
      busy_live := hL.periph.busy_live hB.busy_live
      reserved := agentStep_reserved hB h hn }

/-! ## The counted step -/

/-- `t` is `u` after the redraw of an unknown chip and the count of the step. -/
structure Counted (u t : State) : Prop where
  params : t.params = u.params
  seq : t.seq = u.seq
  p : t.p = u.p
  c : t.c = (unsettle u).c
  bus : t.bus = u.bus
  refused : t.refused = u.refused
  events : t.events = u.events

theorem Counted.chip_of {u t : State} (h : Counted u t) (hc : u.seq.cause ≠ 3) : t.c = u.c := by
  rw [h.c, unsettle_of u hc]

theorem Counted.chip_expired {u t : State} (h : Counted u t) (hc : u.seq.cause = 3) : t.c = unknownChip u := by
  rw [h.c, unsettle_c u hc]

/-- A step that answers a next state is the agent's own, counted. -/
theorem stepAs_counted {a : Agent} {s t : State} (h : stepAs a s = .next t) :
    ∃ u, agentStep a s = .next u ∧ Counted u t := by
  obtain ⟨_, u, hu, rfl⟩ := stepAs_cases a s t h
  exact ⟨u, hu, by constructor <;> simp⟩

end Sys2Proof.Machine

namespace Sys2Proof.Proofs

open Sys2Proof.Machine

/-- Settles O56: the chip's, the peripheral's and the sequencer's relations are kept each by its own lemma, and by the
redraw of a chip of which nothing is known. -/
theorem basicKept : Obligations.BasicKept := by
  intro a s t hB h
  obtain ⟨_, u, hu, rfl⟩ := stepAs_cases a s t h
  exact { basic_unsettle (agentStep_basic hB hu) with }

end Sys2Proof.Proofs

/-! SUPPORT. The position of the sequencer, Flash through a completion, a Timeout and a power-on reset, and the
statements about one step that follow. -/

namespace Sys2Proof.Machine

/-- A step of an unmarked machine is the agent's own, counted. -/
theorem stepAs_unmarked {a : Agent} {s : State} (h : s.refused = none) : stepAs a s = tick (agentStep a s) := by
  simp [stepAs, h]

theorem hostStep_command {w : CmdWord} {rest : List HostMove} {s : State} (hm : s.moves = .command w :: rest) :
    hostStep s = presentCommand w rest s := by
  rw [hostStep, hm]

/-- The host presents a command word: the step of an unmarked machine. -/
theorem stepAs_command {w : CmdWord} {rest : List HostMove} {s : State} (hr : s.refused = none)
    (hm : s.moves = .command w :: rest) : stepAs .host s = tick (presentCommand w rest s) := by
  rw [stepAs_unmarked hr, agentStep, hostStep_command hm]

theorem presentCommand_busy (w : CmdWord) (rest : List HostMove) {s : State} (hp : portReady s = false) :
    presentCommand w rest s = .next s := by
  simp [presentCommand, hp]

/-! ## The position -/

/-- How an elementary step moves the position (R23). -/
theorem microStep_position {m : Micro} {f : Frame} {rest : List Frame} {s t : State} (hst : s.seq.stack = f :: rest)
    (h : microStep m f rest s = .next t) :
    (∀ r, m = .call r → t.seq.stack = ⟨r, 0⟩ :: ⟨f.routine, f.step + 1⟩ :: rest) ∧
    (m = .ret → t.seq.stack = rest) ∧
    (m = .spin → readBusy s = false → t.seq.stack = ⟨f.routine, f.step + 1⟩ :: rest) ∧
    (m = .spin → readBusy s = true → t.seq.stack = f :: rest ∨ (t.seq.stack = [] ∧ t.seq.cause = 3)) ∧
    ((∀ r, m ≠ .call r) → m ≠ .ret → m ≠ .spin → t.seq.stack = ⟨f.routine, f.step + 1⟩ :: rest) := by
  rcases microStep_cases m f rest s t h with ⟨rfl, ht⟩ | ⟨r, rfl, _, rfl⟩ | ⟨rfl, rfl⟩ | ⟨⟨h1, h2, h3⟩, u, _, rfl⟩
  · rcases spin_cases f rest s with ⟨hb, hs⟩ | ⟨hb, _, hs⟩ | ⟨hb, n, _, _, hs⟩ | ⟨hb, n, _, _, hs⟩ <;>
      simp [ht, hs, hb, hst, causeTimeout]
  · simp [startFrame]
  · simp
  · simp [h1, h2, h3]

/-! ## Flash and power-on reset -/

/-- The array after a pending operation is the old one outside the operation's bytes (R47, R222). -/
theorem apply_read_outside (p : Params) (op : PendingOp) (m : Memory) (b : Nat)
    (h : b < op.range.1 ∨ op.range.1 + op.range.2 ≤ b) :
    Memory.read p.launchByte (op.apply p m) b = Memory.read p.launchByte m b := by
  cases op with
  | erase | program =>
    simp only [PendingOp.range] at h
    simp only [PendingOp.apply, Memory.read_setRun]
    exact if_neg (by omega)

/-- What is pending is no part of `unverified` where a Timeout stands. -/
theorem unverified_expired {s : State} (h : s.seq.cause = 3) :
    unverified s = s.seq.x.addressed ++ s.p.live.toList.flatMap Descriptor.addressed := by
  rw [unverified, if_pos ((expired_iff s).mpr h), List.append_nil]

/-- A byte no lost run holds is as before. -/
theorem flashByte_loseBytes (runs : List (Nat × Nat)) (s t : State) (b : Nat) (hp : t.params = s.params)
    (hf : t.c.flash = loseBytes runs s) (h : ∀ r ∈ runs, b < r.1 ∨ r.1 + r.2 ≤ b) : flashByte t b = flashByte s b := by
  rw [flashByte, hp, hf, read_loseBytes_of runs s b h, flashByte]

/-- The bytes a power-on reset leaves unknown, by what stands. -/
theorem powerOnReset_flash (s : State) (m : List HostMove) (h : s.refused = none) :
    (powerOnReset { s with moves := m }).c.flash =
      loseBytes (if s.seq.cause = 3 then unverified s else if s.c.wip then pendingRuns s else []) s := by
  simp only [powerOnReset, powerOn_c, Chip.reset, lostAtReset, h, Option.isSome_none, Bool.false_eq_true, if_false,
    expired_iff]
  rfl

/-- How a power-on reset of an unmarked machine changes Flash, byte by byte (R54, R267, R287). -/
theorem flashByte_powerOnReset (s : State) (m : List HostMove) (h : s.refused = none) (a : Nat) :
    flashByte (powerOnReset { s with moves := m }) a =
      if (∃ r ∈ if s.seq.cause = 3 then unverified s else if s.c.wip then pendingRuns s else [],
          r.1 ≤ a ∧ a < r.1 + r.2) ∧ a < s.params.flashSize
      then Config.lostByte s.draws a else flashByte s a := by
  rw [flashByte, powerOnReset_flash s m h]
  exact read_loseBytes _ s a

theorem pendingRuns_some {s : State} {op : PendingOp} (h : s.c.pending = some op) : pendingRuns s = [op.range] := by
  simp [pendingRuns, h]

theorem pendingRuns_none {s : State} (h : s.c.pending = none) : pendingRuns s = [] := by
  simp [pendingRuns, h]

/-- While a Timeout stands only the unverified bytes change: those of the step that took it and those of the redraw. -/
theorem flashByte_of_timeout {a : Agent} {s u t : State} (hn : ¬ resetsNext a s) (hu : agentStep a s = .next u)
    (ht : Counted u t) (hc : u.seq.cause = 3) (b : Nat)
    (hb : ∀ r ∈ unverified s ++ unverified t, b < r.1 ∨ r.1 + r.2 ≤ b) : flashByte t b = flashByte s b := by
  have hL := agentStep_lasting hu hn
  have hut : unverified t = unverified u := by
    rw [unverified_expired hc, unverified_expired (ht.seq ▸ hc), ht.seq, ht.p]
  rw [hut] at hb
  have hbu : flashByte t b = flashByte u b :=
    flashByte_loseBytes _ u t b ht.params (congrArg Chip.flash (ht.chip_expired hc)) fun r hr =>
      hb r (List.mem_append_right _ hr)
  rw [hbu]
  rcases agentStep_chip hu with hch | ⟨_, hcs, op, _, _, _, rfl⟩ | ⟨_, _, hch⟩ | ⟨hr, _⟩
  · rw [flashByte, hL.params, hch.flash, flashByte]
  · exact absurd hc hcs
  · exact flashByte_loseBytes _ s u b hL.params (congrArg Chip.flash hch) fun r hr => hb r (List.mem_append_left _ hr)
  · exact absurd hr hn

end Sys2Proof.Machine

namespace Sys2Proof.Proofs

open Sys2Proof.Machine

/-- Settles O50: reset writes every register, and Flash is lost in the runs that stand (`flashByte_powerOnReset`). -/
theorem powerOnResetEffect : Obligations.PowerOnResetEffect := by
  intro s rest hm
  refine ⟨powerOnReset { s with moves := rest }, stepAs_reset s rest hm, rfl, rfl, rfl, rfl, rfl, rfl, rfl, rfl, rfl,
    rfl, rfl, rfl, fun hr hc hw => ?_, fun hr hc a => ?_, fun hr hc hw op hop hin a => ?_⟩
  · rw [powerOnReset_flash s rest hr, if_neg hc, hw]
    rfl
  · rw [flashByte_powerOnReset s rest hr, if_pos hc]
  · have hin : op.range.1 + op.range.2 ≤ s.params.flashSize := of_decide_eq_true hin
    rw [flashByte_powerOnReset s rest hr, if_neg hc, if_pos hw, pendingRuns_some hop]
    simp only [List.mem_singleton, exists_eq_left]
    congr 1
    simp only [eq_iff_iff]
    omega

/-- The clauses of O48 for power-on reset, by what stands before it. -/
theorem flash_of_reset {a : Agent} {s u t : State} (hn : resetsNext a s) (hu : agentStep a s = .next u)
    (ht : Counted u t) :
    t.c.flash = s.c.flash ∨
    (∃ op, s.seq.cause ≠ 3 ∧ s.c.pending = some op ∧ s.c.wip = true ∧
      (∀ b, b < op.range.1 ∨ op.range.1 + op.range.2 ≤ b → flashByte t b = flashByte s b) ∧
      ((a = .chip ∧ t.c.flash = op.apply s.params s.c.flash) ∨ resetsNext a s)) ∨
    (t.seq.cause = 3 ∧ ∀ b, (∀ r ∈ unverified s ++ unverified t, b < r.1 ∨ r.1 + r.2 ≤ b) →
      flashByte t b = flashByte s b) ∨
    (s.seq.cause = 3 ∧ resetsNext a s ∧ ∀ b, (∀ r ∈ unverified s, b < r.1 ∨ r.1 + r.2 ≤ b) →
      flashByte t b = flashByte s b) ∨
    (resetsNext a s ∧ s.refused ≠ none) := by
  cases (agentStep_reset hn).symm.trans hu
  cases hr : s.refused with
  | some r => exact .inr (.inr (.inr (.inr ⟨hn, by simp⟩)))
  | none =>
    have hfl := (congrArg Chip.flash (ht.chip_of (by simp [powerOnReset, Seq.reset]))).trans (powerOnReset_flash s _ hr)
    by_cases hcause : s.seq.cause = 3
    · rw [if_pos hcause] at hfl
      exact .inr (.inr (.inr (.inl ⟨hcause, hn, fun b => flashByte_loseBytes _ s t b ht.params hfl⟩)))
    rw [if_neg hcause] at hfl
    cases hw : s.c.wip
    · rw [hw] at hfl
      exact .inl hfl
    · rw [hw, if_pos rfl] at hfl
      cases hop : s.c.pending with
      | none =>
        rw [pendingRuns_none hop] at hfl
        exact .inl hfl
      | some op =>
        rw [pendingRuns_some hop] at hfl
        refine .inr (.inl ⟨op, hcause, rfl, rfl, fun b hb => ?_, .inr hn⟩)
        exact flashByte_loseBytes _ s t b ht.params hfl (by simpa using hb)

/-- Settles O48: a step keeps Flash, or is the chip's completion, or leaves a Timeout standing, or is power-on reset. -/
theorem flashChangesOnlyByCompletion : Obligations.FlashChangesOnlyByCompletion := by
  intro a s t h
  obtain ⟨u, hu, ht⟩ := stepAs_counted h
  by_cases hn : resetsNext a s
  · exact flash_of_reset hn hu ht
  · have hL := agentStep_lasting hu hn
    have hparams := ht.params.trans hL.params
    by_cases hcause : u.seq.cause = 3
    · exact .inr (.inr (.inl ⟨ht.seq ▸ hcause, fun b hb => flashByte_of_timeout hn hu ht hcause b hb⟩))
    · have hct := ht.chip_of hcause
      rcases agentStep_chip hu with hc | ⟨ha, hcs, op, hw, hop, _, rfl⟩ | ⟨_, hc3, _⟩ | ⟨hr, _⟩
      · exact .inl (hct ▸ hc.flash)
      · refine .inr (.inl ⟨op, hcs, hop, hw, fun b hb => ?_, .inl ⟨ha, congrArg Chip.flash hct⟩⟩)
        rw [flashByte, hparams, hct]
        exact apply_read_outside s.params op s.c.flash b hb
      · exact absurd hc3 hcause
      · exact absurd hr hn

/-- Settles O53, by what every agent's step but power-on reset keeps and by what it may make of the chip. -/
theorem lastingFacts : Obligations.LastingFacts := by
  intro a s t h
  obtain ⟨u, hu, ht⟩ := stepAs_counted h
  rw [ht.seq, ht.params, ht.p, ht.bus, ht.events]
  by_cases hn : resetsNext a s
  · cases (agentStep_reset hn).symm.trans hu
    exact ⟨rfl, ⟨[], (List.append_nil _).symm⟩, fun hno => absurd hn hno⟩
  · obtain ⟨hparams, hdraws, hper, ⟨l, hl⟩, e, he⟩ := agentStep_lasting hu hn
    refine ⟨hparams, ⟨e, he.symm⟩, fun _ => ⟨fun hc => ?_, fun hc => ?_, hper.apms, hper.presc, hper.fsize, l, hl.symm⟩⟩
    · rw [ht.chip_of hc]
      rcases agentStep_chip hu with hch | ⟨_, _, op, _, _, _, rfl⟩ | ⟨_, hc3, _⟩ | ⟨hr, _⟩
      · exact ⟨hch.quad, hch.addr4⟩
      · exact ⟨id, id⟩
      · exact absurd hc3 hc
      · exact absurd hr hn
    · rw [ht.chip_expired hc, ← hdraws]
      exact ⟨rfl, rfl, rfl, rfl⟩

/-- Settles O28: of the steps an agent can take only acceptance and reset load the latches. -/
theorem latchesChangeAtAcceptance : Obligations.LatchesChangeAtAcceptance := by
  intro a s t h
  obtain ⟨u, hu, hcounted⟩ := stepAs_counted h
  rw [hcounted.seq]
  by_cases ha : a = .host
  · subst ha
    cases agentStep_stepOf hu with
    | transacted ht => exact .inl (congrArg Seq.x ht.seq)
    | accepted w rest _ hm hp hacc => exact .inr (.inl ⟨rfl, w, rest, hm, hp, by cases hacc <;> rfl⟩)
    | reset hr => exact .inr (.inr ⟨hr, rfl⟩)
    | finished hno => cases hno
    | micro _ _ _ hno => cases hno
    | completed _ hno => cases hno
  · exact .inl (agentStep_x hu ha)

/-- Settles O51: every command's meaning is an acceptance, and an acceptance has three outcomes. -/
theorem commandFrame : Obligations.CommandFrame := by
  intro i s t hi h
  obtain ⟨x, r, hx⟩ := exec_command i hi
  cases (hx s).symm.trans h
  rcases acceptCommand_cases x r s with ⟨_, he⟩ | ⟨_, _, he⟩ | ⟨hp, _, he⟩ <;> rw [he]
  · exact ⟨rfl, rfl, fun _ => rfl, rfl, rfl, rfl, rfl, rfl, rfl, rfl, fun _ => ⟨rfl, rfl⟩⟩
  · exact ⟨rfl, rfl, fun _ => rfl, rfl, rfl, rfl, rfl, rfl, rfl, rfl, fun _ => ⟨rfl, rfl⟩⟩
  · refine ⟨rfl, rfl, fun _ => rfl, rfl, rfl, rfl, rfl, rfl, rfl, rfl, fun hf => ?_⟩
    exact Bool.noConfusion (show true = false from hf.trans ((portReady_iff s).mp hp).2)

/-- Settles O24: the position by the cases of the step, the rest by what no elementary step touches. -/
theorem stepMovesThePosition : Obligations.StepMovesThePosition := by
  intro m f rest s t hst h
  obtain ⟨hcall, hret, hpass, hwait, helse⟩ := microStep_position hst h
  obtain ⟨hf, hchip⟩ := microStep_frame h
  refine ⟨hcall, hret, hpass, hwait, helse, hf.x, hf.phase, hf.bus, hf.params, hf.moves, ?_⟩
  rcases hchip with ⟨hm, rfl⟩ | ⟨hc, he⟩
  · exact ⟨fun hno => absurd ⟨_, rfl⟩ hno, fun _ => ⟨hm, rfl, rfl⟩⟩
  · refine ⟨fun _ => ⟨hc, fun a => by rw [flashByte, hf.params, hc, flashByte], he⟩, fun ⟨info, hi⟩ => ?_⟩
    simp [he] at hi

/-- Settles O9, by the outcomes of an acceptance on a ready port. -/
theorem commandPortRules : Obligations.CommandPortRules := by
  refine ⟨fun s w rest hr hm => ⟨fun hbusy => ?_, fun ha hf => ?_⟩, fun s hr ha hst => ?_, rfl⟩
  · have hp : portReady s = false := by
      rw [← Bool.not_eq_true, portReady_iff]
      rcases hbusy with h | h <;> simp [h]
    rw [stepAs_command hr hm, presentCommand_busy w rest hp]
  · obtain ⟨t, ht, hacc⟩ := presentCommand_ready w rest s ((portReady_iff s).mpr ⟨ha, hf⟩)
    rw [stepAs_command hr hm, ht]
    cases hacc with
    | illegal hl =>
      exact ⟨fun _ => rfl, fun h => Bool.noConfusion (hl.symm.trans h), fun h => Bool.noConfusion (hl.symm.trans h)⟩
    | outOfPhase hl hp =>
      exact ⟨fun h => Bool.noConfusion (h.symm.trans hl), fun _ _ => rfl, fun _ h => Bool.noConfusion (hp.symm.trans h)⟩
    | start hl hp r hx =>
      exact ⟨fun h => Bool.noConfusion (h.symm.trans hl), fun _ h => Bool.noConfusion (h.symm.trans hp),
        fun _ _ => ⟨r, hx, rfl⟩⟩
  · rw [stepAs_unmarked hr, agentStep, sequencerStep, if_pos ha, hst]
    rfl

end Sys2Proof.Proofs

/-! SUPPORT. The step that runs a decoded word, the phases, and the machine after power-on reset. -/

namespace Sys2Proof.Machine

/-! ## Where a table word runs -/

theorem eq_ok_of_toOption {e : Except DecodeError Instr} {i : Instr} (h : e.toOption = some i) : e = .ok i := by
  cases e with
  | error => cases h
  | ok j => exact congrArg _ (Option.some.inj h)

theorem presentCommand_decoded {w : CmdWord} (rest : List HostMove) {s : State} {i : Instr} (hp : portReady s = true)
    (h : decodeCommand w = .ok i) : presentCommand w rest s = exec i { s with moves := rest } := by
  rw [presentCommand, if_pos hp, h]

/-- A placed command word is the host's next move on a ready port. -/
theorem step_placeCommand (w : CmdWord) (s : State) (i : Instr) (h : decodeCommand w = .ok i) :
    step (placeCommand w s) = tick (exec i { placeCommand w s with moves := s.moves }) := by
  have hstep : step (placeCommand w s) = tick (presentCommand w s.moves (placeCommand w s)) := stepAs_command rfl rfl
  rw [hstep, presentCommand_decoded s.moves rfl h]

theorem opcodeRequest_instr (op : Byte) : (opcodeRequest op).instr = op := by
  unfold opcodeRequest
  repeat' split
  all_goals rfl

/-- An opcode the chip's decoder takes in the shape of its table row is one of the eight (R100). -/
theorem opcodeRequest_decodes {op : Byte} {i : Instr} (h : decodeBus (opcodeRequest op) = .ok i) :
    op ∈ [opcWren, opcSe, opcPp4b, opcEqio, opcEn4b, opcRead05, opcRead15, opcQread] := by
  by_contra hop
  simp only [List.mem_cons, List.not_mem_nil, or_false, not_or] at hop
  simp [decodeBus, opcodeRequest_instr, hop] at h

/-- The descriptor of a chip opcode's table row asks the bus for the request of that row (R97, R100, R103). -/
theorem requestOf_opcodeDescriptor {op : Byte}
    (h : op ∈ [opcWren, opcSe, opcPp4b, opcEqio, opcEn4b, opcRead05, opcRead15]) :
    requestOf (opcodeDescriptor op) = .ok (opcodeRequest op) ∧ pcfgFmode (opcodeDescriptor op).pcfg ≠ fmodeMapped ∧
      ¬ (pcfgFmode (opcodeDescriptor op).pcfg = fmodePoll ∧ pollShape (opcodeRequest op) = false) := by
  revert op
  decide

theorem step_placeLive {op : Byte} (s : State) {i : Instr} (h : decodeBus (opcodeRequest op) = .ok i)
    (hop : op ∈ [opcWren, opcSe, opcPp4b, opcEqio, opcEn4b, opcRead05, opcRead15]) :
    step (placeLive op s) = tick (exec i (placeLive op s)) := by
  obtain ⟨hreq, hmapped, hpoll⟩ := requestOf_opcodeDescriptor hop
  have hlive : (placeLive op s).p.live = some (opcodeDescriptor op) := rfl
  have hstep : step (placeLive op s) = tick (peripheralStep (placeLive op s)) := stepAs_unmarked rfl
  rw [hstep, peripheralStep, hlive]
  simp only [hmapped, if_false]
  rw [performLive_ok hreq hpoll h]

/-- A window read that R212 enables runs the instruction the configured request decodes to. -/
theorem windowRead_served {a n : Nat} (rest : List HostMove) {s : State} {req : BusReq} {i : Instr}
    (hin : inWindow s.params a n = true) (hph : s.seq.phase = .p3Mmap) (hact : s.seq.active = false)
    (hen : s.p.en = true) (hmode : pcfgFmode s.p.pcfg = fmodeMapped)
    (hreq : windowRequest s.p.pcfg (BitVec.ofNat 32 (a - s.params.mmapBase)) n = .ok req) (haddr : req.addr ≠ none)
    (hd : decodeBus req = .ok i) : windowRead a n rest s = exec i { s with moves := rest } := by
  simp [windowRead, hin, hph, hact, hen, hmode, hreq, haddr, hd]

theorem step_placeWindowRead (s : State) (hp : s.params.wf = true) {i : Instr}
    (h : decodeBus (opcodeRequest opcQread) = .ok i) :
    step (placeWindowRead s) = tick (exec i { placeWindowRead s with moves := s.moves }) := by
  have hstep : step (placeWindowRead s) = tick (windowRead s.params.mmapBase 1 s.moves (placeWindowRead s)) :=
    stepAs_unmarked rfl
  have hin : inWindow s.params s.params.mmapBase 1 = true := by
    have hsize : 0 < s.params.flashSize := by
      simp only [Params.wf, Bool.and_eq_true, decide_eq_true_eq] at hp
      tauto
    simp only [inWindow, Bool.and_eq_true, decide_eq_true_eq]
    omega
  have hmapped : pcfgFmode 0x0F003FEC = fmodeMapped := by decide
  have hreq : windowRequest 0x0F003FEC (BitVec.ofNat 32 (s.params.mmapBase - s.params.mmapBase)) 1 =
      .ok (opcodeRequest opcQread) := by
    rw [Nat.sub_self]
    decide
  rw [hstep, windowRead_served (s := placeWindowRead s) s.moves hin rfl rfl rfl hmapped hreq (by decide) h]

end Sys2Proof.Machine

namespace Sys2Proof.Proofs

open Sys2Proof.Machine

/-- Settles O5: the host's step on a command word is its presentation to the port. -/
theorem stepRunsCommandWord : Obligations.StepRunsCommandWord := by
  intro s w rest i hr hturn hm hd
  have hd : decodeCommand w = .ok i := hd
  have hstep : step s = tick (presentCommand w rest s) := by rw [step, hturn, stepAs_command hr hm]
  refine ⟨fun hp => ?_, fun hp => ?_⟩
  · rw [hstep, presentCommand_decoded rest hp hd]
  · rw [hstep, presentCommand_busy w rest hp]

/-- Settles O8, by the three places of a word: the command port, the window, the live transaction. -/
theorem placedWordRuns : Obligations.PlacedWordRuns := by
  intro s nbits w i hwf h
  unfold decodeTableWord at h
  unfold State.withFetchWord
  split at h
  · next hn =>
    simp only [hn, if_true]
    exact step_placeCommand _ s i (eq_ok_of_toOption h)
  split at h
  · next hn =>
    have hd := eq_ok_of_toOption h
    simp only [hn, if_true, show ¬ (8 = 80) by decide, if_false]
    split
    · next hop => exact step_placeWindowRead s hwf (hop ▸ hd)
    · next hop => exact step_placeLive s hd (by simpa [hop] using opcodeRequest_decodes hd)
  · cases h

/-- Settles O13: an acceptance in a legal phase starts the routine. -/
theorem commandsStartTheirRoutines : Obligations.CommandsStartTheirRoutines := by
  intro s ha hf
  have accept (x : Latches) (r : Routine) (hl : legalPhase x.op s.seq.phase = true) :
      acceptCommand x r s = started x r s := by
    rcases acceptCommand_cases x r s with ⟨hp, _⟩ | ⟨_, _, h⟩ | ⟨_, hno, _⟩
    · exact absurd (((portReady_iff s).mpr ⟨ha, hf⟩).symm.trans hp) (by decide)
    · exact h
    · exact absurd (hl.symm.trans hno) (by decide)
  refine ⟨fun hph => ⟨fun op m t => ?_, ?_⟩, fun hph => ⟨fun i => ?_, fun a d => ?_, ?_⟩, fun hph => ?_, fun hph => ?_⟩
  · exact congrArg _ (accept _ _ (by rcases hph with h | h <;> rw [h] <;> rfl))
  · exact congrArg _ (accept _ _ (by rcases hph with h | h <;> rw [h] <;> rfl))
  all_goals exact congrArg _ (accept _ _ (by rw [hph]; rfl))

/-- Settles O10: the four phases, one by one, and no command in `P3_MMAP`. -/
theorem phaseTable : Obligations.PhaseTable := by
  refine ⟨fun ph => ?_, p3_illegal, rfl⟩
  cases ph <;> decide

/-- Settles O49, item by item. -/
theorem resetValues : Obligations.ResetValues := by
  refine ⟨rfl, rfl, rfl, rfl, rfl, rfl, rfl, rfl, rfl, rfl, rfl, rfl, rfl, rfl, rfl, rfl, rfl, rfl, rfl, rfl, rfl, rfl,
    rfl, rfl, rfl, rfl, rfl, rfl, rfl⟩

/-- Settles O55: no command executes after reset, so only `Basic` and the items of `P0_RESET` speak. -/
theorem consistentAtReset : Obligations.ConsistentAtReset where
  basic := {
    params := by decide
    busy_live := rfl
    wip_pending := rfl
    pending_range := fun _ h => nomatch h
    flash := rfl
    reserved := BitVec.zero_and
    fault_cause := iff_of_true rfl rfl
    fault_idle := fun _ => rfl
    idle_stack := fun _ => rfl
    depth := Nat.zero_le _
    spin_bound := fun _ h => nomatch h
    spin_absent := fun _ => rfl }
  phase _ := ⟨fun h => absurd rfl h, fun h => by rcases h with h | h <;> cases h⟩
  idle _ _ := {
    quiet := ⟨rfl, rfl, rfl⟩
    wip := rfl
    p0 := fun _ => ⟨rfl, rfl, rfl, rfl, rfl, rfl, rfl, rfl, rfl, rfl, rfl, rfl, rfl, fun _ => rfl⟩
    indirect := fun h => by rcases h with h | h <;> cases h
    mapped := fun h => by cases h }
  active h := Bool.noConfusion h
  mapped h := by cases h

end Sys2Proof.Proofs

/-! SUPPORT. The registers of the interface and the status registers, bit by bit. -/

namespace Sys2Proof.Machine

/-! ## The registers of the interface, bit by bit -/

/-- `P.CTRL` reads back EN, APMS and PRESC as written (R33). -/
theorem ctrlWord_setReg (v : Word) (p : Periph) : ctrlWord (setReg .ctrl v p) = v &&& 0xFF400001 := by
  refine BitVec.eq_of_getLsbD_eq fun i hi => ?_
  simp only [ctrlWord, setReg, BitVec.getLsbD_or, BitVec.getLsbD_shiftLeft, BitVec.getLsbD_setWidth,
    BitVec.getLsbD_extractLsb', BitVec.getLsbD_and]
  interval_cases i <;> simp

/-- `P.DEVCFG` reads back FSIZE as written (R34). -/
theorem fsize_field (v : Word) : (v.extractLsb' 16 5).setWidth 32 <<< 16 = v &&& 0x001F0000 := by
  ext i hi
  interval_cases i <;> simp

/-- `P.PINT` reads back its sixteen bits (R44). -/
theorem pint_field (v : Word) : (v.setWidth 16).setWidth 32 = v &&& 0x0000FFFF := by
  ext i hi
  interval_cases i <;> simp

/-- The bits of `P.STAT`: SMF, BUSY as it reads, and free bits (R35). -/
theorem statWord_bit (s : State) (i : Nat) (hi : i < 32) :
    (statWord s).getLsbD i =
      if i = 3 then s.p.smf else if i = 5 then readBusy s else (Config.freeStat s.draws).getLsbD i := by
  simp only [statWord]
  interval_cases i <;> simp

/-- Starting a transaction changes what `P.STAT` reads alone. -/
theorem readReg_arm (r r' : Reg) (s : State) (h : r' ≠ .stat) : readReg r' (arm r s) = readReg r' s := by
  unfold arm
  split
  · cases r' <;> simp [readReg, ctrlWord] at h ⊢
  · rfl

/-- Setting a register leaves what every other register but `P.STAT` reads. -/
theorem readReg_setReg_other (r r' : Reg) (v : Word) (s : State) (hne : r' ≠ r) (h : r' ≠ .stat) :
    readReg r' { s with p := setReg r v s.p } = readReg r' s := by
  cases r with
  | stat => rfl
  | fclr =>
    simp only [setReg]
    split
    · cases r' <;> simp [readReg, ctrlWord] at h ⊢
    · rfl
  | _ => cases r' <;> simp [readReg, setReg, ctrlWord] at hne h ⊢

/-- A write of register `r` sets it, with a transaction started or not, or changes nothing but the mark. -/
theorem writeReg_cases (r : Reg) (v : Word) (s : State) :
    (s.p.busy = true ∧ ∃ k, writeReg r v s = refuse k s) ∨
    writeReg r v s = { s with p := setReg r v s.p } ∨
    writeReg r v s = arm r { s with p := setReg r v s.p } := by
  unfold writeReg
  split
  · exact .inr (.inl rfl)
  · exact .inr (.inl rfl)
  · exact .inr (.inl rfl)
  · split
    · next h => exact .inl ⟨by simp_all, _, rfl⟩
    split
    · next h => exact .inl ⟨by simp_all, _, rfl⟩
    · exact .inr (.inl rfl)
  all_goals
    split
    · next h => exact .inl ⟨h, _, rfl⟩
    · exact .inr (.inr rfl)

/-- Every register but `P.STAT` reads after a write to an idle peripheral what it reads with that value set. -/
theorem readReg_writeReg_idle (r r' : Reg) (v : Word) (s : State) (hb : s.p.busy = false) (h : r' ≠ .stat) :
    readReg r' (writeReg r v s) = readReg r' { s with p := setReg r v s.p } := by
  rcases writeReg_cases r v s with ⟨hbusy, _⟩ | hw | hw
  · exact absurd (hb.symm.trans hbusy) (by decide)
  · rw [hw]
  · rw [hw, readReg_arm r r' _ h]

/-- A write leaves what every other register but `P.STAT` reads. -/
theorem readReg_writeReg_other (r r' : Reg) (v : Word) (s : State) (hne : r' ≠ r) (h : r' ≠ .stat) :
    readReg r' (writeReg r v s) = readReg r' s := by
  rcases writeReg_cases r v s with ⟨_, k, hw⟩ | hw | hw <;> rw [hw]
  · cases r' <;> simp [readReg] at h ⊢
  · exact readReg_setReg_other r r' v s hne h
  · rw [readReg_arm r r' _ h, readReg_setReg_other r r' v s hne h]

/-! ## The status registers -/

/-- A bit of a status byte: a flag's, or a free one (R29). -/
theorem statusByte_bit (p : Params) (r : StatusReg) (c : Chip) (free : Byte) (i : Nat) :
    (statusByte p r c free).getLsbD i =
      (free.getLsbD i && (decide (i < 8) && !(modelledBits p r).getLsbD i) ||
        (flagBits p r c.wip c.wel c.quad c.addr4).getLsbD i) := by
  simp [statusByte]

/-- A flag reads back through a mask that lies in no other flag's bits: by one bit of the byte. -/
theorem statusByte_and (p : Params) (r : StatusReg) (c : Chip) (free mask : Byte) (flag : Bool)
    (h : ∀ i, i < 8 → mask.getLsbD i = true →
      (modelledBits p r).getLsbD i = true ∧ (flagBits p r c.wip c.wel c.quad c.addr4).getLsbD i = flag) :
    statusByte p r c free &&& mask = if flag then mask else 0 := by
  refine BitVec.eq_of_getLsbD_eq fun i hi => ?_
  cases hm : mask.getLsbD i
  · cases flag <;> simp [hm]
  · obtain ⟨h1, h2⟩ := h i hi hm
    cases flag <;> simp [statusByte, hm, h1, h2]

/-- A bit of a flag's mask, where the flag is set. -/
theorem onFlag_bit (flag : Bool) (mask : Byte) (i : Nat) : (onFlag flag mask).getLsbD i = (flag && mask.getLsbD i) := by
  cases flag <;> simp [onFlag]

/-- A bit of a status register: that of WIP and WEL in register A, of QUAD and ADDR4 in their registers (R29). -/
theorem flagBits_bit (p : Params) (r : StatusReg) (wip wel quad addr4 : Bool) (i : Nat) :
    (flagBits p r wip wel quad addr4).getLsbD i =
      (decide (r = .a) && (wip && p.wipMask.getLsbD i || wel && p.welMask.getLsbD i) ||
        decide (r = p.quadReg) && (quad && p.quadMask.getLsbD i) ||
        decide (r = p.addr4Reg) && (addr4 && p.addr4Mask.getLsbD i)) := by
  have pick (x y : StatusReg) (m : Byte) : (if x = y then m else 0).getLsbD i = (decide (x = y) && m.getLsbD i) := by
    split <;> simp [*]
  simp only [flagBits, BitVec.getLsbD_or, pick, onFlag_bit]

/-- Masks of one status register that share no bit, bit by bit. -/
theorem disjoint_bit {m n : Byte} (h : m &&& n = 0) (i : Nat) : (m.getLsbD i && n.getLsbD i) = false := by
  simpa using congrArg (·.getLsbD i) h

/-- The masks of sensible parameters, bit by bit (R29). -/
theorem Params.wf_masks {p : Params} (h : p.wf = true) (i : Nat) :
    (p.wipMask.getLsbD i && p.welMask.getLsbD i) = false ∧
    (p.quadReg = .a → (p.quadMask.getLsbD i && (p.wipMask.getLsbD i || p.welMask.getLsbD i)) = false) ∧
    (p.addr4Reg = .a → (p.addr4Mask.getLsbD i && (p.wipMask.getLsbD i || p.welMask.getLsbD i)) = false) ∧
    (p.quadReg = p.addr4Reg → (p.quadMask.getLsbD i && p.addr4Mask.getLsbD i) = false) := by
  simp only [Params.wf, Bool.and_eq_true, Bool.or_eq_true, bne_iff_ne, beq_iff_eq] at h
  obtain ⟨⟨⟨⟨_, hw⟩, hq⟩, ha⟩, hqa⟩ := h
  refine ⟨disjoint_bit hw i, fun hr => ?_, fun hr => ?_, fun hr => ?_⟩
  · simpa using disjoint_bit (hq.resolve_left (not_not_intro hr)) i
  · simpa using disjoint_bit (ha.resolve_left (not_not_intro hr)) i
  · exact disjoint_bit (hqa.resolve_left (not_not_intro hr)) i

end Sys2Proof.Machine

namespace Sys2Proof.Proofs

open Sys2Proof.Machine

/-- Settles O30: a read after a write sees the register set, and each register holds its own fields. -/
theorem registersHoldWrites : Obligations.RegistersHoldWrites := by
  intro v s
  refine ⟨fun hb => ?_, fsize_field v, fun r r' hne h => readReg_writeReg_other r r' v s hne h⟩
  have back (r : Reg) (h : r ≠ .stat) := readReg_writeReg_idle r r v s hb h
  exact ⟨back .dlen (by decide), back .addr (by decide), back .data (by decide), back .psmask (by decide),
    back .psmatch (by decide), (back .pint (by decide)).trans (pint_field v), fun _ => back .pcfg (by decide),
    (back .ctrl (by decide)).trans (ctrlWord_setReg v s.p)⟩

/-- Settles O31, by the bits of `P.STAT`. -/
theorem statusAndFlagClear : Obligations.StatusAndFlagClear := by
  refine ⟨fun v s => ⟨fun h => ?_, fun h => ?_, rfl, rfl, ?_, fun hph => ?_, fun i hi h3 h5 => ?_⟩, rfl, rfl⟩
  · simp only [writeReg, setReg, h, if_true]
  · simp only [writeReg, setReg, h, Bool.false_eq_true, if_false]
  · exact statWord_bit s 3 (by decide)
  · rw [readReg, statWord_bit s 5 (by decide)]
    simp [readBusy, hph]
  · rw [readReg, statWord_bit s i hi, if_neg h3, if_neg h5]

/-- Settles O36: bit by bit, from the disjoint masks of sensible parameters. -/
theorem statusRegisterBits : Obligations.StatusRegisterBits := by
  refine ⟨fun c free => ?_, fun p c free hp => ?_⟩
  · simp only [statusByte_bit, modelledBits, flagBits_bit]
    simp only [Params.default]
    refine ⟨by simp, by simp, by simp, by simp, fun i hi h6 h1 h0 => ?_, fun i hi h5 => ?_⟩
    · interval_cases i <;> simp at h6 h1 h0 ⊢
    · interval_cases i <;> simp at h5 ⊢
  · refine ⟨statusByte_and p _ c free _ _ fun i _ hm => ?_, statusByte_and p _ c free _ _ fun i _ hm => ?_,
      statusByte_and p _ c free _ _ fun i _ hm => ?_, statusByte_and p _ c free _ _ fun i _ hm => ?_⟩
    all_goals
      obtain ⟨hw, hq, ha, hqa⟩ := Params.wf_masks hp i
      simp only [modelledBits, flagBits_bit]
      cases hQ : p.quadReg <;> cases hA : p.addr4Reg <;> simp_all

end Sys2Proof.Proofs

/-! SUPPORT. The control-point invariant along a run of the sequencer, the peripheral and the chip (spec/46 R227), and
what such a run does to Flash. -/

namespace Sys2Proof.Machine

/-! ## The sequencer keeps the invariant -/

/-- While a command executes no fault stands. -/
theorem Basic.cause_of_active {s : State} (h : Basic s) (ha : s.seq.active = true) : s.seq.cause = 0 := by
  refine h.fault_cause.mp ?_
  cases hf : s.seq.fault
  · rfl
  · exact absurd ((h.fault_idle hf).symm.trans ha) (by decide)

/-- A command that goes on keeps the machine consistent where its control point does, and no flag of the phase is
lost. -/
theorem Consistent.of_active {s t : State} (hC : Consistent s) (hs : s.seq.active = true) (hB : Basic t)
    (ht : t.seq.active = true) (hA : ActiveOk t) (hph : t.seq.phase = s.seq.phase)
    (hapms : s.p.apms = true → t.p.apms = true) (hquad : s.c.quad = true → t.c.quad = true)
    (haddr4 : s.c.addr4 = true → t.c.addr4 = true) : Consistent t := by
  have hs3 : s.seq.cause ≠ 3 := by rw [hC.basic.cause_of_active hs]; decide
  have ht3 : t.seq.cause ≠ 3 := by rw [hB.cause_of_active ht]; decide
  exact ⟨hB, fun _ => (hC.phase hs3).congr hph hapms hquad haddr4, fun _ hno => Bool.noConfusion (ht.symm.trans hno),
    fun _ => hA, fun _ => ht3⟩

/-- A machine on which a Timeout stands is consistent where `Basic` holds and it is not in `P3_MMAP`. -/
theorem Consistent.of_timeout {t : State} (hB : Basic t) (hc : t.seq.cause = 3) (ha : t.seq.active = false)
    (hph : t.seq.phase ≠ .p3Mmap) : Consistent t :=
  ⟨hB, fun h => absurd hc h, fun h => absurd hc h, fun h => Bool.noConfusion (ha.symm.trans h), fun h => absurd h hph⟩

/-- Where a register access stands no call, return or wait does. -/
theorem access_index {l : List Micro} {k : Nat} {m : Micro} (hm : l[k]? = some m)
    (hacc : (∀ r, m ≠ .call r) ∧ m ≠ .ret ∧ m ≠ .spin) :
    (∀ r, l[k]? ≠ some (.call r)) ∧ l[k]? ≠ some .ret ∧ l[k]? ≠ some .spin := by
  simpa [hm] using hacc

/-- A register access of an executing command leads to the next control point. -/
theorem access_res {s t : State} {f : Frame} {rest : List Frame} {m : Micro} (hB : Basic s) (hA : ActiveOk s)
    (hst : s.seq.stack = f :: rest) (hm : (routineSteps f.routine s.params s.seq.x)[f.step]? = some m)
    (hacc : (∀ r, m ≠ .call r) ∧ m ≠ .ret ∧ m ≠ .spin) (h : microStep m f rest s = .next t) : StepRes s t := by
  have hbound := (hA.top f rest hst).bound
  have hat := access_index hm hacc
  obtain ⟨r, k⟩ := f
  cases r with
  | ws op mask pattern =>
    have hk : k < 12 ∧ k ≠ 9 := by
      simp only [routineSteps, wsSteps, List.length_cons, List.length_nil] at hat hbound
      interval_cases k <;> simp at hat ⊢
    exact wsStep_res op mask pattern k rest s t hB hA hst hk.1 hk.2 m hm h
  | we =>
    have hk : k < 7 ∧ k ≠ 5 := by
      simp only [routineSteps, weSteps, List.length_cons, List.length_nil] at hat hbound
      interval_cases k <;> simp at hat ⊢
    exact weStep_res k rest s t hB hA hst hk.1 hk.2 m hm h
  | er =>
    have hk : 2 ≤ k ∧ k < 9 ∧ k ≠ 7 := by
      simp only [routineSteps, erSteps, List.length_cons, List.length_nil] at hat hbound
      interval_cases k <;> simp at hat ⊢
    exact erStep_res k rest s t hB hA hst hk.1 hk.2.1 hk.2.2 m hm h
  | pw =>
    have hk : 1 ≤ k ∧ k < 11 ∧ k ≠ 8 := by
      simp only [routineSteps, pwSteps, List.length_cons, List.length_nil] at hat hbound
      interval_cases k <;> simp at hat ⊢
    exact pwStep_res k rest s t hB hA hst hk.1 hk.2.1 hk.2.2 m hm h
  | eq =>
    have hk : k < 7 ∧ k ≠ 5 := by
      simp only [routineSteps, eqSteps, List.length_cons, List.length_nil] at hat hbound
      interval_cases k <;> simp at hat ⊢
    exact eqStep_res k rest s t hB hA hst hk.1 hk.2 m hm h
  | e4 =>
    have hk : k < 7 ∧ k ≠ 5 := by
      simp only [routineSteps, e4Steps, List.length_cons, List.length_nil] at hat hbound
      interval_cases k <;> simp at hat ⊢
    exact e4Step_res k rest s t hB hA hst hk.1 hk.2 m hm h
  | mm =>
    have hk : k < 6 := by
      simp only [routineSteps, mmSteps, List.length_cons, List.length_nil] at hat hbound
      interval_cases k <;> simp at hat ⊢
    exact mmStep_res k rest s t hB hA hst hk m hm h

/-- A step of an executing command's top frame. -/
theorem microStep_consistent {s t : State} {f : Frame} {rest : List Frame} {m : Micro} (hC : Consistent s)
    (hact : s.seq.active = true) (hst : s.seq.stack = f :: rest)
    (hm : (routineSteps f.routine s.params s.seq.x)[f.step]? = some m) (h : microStep m f rest s = .next t)
    (hB : Basic t) : Consistent t := by
  have hA := hC.active hact
  have stays (ht : t.seq.active = true) (hA' : ActiveOk t) (hph : t.seq.phase = s.seq.phase) (hp : t.p = s.p)
      (hc : t.c = s.c) : Consistent t :=
    hC.of_active hact hB ht hA' hph (by rw [hp]; exact id) (by rw [hc]; exact id) (by rw [hc]; exact id)
  rcases microStep_cases m f rest s t h with ⟨rfl, ht⟩ | ⟨r, rfl, _, rfl⟩ | ⟨rfl, rfl⟩ | ⟨hacc, u, hu, ht⟩
  · rcases spin_step f rest s hC.basic hA hst hm t ht with ⟨hA', hp, hc, hph, _, hact'⟩ | ⟨hc, hact', hph⟩
    · exact stays (hact'.trans hact) hA' hph hp hc
    · refine .of_timeout hB hc hact' fun h3 => ?_
      have hl := hA.legal
      rw [hph.symm.trans h3, p3_illegal] at hl
      cases hl
  · exact stays hact (call_step f rest s r hC.basic hA hst hm) rfl rfl rfl
  · cases rest with
    | nil => exact stays hact (ret_finish f s hA hst hm) rfl rfl rfl
    | cons g rest => exact stays hact (ret_caller f g rest s hA hst hm) rfl rfl rfl
  · obtain ⟨hA', hapms, hc, hph, _⟩ := access_res hC.basic hA hst hm hacc h
    obtain ⟨⟨p, mark, rfl⟩, _, _⟩ := hu
    exact hC.of_active hact hB (ht ▸ hact) hA' hph hapms (by rw [hc]; exact id) (by rw [hc]; exact id)

theorem sequencerStep_consistent {s t : State} (hC : Consistent s) (h : sequencerStep s = .next t) (hB : Basic t) :
    Consistent t := by
  rcases sequencerStep_cases s t h with ⟨_, rfl⟩ | ⟨hact, hst, rfl⟩ | ⟨f, rest, m, hact, hst, hm, hstep⟩
  · exact hC
  · have h3 : s.seq.cause ≠ 3 := by rw [hC.basic.cause_of_active hact]; decide
    obtain ⟨hI, hP⟩ := done_step s (hC.active hact) (hC.phase h3) hst
    exact ⟨hB, fun _ => hP, fun _ _ => hI, fun hno => Bool.noConfusion hno, fun _ => h3⟩
  · exact microStep_consistent hC hact hst hm hstep hB

/-! ## The peripheral and the chip keep it -/

/-- A step that leaves a machine without an executing command as it is but for what `Basic` speaks of: a Timeout
stands. -/
theorem Consistent.of_seq {s t : State} (hC : Consistent s) (hseq : t.seq = s.seq) (hB : Basic t)
    (ha : s.seq.active = false) (hc : s.seq.cause = 3) : Consistent t :=
  .of_timeout hB (hseq ▸ hc) (hseq ▸ ha) fun h3 => hC.mapped (hseq ▸ h3) hc

theorem peripheralStep_live {s t : State} (h : peripheralStep s = .next t) :
    t = s ∨ ∃ d, s.p.live = some d ∧ performLive d s = .next t := by
  unfold peripheralStep at h
  split at h
  · cases h; exact .inl rfl
  · next d hd =>
    split at h
    · cases h; exact .inl rfl
    · exact .inr ⟨d, hd, h⟩

theorem peripheralStep_consistent {s t : State} (hC : Consistent s) (h : peripheralStep s = .next t) (hB : Basic t)
    (hr : t.refused = none) : Consistent t := by
  rcases peripheralStep_live h with rfl | ⟨d, hd, hperf⟩
  · exact hC
  cases hact : s.seq.active
  · by_cases hc : s.seq.cause = 3
    · exact hC.of_seq (peripheralStep_transacted s t h).seq hB hact hc
    · have hno := (hC.idle hc hact).quiet.live
      rw [hd] at hno
      cases hno
  · obtain ⟨hA, hseq, hapms, _, hquad, haddr4⟩ := perf_active s t d hC.basic (hC.active hact) hd hperf hr
    exact hC.of_active hact hB (hseq ▸ hact) hA (congrArg Seq.phase hseq) (by rw [hapms]; exact id) hquad haddr4

theorem chipStep_consistent {s t : State} (hC : Consistent s) (h : chipStep s = .next t) (hB : Basic t) :
    Consistent t := by
  rcases chipStep_cases h with rfl | ⟨hc, op, hw, hop, _, rfl⟩
  · exact hC
  cases hact : s.seq.active
  · exact absurd (hw.symm.trans (hC.idle hc hact).wip) (by decide)
  · exact hC.of_active hact hB hact (complete_active s op hC.basic (hC.active hact) hw hop) rfl id id id

/-- The redraw and count after a step keep a consistent machine so. -/
theorem Consistent.counted {u t : State} (hC : Consistent u) (h : Counted u t) (hB : Basic t) : Consistent t := by
  have hseq := h.seq
  by_cases hc : u.seq.cause = 3
  · cases hact : u.seq.active
    · exact hC.of_seq hseq hB hact hc
    · rw [hC.basic.cause_of_active hact] at hc
      cases hc
  · have hch := h.chip_of hc
    refine ⟨hB, fun _ => ?_, fun _ hact => ?_, fun hact => ?_, fun _ => hseq ▸ hc⟩
    · exact (hC.phase hc).congr (by rw [hseq]) (by rw [h.p]; exact id) (by rw [hch]; exact id) (by rw [hch]; exact id)
    · exact (hC.idle hc (hseq ▸ hact)).congr h.params (by rw [hseq]) h.p hch (by rw [hseq]) (fun _ => h.bus)
        fun hf => ⟨by rw [hseq], hseq ▸ hf⟩
    · exact (hC.active (hseq ▸ hact)).congr h.params (by rw [hseq]) (by rw [hseq]) (by rw [hseq]) h.p hch h.bus

/-- R227 at every control point: a step of the sequencer, the peripheral or the chip that sets no mark keeps the machine
consistent. -/
theorem stepAs_consistent {a : Agent} {s t : State} (ha : a ≠ .host) (hC : Consistent s) (h : stepAs a s = .next t)
    (hr : t.refused = none) : Consistent t := by
  obtain ⟨u, hu, hcount⟩ := stepAs_counted h
  have hB := agentStep_basic hC.basic hu
  refine Consistent.counted ?_ hcount (Proofs.basicKept a s t hC.basic h)
  cases a with
  | host => exact absurd rfl ha
  | sequencer => exact sequencerStep_consistent hC hu hB
  | peripheral => exact peripheralStep_consistent hC hu hB (hcount.refused ▸ hr)
  | chip => exact chipStep_consistent hC hu hB

/-! ## What a run without the host does to Flash -/

/-- The routine of the command stands at the bottom of a stack that is not empty (R23). -/
theorem stackOk_bottom {p : Params} {x : Latches} :
    ∀ {st : List Frame}, stackOk p x st → st ≠ [] → ∃ f ∈ st, some f.routine = routineOf x
  | [], _, h => absurd rfl h
  | [f], h, _ => ⟨f, List.mem_singleton_self f, h⟩
  | _ :: g :: rest, h, _ => by
    obtain ⟨f, hf, hx⟩ := stackOk_bottom h.2.2 (List.cons_ne_nil g rest)
    exact ⟨f, List.mem_cons_of_mem _ hf, hx⟩

/-- What an executing command has left pending is on the bytes it addresses (R215). -/
theorem ActiveOk.pending_addressed {s : State} {op : PendingOp} (hA : ActiveOk s) (hw : s.c.wip = true)
    (hop : s.c.pending = some op) : op.range ∈ s.seq.x.addressed := by
  have hst : s.seq.stack ≠ [] := fun h => Bool.noConfusion (hw.symm.trans (hA.finished h).wip)
  obtain ⟨f, hf, hx⟩ := stackOk_bottom hA.stack hst
  have hchip := hA.chip f hf
  have performed_of (hno : ¬ performed f s → s.c.wip = false) : performed f s :=
    by_contra fun h => Bool.noConfusion (hw.symm.trans (hno h))
  by_cases h3 : s.seq.x.op = 0x03
  · have hfr : f.routine = .er := by simpa [routineOf, h3] using hx
    simp only [chipOk, hfr] at hchip
    rcases hchip.2 (performed_of hchip.1) with he | ⟨hno, _⟩
    · cases hop.symm.trans he
      simp [Latches.addressed, h3, PendingOp.range]
    · cases hop.symm.trans hno
  by_cases h4 : s.seq.x.op = 0x04
  · have hfr : f.routine = .pw := by simpa [routineOf, h4] using hx
    simp only [chipOk, hfr] at hchip
    rcases hchip.2 (performed_of hchip.1) with he | ⟨hno, _⟩
    · cases hop.symm.trans he
      simp [Latches.addressed, h4, PendingOp.range]
    · cases hop.symm.trans hno
  · exact Bool.noConfusion (hw.symm.trans (hA.calm h3 h4))

/-- So it is in every consistent state on which no Timeout stands. -/
theorem Consistent.pending_addressed {s : State} {op : PendingOp} (hC : Consistent s) (hc : s.seq.cause ≠ 3)
    (hw : s.c.wip = true) (hop : s.c.pending = some op) : op.range ∈ s.seq.x.addressed := by
  cases hact : s.seq.active
  · exact absurd (hw.symm.trans (hC.idle hc hact).wip) (by decide)
  · exact (hC.active hact).pending_addressed hw hop

/-- A step of the sequencer, the peripheral or the chip that leaves no fault changes no byte but those the command
addresses. -/
theorem stepAs_flash {a : Agent} {s t : State} (ha : a ≠ .host) (hC : Consistent s) (h : stepAs a s = .next t)
    (hf : t.seq.fault = false) (b : Nat) (hb : ∀ r ∈ s.seq.x.addressed, b < r.1 ∨ r.1 + r.2 ≤ b) :
    flashByte t b = flashByte s b := by
  have hc0 : t.seq.cause = 0 := (Proofs.basicKept a s t hC.basic h).fault_cause.mp hf
  rcases Proofs.flashChangesOnlyByCompletion a s t h with
    hsame | ⟨op, hc, hop, hw, hout, _⟩ | ⟨hc, _⟩ | ⟨_, hn, _⟩ | ⟨hn, _⟩
  · rw [flashByte, (Proofs.lastingFacts a s t h).1, hsame, flashByte]
  · exact hout b (hb _ (hC.pending_addressed hc hw hop))
  · rw [hc0] at hc; cases hc
  · exact absurd hn.1 ha
  · exact absurd hn.1 ha

/-- Without the host a fault stands to the end of the run (R245). -/
theorem runAs_fault_stands {l : List Agent} {s t : State} (hl : .host ∉ l) (hB : Basic s) (h : runAs l s = .next t)
    (hf : s.seq.fault = true) : t.seq.fault = true := by
  induction l generalizing s with
  | nil => cases h; exact hf
  | cons a l ih =>
    rw [List.mem_cons, not_or] at hl
    simp only [runAs] at h
    split at h
    · next s' hs' =>
      obtain ⟨u, hu, hcount⟩ := stepAs_counted hs'
      have hseq := hcount.seq.trans (agentStep_seq_of_idle hu (Ne.symm hl.1) (hB.fault_idle hf))
      exact ih hl.2 (Proofs.basicKept a s s' hB hs') h (hseq ▸ hf)
    · cases h
    · cases h

/-- Without the host a marked machine takes no step (R252). -/
theorem runAs_marked {l : List Agent} {s t : State} (hl : .host ∉ l) (hr : s.refused ≠ none)
    (h : runAs l s = .next t) : t = s := by
  cases l with
  | nil => cases h; rfl
  | cons a l =>
    simp only [runAs] at h
    split at h
    · next s' hs' =>
      rcases (stepAs_cases a s s' hs').1 with hno | ⟨ha, _⟩
      · exact absurd hno hr
      · exact absurd (ha ▸ List.mem_cons_self) hl
    · cases h
    · cases h

/-- A run without the host that leaves no fault changes no byte but those the command addresses. -/
theorem runAs_flash {l : List Agent} {s t : State} (hl : .host ∉ l) (hC : Consistent s) (h : runAs l s = .next t)
    (hf : t.seq.fault = false) (b : Nat) (hb : ∀ r ∈ s.seq.x.addressed, b < r.1 ∨ r.1 + r.2 ≤ b) :
    flashByte t b = flashByte s b := by
  induction l generalizing s with
  | nil => cases h; rfl
  | cons a l ih =>
    rw [List.mem_cons, not_or] at hl
    simp only [runAs] at h
    split at h
    · next s' hs' =>
      have ha : a ≠ .host := Ne.symm hl.1
      have hB := Proofs.basicKept a s s' hC.basic hs'
      have hf' : s'.seq.fault = false := by
        by_contra hno
        exact Bool.noConfusion (hf.symm.trans (runAs_fault_stands hl.2 hB h (Bool.eq_true_of_not_eq_false hno)))
      have hstep := stepAs_flash ha hC hs' hf' b hb
      by_cases hr : s'.refused = none
      · obtain ⟨u, hu, hcount⟩ := stepAs_counted hs'
        have hx : s'.seq.x = s.seq.x := by rw [hcount.seq, agentStep_x hu ha]
        exact (ih hl.2 (stepAs_consistent ha hC hs' hr) h (hx ▸ hb)).trans hstep
      · rw [runAs_marked hl.2 hr h, hstep]
    · cases h
    · cases h

end Sys2Proof.Machine

namespace Sys2Proof.Proofs

open Sys2Proof.Machine

/-- Settles O22: along the run the machine stays consistent, so only what the command addresses is ever pending. -/
theorem commandsTouchOnlyTheirBytes : Obligations.CommandsTouchOnlyTheirBytes := by
  intro l s t hl hC _ h hf b
  have outside := runAs_flash hl hC h hf b
  refine ⟨fun h3 hb => outside ?_, fun h4 hb => outside ?_, fun h3 h4 => outside ?_⟩
  · simpa [Latches.addressed, h3, sectorSize] using hb
  · simpa [Latches.addressed, h4] using hb
  · simp only [Latches.addressed, if_neg h3, if_neg h4, List.not_mem_nil, false_implies, implies_true]

end Sys2Proof.Proofs

/-! SUPPORT. The end of a command on every schedule of the sequencer, the peripheral and the chip: its run goes through
`done`, and nothing moves after it. -/

namespace Sys2Proof.Machine

/-! ## The end of a command -/

/-- The peripheral, the chip and the history are as they were. -/
structure Untouched (s t : State) : Prop where
  params : t.params = s.params
  p : t.p = s.p
  c : t.c = s.c
  bus : t.bus = s.bus

/-- Nothing moves in a machine without the host once no command executes, no transaction is live and no operation is in
progress. -/
theorem agentStep_at_rest {a : Agent} {s : State} (ha : a ≠ .host) (hact : s.seq.active = false)
    (hlive : s.p.live = none) (hwip : s.c.wip = false) : agentStep a s = .next s := by
  cases a with
  | host => exact absurd rfl ha
  | sequencer => simp [agentStep, sequencerStep, hact]
  | peripheral => simp [agentStep, peripheralStep, hlive]
  | chip => simp [agentStep, chipStep, completePending, hwip]

/-- A run without the host leaves such a machine at rest. -/
theorem runAs_at_rest {l : List Agent} {s t : State} (hl : .host ∉ l) (hC : s.seq.cause ≠ 3)
    (hact : s.seq.active = false) (hlive : s.p.live = none) (hwip : s.c.wip = false) (h : runAs l s = .next t) :
    t.seq = s.seq ∧ Untouched s t := by
  induction l generalizing s with
  | nil => cases h; exact ⟨rfl, rfl, rfl, rfl, rfl⟩
  | cons a l ih =>
    rw [List.mem_cons, not_or] at hl
    simp only [runAs] at h
    split at h
    · next s' hs' =>
      obtain ⟨u, hu, hcount⟩ := stepAs_counted hs'
      rw [agentStep_at_rest (Ne.symm hl.1) hact hlive hwip] at hu
      cases hu
      have hc := hcount.chip_of hC
      obtain ⟨hseq, hparams, hp, hc', hbus⟩ := ih hl.2 (hcount.seq ▸ hC) (hcount.seq ▸ hact) (hcount.p ▸ hlive)
        (hc ▸ hwip) h
      exact ⟨hseq.trans hcount.seq, hparams.trans hcount.params, hp.trans hcount.p, hc'.trans hc, hbus.trans hcount.bus⟩
    · cases h
    · cases h

/-- What each command guarantees of the machine its `done` leaves (spec/20 R72). -/
structure Guaranteed (x : Latches) (t : State) : Prop where
  quiet : Quiet t
  busy : t.p.busy = false
  wip : t.c.wip = false
  pending : t.c.pending = none
  polled : x.op = 0x01 → lastPollMatched x.c (x.a.setWidth 8) (x.b.setWidth 8) t
  latched : x.op = 0x02 → t.c.wel = true
  erased : x.op = 0x03 → t.c.wel = false ∧ sectorErased x.a t
  programmed : x.op = 0x04 → t.c.wel = false ∧ wordProgrammed x.a x.b t
  quad : x.op = 0x05 → t.c.quad = true
  addr4 : x.op = 0x06 → t.c.addr4 = true
  mapped : x.op = 0x07 → t.p.en = true ∧ t.p.pcfg = kMapped t.params ||| kMappedMode

/-- A guarantee speaks of the peripheral, the chip and the history. -/
theorem Guaranteed.of_untouched {x : Latches} {s t : State} (h : Guaranteed x s) (hu : Untouched s t) :
    Guaranteed x t := by
  obtain ⟨hparams, hp, hc, hbus⟩ := hu
  obtain ⟨⟨hlive, hsmf, hdlen⟩, busy, wip, pending, polled, latched, erased, programmed, quad, addr4, mapped⟩ := h
  constructor
  · exact ⟨hp ▸ hlive, hp ▸ hsmf, hp ▸ hdlen⟩
  all_goals
    simp only [lastPollMatched, sectorErased, wordProgrammed, hparams, hp, hc, hbus]
    assumption

/-- No operation is pending once the routine has returned, so the erase or program under way has been applied. -/
theorem FinishedOk.guaranteed {s : State} (hB : Basic s) (h : FinishedOk s) : Guaranteed s.seq.x s := by
  have hpending : s.c.pending = none := by
    rw [← Option.isNone_iff_eq_none, ← Option.not_isSome, ← hB.wip_pending, h.wip]
    rfl
  have applied {op : PendingOp} {P : Prop} (hP : s.c.pending = some op ∨ s.c.pending = none ∧ P) : P :=
    hP.elim (fun hno => nomatch hno.symm.trans hpending) And.right
  exact {
    quiet := h.quiet
    busy := by rw [hB.busy_live, h.quiet.live]; rfl
    wip := h.wip
    pending := hpending
    polled := fun hop => h.polled _ _ _ (by simp [routineOf, hop])
    latched := h.latched
    erased := fun hop => applied (h.erased hop).1
    programmed := fun hop => applied (h.programmed hop).1
    quad := fun hop => (h.quad hop).1
    addr4 := h.addr4
    mapped := h.mapped }

/-- A step of the sequencer, the peripheral or the chip after which no command executes and no fault stands is
`done`. -/
theorem agentStep_done {a : Agent} {s t : State} (ha : a ≠ .host) (hact : s.seq.active = true)
    (h : agentStep a s = .next t) (hidle : t.seq.active = false) (hf : t.seq.fault = false) :
    s.seq.stack = [] ∧ t = commandDone s := by
  have goes_on (ht : t.seq.active = s.seq.active) : s.seq.stack = [] ∧ t = commandDone s :=
    Bool.noConfusion (hidle.symm.trans (ht.trans hact))
  cases agentStep_stepOf h with
  | transacted ht => exact goes_on (congrArg Seq.active ht.seq)
  | accepted _ _ hhost => exact absurd hhost ha
  | finished _ _ hst => exact ⟨hst, rfl⟩
  | micro f rest m _ _ _ _ hstep =>
    rcases microStep_cases m f rest s t hstep with
      ⟨_, ht⟩ | ⟨r, _, _, rfl⟩ | ⟨_, rfl⟩ | ⟨_, u, ⟨⟨p, mark, rfl⟩, _, _⟩, rfl⟩
    · rcases spin_cases f rest s with ⟨_, hs⟩ | ⟨_, _, hs⟩ | ⟨_, n, _, _, hs⟩ | ⟨_, n, _, _, hs⟩ <;> rw [hs] at ht
      · exact goes_on (ht ▸ rfl)
      · exact goes_on (ht ▸ rfl)
      · exact goes_on (ht ▸ rfl)
      · rw [ht] at hf; cases hf
    · exact goes_on rfl
    · exact goes_on rfl
    · exact goes_on rfl
  | completed => exact goes_on rfl
  | reset hr => exact absurd hr.1 ha

/-- What a run without the host leaves of a command that has ended without a fault or a mark. -/
structure Ended (s t : State) : Prop where
  params : t.params = s.params
  x : t.seq.x = s.seq.x
  phase : t.seq.phase = nextPhase s.seq.x.op s.seq.phase
  guaranteed : Guaranteed s.seq.x t

/-- `done` ends the command, and nothing moves after it. -/
theorem ended_of_done {l : List Agent} {s s' t : State} (hl : .host ∉ l) (hC : Consistent s)
    (hact : s.seq.active = true) (hst : s.seq.stack = []) (hcount : Counted (commandDone s) s')
    (h : runAs l s' = .next t) : Ended s t := by
  have hc : s.seq.cause ≠ 3 := by rw [hC.basic.cause_of_active hact]; decide
  have hch : s'.c = s.c := hcount.chip_of hc
  have hseq := hcount.seq
  have hG : Guaranteed s.seq.x s := ((hC.active hact).finished hst).guaranteed hC.basic
  obtain ⟨hrest, hu⟩ := runAs_at_rest hl (hseq ▸ hc) (by rw [hseq]; rfl) (by rw [hcount.p]; exact hG.quiet.live)
    (by rw [hch]; exact hG.wip) h
  have hdone : Untouched s s' := ⟨hcount.params, hcount.p, hch, hcount.bus⟩
  have hend := hrest.trans hseq
  exact ⟨hu.params.trans hdone.params, by rw [hend]; rfl, by rw [hend]; rfl,
    (hG.of_untouched hdone).of_untouched hu⟩

/-- Without the host only `done`, after which no command executes, moves the phase (R25). -/
theorem agentStep_phase {a : Agent} {s t : State} (ha : a ≠ .host)
    (h : agentStep a s = .next t) (ht : t.seq.active = true) : t.seq.phase = s.seq.phase := by
  cases agentStep_stepOf h with
  | transacted hT => exact congrArg Seq.phase hT.seq
  | accepted _ _ hhost => exact absurd hhost ha
  | finished => cases ht
  | micro f rest m _ _ _ _ hstep => exact (microStep_frame hstep).1.phase
  | completed => rfl
  | reset hr => exact absurd hr.1 ha

/-- A run without the host that ends a command, without a fault or a mark, has gone through its `done`. -/
theorem runAs_ended {l : List Agent} {s t : State} (hl : .host ∉ l) (hC : Consistent s) (hact : s.seq.active = true)
    (h : runAs l s = .next t) (hr : t.refused = none) (hidle : t.seq.active = false) (hf : t.seq.fault = false) :
    Ended s t := by
  induction l generalizing s with
  | nil => cases h; exact Bool.noConfusion (hidle.symm.trans hact)
  | cons a l ih =>
    rw [List.mem_cons, not_or] at hl
    have ha : a ≠ .host := Ne.symm hl.1
    simp only [runAs] at h
    split at h
    · next s' hs' =>
      obtain ⟨u, hu, hcount⟩ := stepAs_counted hs'
      have hr' : s'.refused = none := by
        by_contra hno
        exact hno (runAs_marked hl.2 hno h ▸ hr)
      have hC' := stepAs_consistent ha hC hs' hr'
      have hf' : s'.seq.fault = false := by
        by_contra hno
        exact Bool.noConfusion
          (hf.symm.trans (runAs_fault_stands hl.2 hC'.basic h (Bool.eq_true_of_not_eq_false hno)))
      cases hact' : s'.seq.active
      · obtain ⟨hst, rfl⟩ := agentStep_done ha hact hu (hcount.seq ▸ hact') (hcount.seq ▸ hf')
        exact ended_of_done hl.2 hC hact hst hcount h
      · obtain ⟨hparams, hx, hphase, hG⟩ := ih hl.2 hC' hact' h
        have hx' : s'.seq.x = s.seq.x := by rw [hcount.seq, agentStep_x hu ha]
        have hphase' : s'.seq.phase = s.seq.phase := by
          rw [hcount.seq, agentStep_phase ha hu (hcount.seq ▸ hact')]
        rw [hx'] at hx hphase hG
        rw [hphase'] at hphase
        exact ⟨hparams.trans (Proofs.lastingFacts a s s' hs').1, hx, hphase, hG⟩
    · cases h
    · cases h

end Sys2Proof.Machine

namespace Sys2Proof.Proofs

open Sys2Proof.Machine

/-- Settles O21: the run goes through `done` (`runAs_ended`), whose control point gives the guarantees. -/
theorem doneGuarantees : Obligations.DoneGuarantees := by
  intro l s t hl hC hact h hr hidle hf
  obtain ⟨hparams, hx, hphase, ⟨⟨hlive, hsmf, hdlen⟩, hbusy, hwip, hpending, polled, latched, erased, programmed, quad,
    addr4, mapped⟩⟩ := runAs_ended hl hC hact h hr hidle hf
  exact ⟨hx, hphase, hwip, hpending, hbusy, hlive, hsmf, hdlen, polled, latched, erased, programmed, quad, addr4,
    hparams ▸ mapped⟩

end Sys2Proof.Proofs

/-! SUPPORT. The host's access of the window, Flash after activation, and a word programmed over erased bytes. -/

namespace Sys2Proof.Machine

/-! ## The window -/

theorem hostStep_read {a n : Nat} {rest : List HostMove} {s : State} (hm : s.moves = .read a n :: rest) :
    hostStep s = windowRead a n rest s := by
  rw [hostStep, hm]

theorem hostStep_write {a n : Nat} {v : Word} {rest : List HostMove} {s : State}
    (hm : s.moves = .write a n v :: rest) : hostStep s = windowWrite a rest s := by
  rw [hostStep, hm]

/-! ## Flash after activation -/

/-- No command executes in `P3_MMAP` (R25). -/
theorem Consistent.idle_of_mapped {s : State} (hC : Consistent s) (hph : s.seq.phase = .p3Mmap) :
    s.seq.active = false := by
  cases hact : s.seq.active
  · rfl
  · have hl := (hC.active hact).legal
    rw [hph, p3_illegal] at hl
    cases hl

/-- A Timeout stands after a step only where it stood before or a command executed. -/
theorem agentStep_cause {a : Agent} {s t : State} (h : agentStep a s = .next t) (hidle : s.seq.active = false)
    (hc : t.seq.cause = 3) : s.seq.cause = 3 := by
  cases agentStep_stepOf h with
  | transacted ht => exact ht.seq ▸ hc
  | accepted w rest _ _ _ hacc =>
    cases hacc with
    | illegal | outOfPhase => cases hc
    | start => exact hc
  | finished _ hact => exact Bool.noConfusion (hidle.symm.trans hact)
  | micro _ _ _ _ hact => exact Bool.noConfusion (hidle.symm.trans hact)
  | completed => exact hc
  | reset => cases hc

/-! ## Words in Flash -/

/-- A byte of a programmed word over an erased byte (R60, R222). -/
theorem apply_program_erased (p : Params) (a d : Word) (m : Memory) (k : Nat) (hk : k < 4)
    (h : Memory.read p.launchByte m (a.toNat + k) = 0xFF) :
    Memory.read p.launchByte
      ((PendingOp.program a (wordByte d 0) (wordByte d 1) (wordByte d 2) (wordByte d 3)).apply p m) (a.toNat + k) =
      wordByte d k := by
  have hbyte : [wordByte d 0, wordByte d 1, wordByte d 2, wordByte d 3].getD k 0 = wordByte d k := by
    interval_cases k <;> rfl
  simp only [PendingOp.apply, Memory.read_setRun]
  rw [if_pos (by omega), h, Nat.add_sub_cancel_left, hbyte]
  exact BitVec.allOnes_and

/-- Bytes `j` to `j + n` of a word make its part above bit `8 * j`, bit by bit (R60). -/
theorem littleEndian_wordBytes (d : Word) (n j i : Nat) :
    (littleEndian ((List.range' j n).map (wordByte d))).getLsbD i =
      (decide (i < 32) && decide (i < 8 * n) && d.getLsbD (8 * j + i)) := by
  induction n generalizing j i with
  | zero => simp [littleEndian]
  | succ n ih =>
    simp only [List.range'_succ, List.map_cons, littleEndian, BitVec.getLsbD_or, BitVec.getLsbD_setWidth,
      BitVec.getLsbD_shiftLeft, wordByte, BitVec.getLsbD_extractLsb', ih]
    by_cases hi : i < 8
    · simp [hi, show i < 8 * (n + 1) by omega]
    · have hbit : 8 * (j + 1) + (i - 8) = 8 * j + i := by omega
      have hin : i - 8 < 8 * n ↔ i < 8 * (n + 1) := by omega
      have hword : i < 32 → i - 8 < 32 := by omega
      by_cases h : i < 32 <;> simp [hi, h, hbit, hin, hword]

/-- Part of a programmed word reads back over erased bytes (R60). -/
theorem readBytes_programmed (p : Params) (a d : Word) (m : Memory)
    (h : ∀ k, k < 4 → Memory.read p.launchByte m (a.toNat + k) = 0xFF) (j n : Nat) (hn : j + n ≤ 4) :
    Memory.readBytes p.launchByte
      ((PendingOp.program a (wordByte d 0) (wordByte d 1) (wordByte d 2) (wordByte d 3)).apply p m) (a.toNat + j) n =
      (List.range' j n).map (wordByte d) := by
  rw [Memory.readBytes, List.range'_eq_map_range, List.map_map]
  refine List.map_congr_left fun k hk => ?_
  have hk : j + k < 4 := by have := List.mem_range.mp hk; omega
  rw [Nat.add_assoc, apply_program_erased p a d m (j + k) hk (h _ hk), Function.comp_apply]

end Sys2Proof.Machine

namespace Sys2Proof.Proofs

open Sys2Proof.Machine

/-- Settles O7: the host's step on a read is the window's, and R212 enables it. -/
theorem stepRunsWindowRead : Obligations.StepRunsWindowRead := by
  intro s a n rest r i hr hturn hm hin hph hact hen hmode hreq haddr hd
  have hstep : step s = tick (hostStep s) := by rw [step, hturn, stepAs_unmarked hr, agentStep]
  rw [hstep, hostStep_read hm, windowRead_served rest hin hph hact hen hmode hreq haddr hd]

/-- Settles O46, by the branches of the window's access. -/
theorem unsupportedWindowAccess : Obligations.UnsupportedWindowAccess := by
  intro s a n v rest hr
  refine ⟨fun hm hin => ?_, fun hm hin hearly => ?_⟩
  · rw [stepAs_unmarked hr, agentStep, hostStep_write hm, windowWrite, if_pos hin]
  · rw [stepAs_unmarked hr, agentStep, hostStep_read hm, windowRead, if_neg (by simp [hin]), if_pos hearly]

/-- Settles O47: in `P3_MMAP` no operation is in progress, and no Timeout stands before or after the step. -/
theorem flashConstantAfterActivation : Obligations.FlashConstantAfterActivation := by
  intro a s t hC hph h hn
  have hidle := hC.idle_of_mapped hph
  have hc := hC.mapped hph
  obtain ⟨u, hu, hcount⟩ := stepAs_counted h
  rcases flashChangesOnlyByCompletion a s t h with hsame | ⟨_, _, _, hw, _⟩ | ⟨h3, _⟩ | ⟨h3, _⟩ | ⟨hreset, _⟩
  · exact hsame
  · exact Bool.noConfusion (hw.symm.trans (hC.idle hc hidle).wip)
  · exact absurd (agentStep_cause hu hidle (hcount.seq ▸ h3)) hc
  · exact absurd h3 hc
  · exact absurd hreset hn

/-- Settles O44: the bytes read are the word's (`readBytes_programmed`), and make it bit by bit. -/
theorem programmedWordReadsBack : Obligations.ProgrammedWordReadsBack := by
  intro p m a d h m'
  have back (j n : Nat) (hn : j + n ≤ 4) :
      Memory.readBytes p.launchByte m' (a.toNat + j) n = (List.range' j n).map (wordByte d) :=
    readBytes_programmed p a d m h j n hn
  have low (i : Nat) (hi : i < 32) : (0xFF : Word).getLsbD i = decide (i < 8) := by revert i; decide
  refine ⟨BitVec.eq_of_getLsbD_eq fun i hi => ?_, BitVec.eq_of_getLsbD_eq fun i hi => ?_,
    BitVec.eq_of_getLsbD_eq fun i hi => ?_⟩
  · rw [show Memory.readBytes _ m' a.toNat 4 = _ from back 0 4 (by decide), littleEndian_wordBytes]
    simp [hi]
  · rw [show Memory.readBytes _ m' a.toNat 1 = _ from back 0 1 (by decide), littleEndian_wordBytes,
      BitVec.getLsbD_and, low i hi]
    simp [hi, Bool.and_comm]
  · rw [back 2 2 (by decide), littleEndian_wordBytes, BitVec.getLsbD_ushiftRight]
    by_cases h16 : i < 16
    · simp [hi, h16]
    · simp [h16, BitVec.getLsbD_of_ge d (16 + i) (by omega)]

end Sys2Proof.Proofs

/-! SUPPORT. What a step of a consistent machine can be where no Timeout stands: every agent answers, with no mark but
those the rules let it meet, and only the host's access outside the window stops. -/

namespace Sys2Proof.Machine

/-! ## Marks a consistent machine meets -/

/-- The refusals a consistent machine can meet: of the chip, an operation beyond it or across a page and a request
without a meaning; of the window, a write and a read before activation (R65, R214 to R218, R224). -/
def Refusal.met (r : Refusal) : Prop :=
  r = .eraseOutOfRange ∨ r = .programOutOfRange ∨ r = .programPageCross ∨ r = .unknownOpcode ∨
    r = .undefinedTransaction ∨ r = .windowWrite ∨ r = .windowReadEarly

/-- The state's mark, if it is set, is one a consistent machine can meet. -/
def MarkMet (s : State) : Prop := ∀ r, s.refused = some r → r.met

/-- A step answers a next state, and with no mark but those. -/
def Answers (o : Host.Outcome State Fault Refusal) : Prop := ∃ t, o = .next t ∧ MarkMet t

theorem MarkMet.of_unmarked {s : State} (h : s.refused = none) : MarkMet s := fun _ hr => nomatch h.symm.trans hr

theorem markMet_refuse {r : Refusal} {s : State} (h : s.refused = none) (hr : r.met) : MarkMet (refuse r s) := by
  intro k hk
  rw [refuse_refused, h] at hk
  cases hk
  exact hr

theorem rejection_met (e : DecodeError) : (rejection e).met := by
  cases e <;> simp [rejection, Refusal.met]

/-! ## The chip's reactions -/

/-- A transaction on the right lines, to a chip with nothing in progress, is marked by its effect alone. -/
theorem performTxn_met {tx : BusTxn} {effect : State → State} {s : State} (hl : lineOk tx.ilines s.c = true)
    (hw : s.c.wip = false) (he : MarkMet (effect s)) : MarkMet (performTxn tx effect s) := by
  rw [performTxn, chipReact_ok _ _ _ hl hw]
  exact he

/-- An enabled erase is refused beyond the chip alone (R217). -/
theorem acceptErase_met {a : Word} {s : State} (hr : s.refused = none) (haddr4 : s.c.addr4 = true)
    (hwel : s.c.wel = true) : MarkMet (acceptErase a s) := by
  rw [acceptErase, if_neg (by simp [haddr4, hwel])]
  split
  · exact markMet_refuse hr (by simp [Refusal.met])
  · exact .of_unmarked hr

/-- An enabled program is refused beyond the chip and across a page alone (R218). -/
theorem acceptProgram_met {a : Word} {d0 d1 d2 d3 : Byte} {s : State} (hr : s.refused = none)
    (hwel : s.c.wel = true) : MarkMet (acceptProgram a d0 d1 d2 d3 s) := by
  rw [acceptProgram, if_neg (by simp [hwel])]
  split
  · exact markMet_refuse hr (by simp [Refusal.met])
  split
  · exact markMet_refuse hr (by simp [Refusal.met])
  · exact .of_unmarked hr

theorem poll_met {op : Byte} {s : State} (hr : s.refused = none) (hq : s.c.quad = true) : MarkMet (poll .four op s) := by
  rw [poll_ok .four op s hq]
  exact .of_unmarked hr

theorem performUnknown_met {e : DecodeError} {req : BusReq} {s : State} (hr : s.refused = none) :
    MarkMet (performUnknown e req s) := by
  have hm : MarkMet (refuse (rejection e) s) := markMet_refuse hr (rejection_met e)
  unfold performUnknown
  split <;> exact hm

/-! ## The live transaction -/

/-- ENTER_QUAD calls its status-wait after its transaction. -/
theorem caller_eq_performed {p : Params} {x : Latches} {f : Frame} {rest : List Frame} (h : stackOk p x (f :: rest)) :
    ∀ g ∈ rest, g.routine = .eq → g.routine.armedStep < g.step := by
  induction rest generalizing f with
  | nil => intro g hg; cases hg
  | cons g rest ih =>
    obtain ⟨hpos, hcall, hbelow⟩ := h
    intro g' hg' heq
    rcases List.mem_cons.mp hg' with rfl | hg'
    · have hk : g'.step - 1 = 7 := by
        have := call_index _ _ _ _ _ hcall
        simp only [heq, reduceCtorEq, false_and, false_or, or_false, true_and] at this
        exact this.1
      rw [heq, Routine.armedStep]
      omega
    · exact ih hbelow g' hg' heq

/-- Under every routine but EQ the chip is in quad mode (R227): its phase says so, or the EQ that called the
status-wait. -/
theorem Consistent.quad_of_top {s : State} {f : Frame} {rest : List Frame} (hC : Consistent s)
    (hact : s.seq.active = true) (hst : s.seq.stack = f :: rest) (hf : f.routine ≠ .eq) : s.c.quad = true := by
  have hA := hC.active hact
  by_cases hph : s.seq.phase = .p0Reset
  · have hop : s.seq.x.op = 0x05 := by
      rcases (legal_next _ _ hA.legal).2.1 with h | h
      · exact absurd hph h
      · exact h
    obtain ⟨g, hg, hx⟩ := stackOk_bottom hA.stack (by simp [hst])
    have hgr : g.routine = .eq := by simpa [routineOf, hop] using hx
    have hchip := hA.chip g hg
    rw [hst, List.mem_cons] at hg
    rcases hg with rfl | hg
    · exact absurd hgr hf
    · simp only [chipOk, hgr] at hchip
      exact hchip.2.1.mpr (.inl (caller_eq_performed (hst ▸ hA.stack) g hg hgr))
  · exact ((hC.phase (by rw [hC.basic.cause_of_active hact]; decide)).quad hph).1

/-- A live transaction of an executing command is the top frame's, armed and captured (R227). -/
theorem ActiveOk.live_armed {s : State} {d : Descriptor} (hA : ActiveOk s) (hd : s.p.live = some d) :
    ∃ f rest, s.seq.stack = f :: rest ∧ f.step = f.routine.armedStep ∧ d = snapshot s.p ∧ ¬ performed f s := by
  cases hst : s.seq.stack with
  | nil => exact nomatch hd.symm.trans (hA.finished hst).quiet.live
  | cons f rest =>
    rcases (hA.top f rest hst).live with hno | ⟨hf, hl⟩
    · exact nomatch hd.symm.trans hno
    · exact ⟨f, rest, rfl, hf, Option.some.inj (hd.symm.trans hl), by simp [performed, hf, hd]⟩

/-- What the command's transaction meets in the chip: it is marked for its operands or its opcode alone. -/
theorem performLive_answers {s : State} {d : Descriptor} (hC : Consistent s) (hact : s.seq.active = true)
    (hr : s.refused = none) (hd : s.p.live = some d) : Answers (performLive d s) := by
  have hA := hC.active hact
  obtain ⟨⟨r, k⟩, rest, hst, hk, rfl, hnot⟩ := hA.live_armed hd
  have hT := hA.top _ _ hst
  have hchip := hA.chip _ (hst ▸ List.mem_cons_self)
  have hstack := hst ▸ hA.stack
  have hquad := hC.quad_of_top hact hst
  have hphase := hC.phase (by rw [hC.basic.cause_of_active hact]; decide)
  simp only at hk
  subst hk
  have hpcfg := hT.pcfg
  cases r with
  | ws op mask pattern =>
    have hp : s.p.pcfg = kPoll ||| op.setWidth 32 := hpcfg _ rfl
    have hq : s.c.quad = true := hquad (by simp)
    have hreq := request_ws s.p op hp hT.dlen
    have hshape : ¬ (pcfgFmode (snapshot s.p).pcfg = fmodePoll ∧ pollShape ⟨.four, op, none, 0, .fromChip 1⟩ = false) :=
      fun h => absurd h.2 (by simp [pollShape])
    rcases decode_poll op with ⟨_, hdec⟩ | ⟨_, hdec⟩ | ⟨e, hdec⟩
    · rw [performLive_ok hreq hshape hdec]
      exact ⟨_, rfl, poll_met hr hq⟩
    · rw [performLive_ok hreq hshape hdec]
      exact ⟨_, rfl, poll_met hr hq⟩
    · rw [performLive_bad hreq hshape hdec]
      exact ⟨_, rfl, performUnknown_met hr⟩
  | we =>
    have hp : s.p.pcfg = kWren ||| opcWren.setWidth 32 := hpcfg _ rfl
    rw [performLive_ok (request_we s.p hp) (by simp [snapshot, hp, fmode_we, fmodePoll]) rfl]
    exact ⟨_, rfl, performTxn_met (hquad (by simp)) hchip.1 (.of_unmarked hr)⟩
  | er =>
    have hp : s.p.pcfg = kErase ||| opcSe.setWidth 32 := hpcfg _ rfl
    have hop : s.seq.x.op = 3 := (op_of_bottom (bottom hstack (by simp) ▸ hstack)).1 rfl
    have hph : s.seq.phase = .p2Ready := by
      have hl := hA.legal
      simpa [hop, legalPhase] using hl
    rw [performLive_ok (request_er s.p hp) (by simp [snapshot, hp, fmode_er, fmodePoll]) rfl]
    exact ⟨_, rfl, performTxn_met (hquad (by simp)) (hchip.1 hnot)
      (acceptErase_met hr (hphase.addr4 (.inl hph)) (hT.latch (.inl rfl) (by decide) hnot))⟩
  | pw =>
    have hp : s.p.pcfg = kProgram ||| opcPp4b.setWidth 32 := hpcfg _ rfl
    rw [performLive_ok (request_pw s.p hp hT.dlen) (by simp [snapshot, hp, fmode_pw, fmodePoll]) rfl]
    exact ⟨_, rfl, performTxn_met (hquad (by simp)) (hchip.1 hnot)
      (acceptProgram_met hr (hT.latch (.inr rfl) (by decide) hnot))⟩
  | eq =>
    have hp : s.p.pcfg = kQuad ||| opcEqio.setWidth 32 := hpcfg _ rfl
    have hsingle : s.c.quad = false := Bool.eq_false_iff.mpr fun h => hnot (hchip.2.1.mp h)
    rw [performLive_ok (request_eq s.p hp) (by simp [snapshot, hp, fmode_eq, fmodePoll]) rfl]
    exact ⟨_, rfl, performTxn_met (by simp [lineOk, hsingle]) hchip.1 (.of_unmarked hr)⟩
  | e4 =>
    have hp : s.p.pcfg = kAddr4 ||| opcEn4b.setWidth 32 := hpcfg _ rfl
    rw [performLive_ok (request_e4 s.p hp) (by simp [snapshot, hp, fmode_e4, fmodePoll]) rfl]
    exact ⟨_, rfl, performTxn_met (hquad (by simp)) hchip.1 (.of_unmarked hr)⟩
  | mm => exact absurd hT.bound (by simp [Routine.armedStep, routineSteps, mmSteps])

/-- The peripheral's step. -/
theorem peripheralStep_answers {s : State} (hC : Consistent s) (hc : s.seq.cause ≠ 3) (hr : s.refused = none) :
    Answers (peripheralStep s) := by
  have stays : Answers (.next s) := ⟨s, rfl, .of_unmarked hr⟩
  unfold peripheralStep
  split
  · exact stays
  · next d hd =>
    split
    · exact stays
    · cases hact : s.seq.active
      · exact nomatch hd.symm.trans (hC.idle hc hact).quiet.live
      · exact performLive_answers hC hact hr hd

/-! ## The sequencer and the chip -/

/-- An idle peripheral takes every register write (R211). -/
theorem writeReg_unmarked (r : Reg) (v : Word) {s : State} (hb : s.p.busy = false) :
    (writeReg r v s).refused = s.refused := by
  rcases writeReg_cases r v s with ⟨hbusy, _⟩ | h | h
  · exact Bool.noConfusion (hb.symm.trans hbusy)
  · rw [h]
  · rw [h, arm_refused]

theorem spin_refused (f : Frame) (rest : List Frame) (s : State) : (spin f rest s).refused = s.refused := by
  rcases spin_cases f rest s with ⟨_, hs⟩ | ⟨_, _, hs⟩ | ⟨_, n, _, _, hs⟩ | ⟨_, n, _, _, hs⟩ <;> rw [hs] <;> rfl

/-- An elementary step over an idle peripheral, and a wait over any, answers and sets no mark. -/
theorem microStep_unmarked (m : Micro) (f : Frame) (rest : List Frame) (s : State) (hb : m ≠ .spin → s.p.busy = false)
    (hcall : ∀ r, m = .call r → rest.length < 2) : ∃ t, microStep m f rest s = .next t ∧ t.refused = s.refused := by
  cases m with
  | spin => exact ⟨_, rfl, spin_refused f rest s⟩
  | call r => exact ⟨_, if_pos (hcall r rfl), rfl⟩
  | settle | ret => exact ⟨_, rfl, rfl⟩
  | en b => exact ⟨_, rfl, by rw [advance_refused, writeEn_idle b s (hb (by simp))]⟩
  | apms => exact ⟨_, rfl, by rw [advance_refused, setApms_idle s (hb (by simp))]⟩
  | disableIfActive =>
    refine ⟨_, rfl, ?_⟩
    rw [advance_refused]
    split
    · rw [writeEn_idle false s (hb (by simp))]
    · rfl
  | _ => exact ⟨_, rfl, writeReg_unmarked _ _ (hb (by simp))⟩

/-- A routine's armed step is a wait. -/
theorem armed_spin {r : Routine} {p : Params} {x : Latches} {m : Micro}
    (h : (routineSteps r p x)[r.armedStep]? = some m) : m = .spin := by
  cases r <;> cases h <;> rfl

/-- A call leaves at most three frames (R23): only ER, PW, EQ and E4, which stand at the bottom, and WE above one of
them call. -/
theorem call_depth {p : Params} {x : Latches} {f : Frame} {rest : List Frame} {r : Routine}
    (h : stackOk p x (f :: rest)) (hm : (routineSteps f.routine p x)[f.step]? = some (.call r)) : rest.length < 2 := by
  by_cases hwe : f.routine = .we
  · cases rest with
    | nil => simp
    | cons g rest =>
      obtain ⟨_, hcall, hbelow⟩ := h
      have hg : g.routine = .er ∨ g.routine = .pw := by
        have := call_index _ _ _ _ _ hcall
        simp only [hwe, wsLatch, wsIdle, reduceCtorEq, and_false, false_or, or_false, and_true] at this
        exact this.imp And.left And.left
      simp [bottom hbelow (by tauto)]
  · have := call_index _ _ _ _ _ hm
    simp [bottom h (by tauto)]

/-- The sequencer's step sets no mark. -/
theorem sequencerStep_answers {s : State} (hC : Consistent s) (hr : s.refused = none) : Answers (sequencerStep s) := by
  unfold sequencerStep
  split
  · next hact =>
    have hA := hC.active hact
    split
    · exact ⟨_, rfl, .of_unmarked hr⟩
    · next f rest hst =>
      have hT := hA.top f rest hst
      obtain ⟨m, hm⟩ : ∃ m, (routineSteps f.routine s.params s.seq.x)[f.step]? = some m :=
        ⟨_, List.getElem?_eq_getElem hT.bound⟩
      rw [hm]
      obtain ⟨t, ht, hmark⟩ := microStep_unmarked m f rest s
        (fun hspin => hT.idle hC.basic fun hk => hspin (armed_spin (hk ▸ hm)))
        (fun r hcall => call_depth (hst ▸ hA.stack) (hcall ▸ hm))
      exact ⟨t, ht, .of_unmarked (hmark.trans hr)⟩
  · exact ⟨_, rfl, .of_unmarked hr⟩

/-- The chip's step completes an operation on bytes it has. -/
theorem chipStep_answers {s : State} (hB : Basic s) (hc : s.seq.cause ≠ 3) (hr : s.refused = none) :
    Answers (chipStep s) := by
  rw [chipStep_of s hc, completePending]
  split
  · next op _ hop => exact ⟨_, if_pos (hB.pending_range op hop), .of_unmarked hr⟩
  · exact ⟨_, rfl, .of_unmarked hr⟩

/-! ## The host -/

/-- The fields of the mapped-read configuration (R191, R192). -/
theorem mapped_fields (p : Params) :
    pcfgImode (kMapped p ||| kMappedMode) = modeFour ∧ pcfgAdmode (kMapped p ||| kMappedMode) = modeFour ∧
    pcfgAdsize (kMapped p ||| kMappedMode) = size32 ∧ pcfgDmode (kMapped p ||| kMappedMode) = modeFour ∧
    pcfgInstr (kMapped p ||| kMappedMode) = opcQread ∧ pcfgDcyc (kMapped p ||| kMappedMode) = p.dummyCycles ∧
    pcfgFmode (kMapped p ||| kMappedMode) = fmodeMapped := by
  rw [kMapped]
  generalize p.dummyCycles = d
  revert d
  decide

/-- What a window read of an activated machine puts on the bus (R104). -/
theorem windowRequest_mapped (p : Params) (a : Word) (n : Nat) :
    windowRequest (kMapped p ||| kMappedMode) a n = .ok ⟨.four, opcQread, some a, p.dummyCycles, .fromChip n⟩ := by
  obtain ⟨himode, hadmode, hadsize, hdmode, hinstr, hdcyc, _⟩ := mapped_fields p
  simp only [windowRequest, requestLines, requestAddress, himode, hadmode, hadsize, hdmode, hinstr, hdcyc]
  rfl

/-- The chip takes a mapped read of 1, 2 or 4 bytes (R64, R223). -/
theorem decode_quadRead (a : Word) (dummy : BitVec 5) (n : Nat) :
    decodeBus ⟨.four, opcQread, some a, dummy, .fromChip n⟩ =
      if readCountOk n then .ok (.chipQiofr a dummy n) else .error .undefinedShape := by
  simp [decodeBus, opcQread, opcWren, opcSe, opcPp4b, opcEqio, opcEn4b, opcRead05, opcRead15]

/-- A read inside the window is a read inside the array (R63). -/
theorem window_in_chip {p : Params} {a n : Nat} (h : inWindow p a n = true) :
    (BitVec.ofNat 32 (a - p.mmapBase)).toNat + n ≤ p.flashSize := by
  simp only [inWindow, Bool.and_eq_true, decide_eq_true_eq] at h
  have := Nat.mod_le (a - p.mmapBase) (2 ^ 32)
  rw [BitVec.toNat_ofNat]
  omega

/-- A mapped read inside the array, of a chip in quad mode and 4-byte addressing, is served (R223). -/
theorem execChipQiofr_served {a : Word} {dummy : BitVec 5} {n : Nat} {s : State} (hq : s.c.quad = true)
    (haddr4 : s.c.addr4 = true) (hw : s.c.wip = false) (hn : a.toNat + n ≤ s.params.flashSize) :
    execChipQiofr a dummy n s = .next (serveRead a dummy n s) := by
  rw [execChipQiofr, chipReact_ok .four _ s hq hw, acceptRead, if_neg (by simp [haddr4]), if_neg (by omega)]

/-- A window read of an activated machine is served, or marked as of no mapped size (R63, R64). -/
theorem windowRead_mapped {a n : Nat} (rest : List HostMove) {s : State} (hC : Consistent s) (hr : s.refused = none)
    (hin : inWindow s.params a n = true) (hph : s.seq.phase = .p3Mmap) : Answers (windowRead a n rest s) := by
  have hc := hC.mapped hph
  have hidle := hC.idle_of_mapped hph
  have hI := hC.idle hc hidle
  obtain ⟨hen, hpcfg⟩ := hI.mapped hph
  obtain ⟨_, _, _, _, _, _, hmode⟩ := mapped_fields s.params
  have hreq := windowRequest_mapped s.params (BitVec.ofNat 32 (a - s.params.mmapBase)) n
  rw [← hpcfg] at hreq hmode
  have hdec := decode_quadRead (BitVec.ofNat 32 (a - s.params.mmapBase)) s.params.dummyCycles n
  by_cases hn : readCountOk n = true
  · rw [if_pos hn] at hdec
    rw [windowRead_served rest hin hph hidle hen hmode hreq (by simp) hdec]
    refine ⟨_, execChipQiofr_served (s := { s with moves := rest }) ?_ ?_ hI.wip (window_in_chip hin), .of_unmarked hr⟩
    · exact ((hC.phase hc).quad (by simp [hph])).1
    · exact (hC.phase hc).addr4 (.inr hph)
  · rw [if_neg hn] at hdec
    refine ⟨refuse .undefinedTransaction { s with moves := rest }, ?_, markMet_refuse hr (by simp [Refusal.met])⟩
    simp [windowRead, hin, hph, hidle, hen, hmode, hreq, hdec, rejection]

/-- A window read is one of an activated machine, or marked as early, or outside the window (R65, R69). -/
theorem windowRead_answers {a n : Nat} (rest : List HostMove) {s : State} (hC : Consistent s) (hr : s.refused = none) :
    Answers (windowRead a n rest s) ∨ windowRead a n rest s = .fault .outsideWindow := by
  cases hin : inWindow s.params a n
  · exact .inr (by simp [windowRead, hin])
  by_cases hearly : s.seq.phase ≠ .p3Mmap ∨ s.seq.active = true
  · rw [windowRead, if_neg (by simp [hin]), if_pos hearly]
    exact .inl ⟨_, rfl, markMet_refuse hr (by simp [Refusal.met])⟩
  · exact .inl (windowRead_mapped rest hC hr hin (by tauto))

/-- The host's step. -/
theorem hostStep_answers {s : State} (hC : Consistent s) (hr : s.refused = none) :
    Answers (hostStep s) ∨ hostStep s = .fault .outsideWindow := by
  unfold hostStep
  split
  · exact .inl ⟨_, rfl, .of_unmarked hr⟩
  · next w rest _ =>
    left
    cases hp : portReady s
    · rw [presentCommand_busy w rest hp]
      exact ⟨_, rfl, .of_unmarked hr⟩
    · obtain ⟨t, ht, hacc⟩ := presentCommand_ready w rest s hp
      exact ⟨t, ht, .of_unmarked (by cases hacc <;> exact hr)⟩
  · next a n rest _ => exact windowRead_answers rest hC hr
  · next a n v rest _ =>
    unfold windowWrite
    split
    · exact .inl ⟨_, rfl, markMet_refuse hr (by simp [Refusal.met])⟩
    · exact .inr rfl
  · left
    split <;> exact ⟨_, rfl, .of_unmarked hr⟩
  · exact .inl ⟨_, rfl, .of_unmarked rfl⟩

/-- What a step of a consistent machine can be, where no Timeout stands. -/
theorem agentStep_answers {a : Agent} {s : State} (hC : Consistent s) (hc : s.seq.cause ≠ 3) (hr : s.refused = none) :
    Answers (agentStep a s) ∨ a = .host ∧ agentStep a s = .fault .outsideWindow := by
  cases a with
  | host => exact (hostStep_answers hC hr).imp_right fun h => ⟨rfl, h⟩
  | sequencer => exact .inl (sequencerStep_answers hC hr)
  | peripheral => exact .inl (peripheralStep_answers hC hc hr)
  | chip => exact .inl (chipStep_answers hC.basic hc hr)

end Sys2Proof.Machine

namespace Sys2Proof.Proofs

open Sys2Proof.Machine

/-- Settles O58: every agent's step answers, with no other mark, or is the host's outside the window
(`agentStep_answers`). -/
theorem onlyReachableStops : Obligations.OnlyReachableStops := by
  intro a s hC hc hr
  rw [stepAs_unmarked hr]
  rcases agentStep_answers (a := a) hC hc hr with ⟨u, hu, hmet⟩ | ⟨ha, hu⟩ <;> rw [hu, tick]
  · refine ⟨fun t r ht hmark => hmet r ?_, (fun _ hf => nomatch hf), fun _ hno => nomatch hno⟩
    cases ht
    rwa [← unsettle_refused]
  · exact ⟨(fun _ _ ht => nomatch ht), fun _ hf => by cases hf; exact ⟨rfl, ha⟩, fun _ hno => nomatch hno⟩

end Sys2Proof.Proofs

/-! SUPPORT. Command words and their fields, and the two directions of the codec (spec/30 R90 to R93, R97, R100). -/

namespace Sys2Proof

open Sys2Proof.Machine

/-! ## The fields of a command word -/

@[simp] theorem cmdC_cmdWord (op : Byte) (a b : Word) (c : Byte) : cmdC (cmdWord op a b c) = c :=
  BitVec.extractLsb'_append_eq_right

@[simp] theorem cmdB_cmdWord (op : Byte) (a b : Word) (c : Byte) : cmdB (cmdWord op a b c) = b :=
  (BitVec.extractLsb'_append_eq_of_le (w := 8) (by decide)).trans BitVec.extractLsb'_append_eq_right

@[simp] theorem cmdA_cmdWord (op : Byte) (a b : Word) (c : Byte) : cmdA (cmdWord op a b c) = a :=
  (BitVec.extractLsb'_append_eq_of_le (w := 8) (by decide)).trans <|
    (BitVec.extractLsb'_append_eq_of_le (w := 32) (by decide)).trans BitVec.extractLsb'_append_eq_right

@[simp] theorem cmdOp_cmdWord (op : Byte) (a b : Word) (c : Byte) : cmdOp (cmdWord op a b c) = op :=
  (BitVec.extractLsb'_append_eq_of_le (w := 8) (by decide)).trans <|
    (BitVec.extractLsb'_append_eq_of_le (w := 32) (by decide)).trans BitVec.extractLsb'_append_eq_left

/-- The four fields cover the word (R90). -/
theorem cmdWord_fields (w : CmdWord) : cmdWord (cmdOp w) (cmdA w) (cmdB w) (cmdC w) = w := by
  have hop : cmdOp w ++ cmdA w = w.extractLsb' 40 40 := BitVec.extractLsb'_append_extractLsb'_eq_extractLsb' rfl
  have hb : w.extractLsb' 40 40 ++ cmdB w = w.extractLsb' 8 72 :=
    BitVec.extractLsb'_append_extractLsb'_eq_extractLsb' rfl
  rw [cmdWord, hop, hb]
  exact BitVec.extractLsb'_append_extractLsb'

/-- A word is known by its fields. -/
theorem cmdWord_eq_of_fields {w : CmdWord} {op : Byte} {a b : Word} {c : Byte} (hop : cmdOp w = op) (ha : cmdA w = a)
    (hb : cmdB w = b) (hc : cmdC w = c) : cmdWord op a b c = w := by
  rw [← hop, ← ha, ← hb, ← hc, cmdWord_fields]

/-! ## A byte in a word -/

@[simp] theorem low_byte_of_widened (b : Byte) : (b.setWidth 32).extractLsb' 0 8 = b := by
  rw [BitVec.extractLsb'_setWidth_of_le (by decide), BitVec.extractLsb'_eq_self]

theorem extract_above_byte (b : Byte) {start : Nat} (len : Nat) (h : 8 ≤ start) :
    (b.setWidth 32).extractLsb' start len = 0 := by
  refine BitVec.eq_of_getLsbD_eq fun i _ => ?_
  simp [BitVec.getLsbD_of_ge b (start + i) (by omega)]

/-- The two spellings of an operand that fits a byte (R92). -/
theorem ushiftRight_eight_eq_zero_iff (a : Word) : a >>> 8 = 0 ↔ a.toNat < 256 := by
  rw [← BitVec.toNat_inj, BitVec.toNat_ushiftRight, Nat.shiftRight_eq_div_pow]
  exact Nat.div_eq_zero_iff_lt (by decide)

/-! ## The decoder's shapes -/

/-- What a decoder's check lets through (R92). -/
theorem checked_ok_iff {c : Prop} [Decidable c] {i j : Instr} {e : DecodeError} :
    (if c then Except.ok i else .error e) = .ok j ↔ c ∧ i = j := by
  split <;> simp_all

theorem noOperands_ok_iff {w : CmdWord} {i j : Instr} :
    noOperands w i = .ok j ↔ (cmdA w = 0 ∧ cmdB w = 0 ∧ cmdC w = 0) ∧ i = j := checked_ok_iff

theorem instructionOnly_iff (r : BusReq) :
    instructionOnly r = true ↔ r.addr = none ∧ r.dummy = 0 ∧ r.data = .none := by
  simp [instructionOnly, and_assoc]

theorem oneStatusByte_iff (r : BusReq) :
    oneStatusByte r = true ↔ r.addr = none ∧ r.dummy = 0 ∧ r.data = .fromChip 1 := by
  simp [oneStatusByte, and_assoc]

/-! ## What a decoded word encodes -/

/-- A word without operands is known by its `op` (R92). -/
theorem encode_of_noOperands {w : CmdWord} {op : Byte} {i j : Instr} (hop : cmdOp w = op)
    (hi : encode i = .command (cmdWord op 0 0 0)) (hwf : i.wellFormed = true) (h : noOperands w i = .ok j) :
    encode j = .command w ∧ j.wellFormed = true := by
  obtain ⟨⟨ha, hb, hc⟩, rfl⟩ := noOperands_ok_iff.mp h
  exact ⟨by rw [hi, cmdWord_eq_of_fields hop ha hb hc], hwf⟩

/-- A command word that decodes holds the fields of its command and zero elsewhere (R92, R93). -/
theorem encode_of_decodeCommand {w : CmdWord} {i : Instr} (h : decodeCommand w = .ok i) :
    encode i = .command w ∧ i.wellFormed = true := by
  unfold decodeCommand at h
  split at h
  · next hop =>
    obtain ⟨⟨ha, hb⟩, rfl⟩ := checked_ok_iff.mp h
    rw [extract_high_eq_zero_iff] at ha hb
    exact ⟨congrArg _ (cmdWord_eq_of_fields hop (low_byte_widened _ ha).symm (low_byte_widened _ hb).symm rfl), rfl⟩
  split at h
  · next hop => exact encode_of_noOperands hop rfl rfl h
  split at h
  · next hop =>
    obtain ⟨⟨hb, hc⟩, rfl⟩ := checked_ok_iff.mp h
    exact ⟨congrArg _ (cmdWord_eq_of_fields hop rfl hb hc), rfl⟩
  split at h
  · next hop =>
    obtain ⟨hc, rfl⟩ := checked_ok_iff.mp h
    exact ⟨congrArg _ (cmdWord_eq_of_fields hop rfl rfl hc), rfl⟩
  split at h
  · next hop => exact encode_of_noOperands hop rfl rfl h
  split at h
  · next hop => exact encode_of_noOperands hop rfl rfl h
  split at h
  · next hop => exact encode_of_noOperands hop rfl rfl h
  · cases h

/-- A bus request that decodes has the one shape of its instruction (R97, R100). -/
theorem encode_of_decodeBus {r : BusReq} {i : Instr} (h : decodeBus r = .ok i) :
    encode i = .bus r ∧ i.wellFormed = true := by
  obtain ⟨lines, op, addr, dummy, data⟩ := r
  simp only [decodeBus, instructionOnly_iff, oneStatusByte_iff] at h
  split at h
  · next hop =>
    obtain ⟨⟨rfl, rfl, rfl, rfl⟩, rfl⟩ := checked_ok_iff.mp h
    exact ⟨hop ▸ rfl, rfl⟩
  split at h
  · next hop =>
    split at h
    · obtain ⟨⟨rfl, rfl⟩, rfl⟩ := checked_ok_iff.mp h
      exact ⟨hop ▸ rfl, rfl⟩
    · cases h
  split at h
  · next hop =>
    split at h
    · obtain ⟨⟨rfl, rfl⟩, rfl⟩ := checked_ok_iff.mp h
      exact ⟨hop ▸ rfl, rfl⟩
    · cases h
  split at h
  · next hop =>
    obtain ⟨⟨rfl, rfl, rfl⟩, rfl⟩ := checked_ok_iff.mp h
    exact ⟨hop ▸ rfl, rfl⟩
  split at h
  · next hop =>
    obtain ⟨⟨rfl, rfl, rfl, rfl⟩, rfl⟩ := checked_ok_iff.mp h
    exact ⟨hop ▸ rfl, rfl⟩
  split at h
  · next hop =>
    obtain ⟨⟨rfl, rfl, rfl⟩, rfl⟩ := checked_ok_iff.mp h
    exact ⟨hop ▸ rfl, rfl⟩
  split at h
  · next hop =>
    obtain ⟨⟨rfl, rfl, rfl⟩, rfl⟩ := checked_ok_iff.mp h
    exact ⟨hop ▸ rfl, rfl⟩
  split at h
  · next hop =>
    split at h
    · obtain ⟨⟨rfl, hn⟩, rfl⟩ := checked_ok_iff.mp h
      exact ⟨hop ▸ rfl, hn⟩
    · cases h
  · cases h

/-! ## Legal encodings -/

/-- `legal_encoding` field by field (R93). -/
theorem legalEncoding_iff (w : CmdWord) : legalEncoding w = true ↔
    (cmdOp w = 0x01 ∧ (cmdA w).toNat < 256 ∧ (cmdB w).toNat < 256) ∨
    (cmdOp w = 0x03 ∧ cmdB w = 0 ∧ cmdC w = 0) ∨
    (cmdOp w = 0x04 ∧ cmdC w = 0) ∨
    ((cmdOp w = 0x02 ∨ cmdOp w = 0x05 ∨ cmdOp w = 0x06 ∨ cmdOp w = 0x07) ∧
      cmdA w = 0 ∧ cmdB w = 0 ∧ cmdC w = 0) := by
  simp only [legalEncoding, ← ushiftRight_eight_eq_zero_iff]
  generalize cmdOp w = op
  split
  · next h => subst h; simp
  split
  · next h => subst h; simp
  split
  · next h => subst h; simp
  split <;> simp_all [and_assoc]

/-- The decoder reads a command from exactly the legal encodings (R93). -/
theorem decodeCommand_isSome (w : CmdWord) : (decodeCommand w).toOption.isSome = legalEncoding w := by
  cases hl : legalEncoding w
  · obtain ⟨e, he⟩ := decodeCommand_illegal w hl
    rw [he]
    rfl
  · obtain ⟨i, _, hi, _⟩ := decodeCommand_legal w hl
    rw [hi]
    rfl

end Sys2Proof

namespace Sys2Proof.Machine

/-! ## The mapped read -/

/-- The chip address of a window read is its offset in the window (R63): the window's offsets fit 32 bits. -/
theorem window_offset {p : Params} {a n : Nat} (hwf : p.wf = true) (hin : inWindow p a n = true) (hn : 0 < n) :
    (BitVec.ofNat 32 (a - p.mmapBase)).toNat = a - p.mmapBase := by
  simp only [Params.wf, Bool.and_eq_true, decide_eq_true_eq] at hwf
  simp only [inWindow, Bool.and_eq_true, decide_eq_true_eq] at hin
  rw [BitVec.toNat_ofNat, Nat.mod_eq_of_lt (by omega)]

/-- In the mapped-read configuration a window read of 1, 2 or 4 bytes is the chip's 0xEC (R104, R212). -/
theorem windowRead_configured {a n : Nat} (rest : List HostMove) {s : State} (hin : inWindow s.params a n = true)
    (hn : readCountOk n = true) (hph : s.seq.phase = .p3Mmap) (hact : s.seq.active = false) (hen : s.p.en = true)
    (hpcfg : s.p.pcfg = kMapped s.params ||| kMappedMode) :
    windowRead a n rest s = execChipQiofr (BitVec.ofNat 32 (a - s.params.mmapBase)) s.params.dummyCycles n
      { s with moves := rest } := by
  obtain ⟨_, _, _, _, _, _, hmode⟩ := mapped_fields s.params
  have hreq := windowRequest_mapped s.params (BitVec.ofNat 32 (a - s.params.mmapBase)) n
  rw [← hpcfg] at hreq hmode
  exact windowRead_served rest hin hph hact hen hmode hreq (by simp) ((decode_quadRead _ _ n).trans (if_pos hn))

end Sys2Proof.Machine

namespace Sys2Proof.Proofs

open Sys2Proof.Machine

/-- Settles O1: a command word's fields are the ones it was made of, and each chip opcode's request has the shape the
decoder asks for. -/
theorem decodeOfEncode : Obligations.DecodeOfEncode := by
  intro i hwf
  cases i with
  | waitStatus | writeEnable | eraseSector | writeWord | enterQuad | enterAddr4 | enterMmap =>
    simp [encode, decode, decodeCommand, noOperands, extract_above_byte]
  | chipQiofr a dummy n => exact (decode_quadRead a dummy n).trans (if_pos hwf)
  | chipWren | chipSe4k | chipPp4b | chipEqio | chipEn4b | chipRdsrA | chipRdsrB => rfl

/-- Settles O2, for either kind of word. -/
theorem encodeOfDecode : Obligations.EncodeOfDecode := by
  intro w i h
  cases w with
  | command w => exact encode_of_decodeCommand h
  | bus r => exact encode_of_decodeBus h

/-- Settles O3: the condition, the decoder's domain, and the fault a ready port raises on any other word. -/
theorem legalEncodingDecodes : Obligations.LegalEncodingDecodes := by
  intro w
  refine ⟨legalEncoding_iff w, decodeCommand_isSome w, fun hl s rest hr hm hp => ?_⟩
  obtain ⟨e, he⟩ := decodeCommand_illegal w hl
  have hpresent : presentCommand w rest s = .next (acceptIllegal w { s with moves := rest }) := by
    rw [presentCommand, if_pos hp, he]
  rw [stepAs_command hr hm, hpresent]
  exact ⟨_, rfl, by simp, by simp [causeIllegal]⟩

/-- Settles O45: the window's request reaches the chip at the offset in the window, and is served. -/
theorem windowReadGivesFlash : Obligations.WindowReadGivesFlash := by
  intro s a n rest hr hm hwf hph hact hn hlow hhigh hen hpcfg hquad haddr4 hwip
  have hin : inWindow s.params a n = true := by simp [inWindow, hlow, hhigh]
  have hcount : readCountOk n = true := by simpa [readCountOk, or_assoc] using hn
  have hserved := execChipQiofr_served (dummy := s.params.dummyCycles) (s := { s with moves := rest }) hquad haddr4 hwip
    (window_in_chip hin)
  rw [stepAs_unmarked hr, agentStep, hostStep_read hm, windowRead_configured rest hin hcount hph hact hen hpcfg,
    hserved, serveRead, window_offset hwf hin (by omega)]
  rfl

/-- Settles O4: the words by evaluation, the fields of every poll through the byte or-ed in, those of the mapped read by
`mapped_fields`. -/
theorem sampleWordsDecode : Obligations.SampleWordsDecode := by
  refine ⟨by decide, by decide, by decide, by decide, by decide, by decide, by decide, by decide, by decide,
    fun op => ?_, fun p => ?_, by decide, by decide, by decide, by decide, by decide, by decide, by decide⟩
  · simp [pcfgInstr, pcfgImode, pcfgAdmode, pcfgAdsize, pcfgDcyc, pcfgDmode, pcfgFmode, BitVec.extractLsb'_or,
      extract_above_byte, kPoll]
  · obtain ⟨himode, hadmode, hadsize, hdmode, hinstr, hdcyc, hfmode⟩ := mapped_fields p
    refine ⟨hinstr, himode, hadmode, hadsize, hdcyc, hdmode, hfmode, ?_⟩
    rw [kMapped, BitVec.or_assoc, BitVec.or_comm _ kMappedMode, ← BitVec.or_assoc]
    rfl

end Sys2Proof.Proofs

/-! SUPPORT. The host keeps the control-point invariant (spec/46 R227): acceptance with its two precise faults, the
served window read, and power-on reset. -/

namespace Sys2Proof.Machine

/-! ## The host keeps the invariant -/

/-- The invariant reads the parameters, the sequencer, the peripheral, the chip, and, before `P3_MMAP`, the history. -/
theorem Consistent.of_unread {s t : State} (hC : Consistent s) (hB : Basic t) (hparams : t.params = s.params)
    (hseq : t.seq = s.seq) (hp : t.p = s.p) (hc : t.c = s.c) (hbus : s.seq.phase ≠ .p3Mmap → t.bus = s.bus) :
    Consistent t where
  basic := hB
  phase h := (hC.phase (hseq ▸ h)).congr (by rw [hseq]) (by rw [hp]; exact id) (by rw [hc]; exact id)
    (by rw [hc]; exact id)
  idle h hact := (hC.idle (hseq ▸ h) (hseq ▸ hact)).congr hparams (by rw [hseq]) hp hc (by rw [hseq]) hbus
    fun hf => ⟨by rw [hseq], hseq ▸ hf⟩
  active hact := by
    have hact : s.seq.active = true := hseq ▸ hact
    have hph : s.seq.phase ≠ .p3Mmap := fun h => Bool.noConfusion (hact.symm.trans (hC.idle_of_mapped h))
    exact (hC.active hact).congr hparams (by rw [hseq]) (by rw [hseq]) (by rw [hseq]) hp hc (hbus hph)
  mapped h := hseq ▸ hC.mapped (hseq ▸ h)

/-- The host's remaining moves are no part of the invariant. -/
theorem Consistent.spend {s : State} (hC : Consistent s) (rest : List HostMove) : Consistent { s with moves := rest } :=
  hC.of_unread { hC.basic with } rfl rfl rfl rfl fun _ => rfl

/-- A command refused by cause 1 or 2 leaves the machine idle as it was (R244). -/
theorem Consistent.of_precise {s : State} (hC : Consistent s) (hc : s.seq.cause ≠ 3) (hact : s.seq.active = false)
    (x : Latches) (k : BitVec 2) (hk : k ≠ 3) (info : FaultInfo)
    (hB : Basic (raise k info { s with seq := { s.seq with x := x } })) :
    Consistent (raise k info { s with seq := { s.seq with x := x } }) where
  basic := hB
  phase _ := (hC.phase hc).congr rfl id id id
  idle _ _ := (hC.idle hc hact).congr rfl rfl rfl rfl rfl (fun _ => rfl) fun hf => Bool.noConfusion hf
  active h := Bool.noConfusion h
  mapped _ := hk

/-- Acceptance by a ready port (R24): the command's first control point, or a precise fault. -/
theorem Accepted.consistent {w : CmdWord} {s t : State} (h : Accepted w s t) (hC : Consistent s)
    (hready : portReady s = true) (hB : Basic t) : Consistent t := by
  obtain ⟨hact, hf⟩ := (portReady_iff s).mp hready
  have hc : s.seq.cause ≠ 3 := by rw [hC.basic.fault_cause.mp hf]; decide
  cases h with
  | illegal => exact hC.of_precise hc hact _ causeIllegal (by decide) _ hB
  | outOfPhase => exact hC.of_precise hc hact _ causePrecondition (by decide) _ hB
  | start _ hph r hr =>
    exact ⟨hB, fun _ => (hC.phase hc).congr rfl id id id, fun _ hno => Bool.noConfusion hno,
      fun _ => accept_active _ r s hC.basic (hC.phase hc) (hC.idle hc hact) hr hph, fun _ => hc⟩

/-- A window read asks for bytes from the chip (R104). -/
theorem windowRequest_data {pcfg a : Word} {n : Nat} {req : BusReq} (h : windowRequest pcfg a n = .ok req) :
    req.data = .fromChip n := by
  unfold windowRequest at h
  repeat' split at h
  all_goals cases h
  rfl

/-- A mapped read that sets no mark is served (R223). -/
theorem execChipQiofr_unmarked {a : Word} {dummy : BitVec 5} {n : Nat} {s t : State}
    (h : execChipQiofr a dummy n s = .next t) (hr : t.refused = none) : t = serveRead a dummy n s := by
  cases h
  have hreact := (react_unmarked hr).2.2
  rw [hreact] at hr ⊢
  unfold acceptRead at hr ⊢
  split
  · next hno => rw [if_pos hno] at hr; exact absurd hr (refuse_ne _ _)
  · next hyes =>
    rw [if_neg hyes] at hr
    split
    · next hno => rw [if_pos hno] at hr; exact absurd hr (refuse_ne _ _)
    · rfl

/-- A window read that sets no mark is a mapped read served in `P3_MMAP` (R63, R212). -/
theorem windowRead_unmarked {a n : Nat} {rest : List HostMove} {s t : State} (h : windowRead a n rest s = .next t)
    (hr : t.refused = none) :
    s.seq.phase = .p3Mmap ∧ ∃ addr dummy, t = serveRead addr dummy n { s with moves := rest } := by
  rcases windowRead_cases a n rest s t h with ⟨r, rfl⟩ | ⟨hph, _, req, i, haddr, hreq, hdec, hexec⟩
  · exact absurd hr (refuse_ne _ _)
  · obtain ⟨addr, _, rfl⟩ := decode_mapped req i n haddr (windowRequest_data hreq) hdec
    exact ⟨hph, addr, req.dummy, execChipQiofr_unmarked hexec hr⟩

/-- Power-on reset leads to the first state of a run, over another array (R265). -/
theorem powerOnReset_consistent {s : State} (hB : Basic (powerOnReset s)) : Consistent (powerOnReset s) where
  basic := hB
  phase _ := ⟨fun h => absurd rfl h, fun h => by rcases h with h | h <;> cases h⟩
  idle _ _ := {
    quiet := ⟨rfl, rfl, rfl⟩
    wip := rfl
    p0 := fun _ => ⟨rfl, rfl, rfl, rfl, rfl, rfl, rfl, rfl, rfl, rfl, rfl, rfl, rfl, fun _ => rfl⟩
    indirect := fun h => by rcases h with h | h <;> cases h
    mapped := fun h => by cases h }
  active h := Bool.noConfusion h
  mapped h := by cases h

theorem hostStep_consistent {s t : State} (hC : Consistent s) (h : hostStep s = .next t) (hB : Basic t)
    (hr : t.refused = none) : Consistent t := by
  rcases hostStep_cases s t h with rfl | ⟨w, rest, hm, hready, _⟩ | ⟨a, n, rest, _, hread⟩ | ⟨_, _, _, rest, _, rfl⟩ |
    ⟨rest, _, rfl⟩ | ⟨rest, _, rfl⟩
  · exact hC
  · obtain ⟨u, hu, hacc⟩ := presentCommand_ready w rest s hready
    cases hu.symm.trans ((hostStep_command hm).symm.trans h)
    exact hacc.consistent (hC.spend rest) hready hB
  · obtain ⟨hph, addr, dummy, rfl⟩ := windowRead_unmarked hread hr
    exact hC.of_unread hB rfl rfl rfl rfl fun hno => absurd hph hno
  · exact absurd hr (refuse_ne _ _)
  · exact hC.spend rest
  · exact powerOnReset_consistent hB

end Sys2Proof.Machine

namespace Sys2Proof.Proofs

open Sys2Proof.Machine

/-- Settles O57: the sequencer, the peripheral and the chip by `stepAs_consistent`, the host by `hostStep_consistent`
and the count of its step. -/
theorem consistentKept : Obligations.ConsistentKept := by
  intro a s t hC h hr
  by_cases ha : a = .host
  · subst ha
    obtain ⟨u, hu, hcount⟩ := stepAs_counted h
    have hB := agentStep_basic hC.basic hu
    exact (hostStep_consistent hC hu hB (hcount.refused ▸ hr)).counted hcount (basicKept .host s t hC.basic h)
  · exact stepAs_consistent ha hC h hr

end Sys2Proof.Proofs

/-! SUPPORT. The busy-wait, branch by branch, and the status-wait that cannot match: no agent but the host
moves the sequencer or the peripheral out of it (spec/40 R136, spec/60 R247). -/

namespace Sys2Proof.Machine

/-! ## The branches of a busy-wait (R133) -/

theorem spin_free (f : Frame) (rest : List Frame) {s : State} (hb : readBusy s = false) :
    spin f rest s = advance f rest { s with seq := { s.seq with spincnt := 0 } } := by
  simp [spin, hb]

theorem spin_unbounded (f : Frame) (rest : List Frame) {s : State} (hb : readBusy s = true)
    (hn : s.params.spinLimit = none) : spin f rest s = s := by
  simp [spin, hb, hn]

theorem spin_below (f : Frame) (rest : List Frame) {s : State} {n : Nat} (hb : readBusy s = true)
    (hn : s.params.spinLimit = some n) (hlt : s.seq.spincnt + 1 < n) :
    spin f rest s = { s with seq := { s.seq with spincnt := s.seq.spincnt + 1 } } := by
  simp [spin, hb, hn, hlt]

theorem spin_at_bound (f : Frame) (rest : List Frame) {s : State} {n : Nat} (hb : readBusy s = true)
    (hn : s.params.spinLimit = some n) (hge : n ≤ s.seq.spincnt + 1) : spin f rest s = timeout f s := by
  simp [spin, hb, hn, Nat.not_lt.mpr hge]

/-! ## The peripheral's poll -/

/-- The peripheral's step over a live poll: a poll of one of the two status reads, or the mark for another opcode (R209,
R221, R224). -/
theorem peripheralStep_poll {op : Byte} {s : State} (hlive : s.p.live = some (snapshot s.p))
    (hpcfg : s.p.pcfg = kPoll ||| op.setWidth 32) (hdlen : s.p.dlen = 0) :
    (op = opcRead05 ∨ op = opcRead15) ∧ peripheralStep s = .next (poll .four op s) ∨
    ¬ (op = opcRead05 ∨ op = opcRead15) ∧ ∃ r, peripheralStep s = .next (refuse r s) := by
  have hreq := request_ws s.p op hpcfg hdlen
  have hmode : pcfgFmode (snapshot s.p).pcfg ≠ fmodeMapped := by
    simp only [snapshot, hpcfg, poll_fmode]
    decide
  have hshape : ¬ (pcfgFmode (snapshot s.p).pcfg = fmodePoll ∧ pollShape ⟨.four, op, none, 0, .fromChip 1⟩ = false) :=
    fun hno => absurd hno.2 (by simp [pollShape])
  have hstep : peripheralStep s = performLive (snapshot s.p) s := by
    simp only [peripheralStep, hlive, if_neg hmode]
  rw [hstep]
  rcases decode_poll op with ⟨rfl, hdec⟩ | ⟨rfl, hdec⟩ | ⟨e, hdec⟩
  · exact .inl ⟨.inl rfl, performLive_ok hreq hshape hdec⟩
  · exact .inl ⟨.inr rfl, performLive_ok hreq hshape hdec⟩
  · refine .inr ⟨?_, _, performLive_bad hreq hshape hdec⟩
    rintro (rfl | rfl) <;> cases hdec

/-! ## The wait that cannot match (R136) -/

/-- The busy-wait of a status-wait whose match has a bit its mask lacks, without a bound, over its live poll: what R136(c)
says of the parameters, the sequencer and the peripheral. -/
structure HopelessWait (op mask pattern : Byte) (s : State) : Prop where
  limit : s.params.spinLimit = none
  active : s.seq.active = true
  cause : s.seq.cause ≠ 3
  phase : s.seq.phase ≠ .p3Mmap
  waiting : ∃ rest, s.seq.stack = ⟨.ws op mask pattern, 9⟩ :: rest
  busy : s.p.busy = true
  live : s.p.live = some (snapshot s.p)
  pcfg : s.p.pcfg = kPoll ||| op.setWidth 32
  dlen : s.p.dlen = 0
  psmask : s.p.psmask = mask.setWidth 32
  psmatch : s.p.psmatch = pattern.setWidth 32
  hopeless : pattern &&& ~~~ mask ≠ 0

/-- Nothing a waiting sequencer waits for has moved. -/
structure StandsStill (s t : State) : Prop where
  params : t.params = s.params
  seq : t.seq = s.seq
  p : t.p = s.p
  events : t.events = s.events

theorem StandsStill.refl (s : State) : StandsStill s s := ⟨rfl, rfl, rfl, rfl⟩

theorem StandsStill.trans {s t u : State} (h : StandsStill s t) (h' : StandsStill t u) : StandsStill s u :=
  ⟨h'.params.trans h.params, h'.seq.trans h.seq, h'.p.trans h.p, h'.events.trans h.events⟩

theorem HopelessWait.of_still {op mask pattern : Byte} {s t : State} (h : HopelessWait op mask pattern s)
    (hst : StandsStill s t) : HopelessWait op mask pattern t := by
  obtain ⟨hparams, hseq, hp, _⟩ := hst
  exact ⟨hparams ▸ h.limit, hseq ▸ h.active, hseq ▸ h.cause, hseq ▸ h.phase, hseq ▸ h.waiting, hp ▸ h.busy, hp ▸ h.live,
    hp ▸ h.pcfg, hp ▸ h.dlen, hp ▸ h.psmask, hp ▸ h.psmatch, h.hopeless⟩

/-- The control point of such a wait (R227). -/
theorem Consistent.hopelessWait {op mask pattern : Byte} {s : State} {rest : List Frame} (hC : Consistent s)
    (hlimit : s.params.spinLimit = none) (hact : s.seq.active = true)
    (hst : s.seq.stack = ⟨.ws op mask pattern, 9⟩ :: rest) (hlive : s.p.live ≠ none)
    (hno : pattern &&& ~~~ mask ≠ 0) : HopelessWait op mask pattern s := by
  have hT := (hC.active hact).top _ _ hst
  obtain ⟨hmask, hmatch, _, _⟩ := hT.operands
  exact {
    limit := hlimit
    active := hact
    cause := by rw [hC.basic.cause_of_active hact]; decide
    phase := fun h => Bool.noConfusion (hact.symm.trans (hC.idle_of_mapped h))
    waiting := ⟨rest, hst⟩
    busy := by rw [hC.basic.busy_live, Option.isSome_iff_ne_none]; exact hlive
    live := (hT.live.resolve_left hlive).2
    pcfg := hT.pcfg _ rfl
    dlen := hT.dlen
    psmask := hmask (by simp)
    psmatch := hmatch (by simp)
    hopeless := hno }

/-- No byte meets a match with a bit its mask lacks. -/
theorem not_statusMatches {b mask pattern : Byte} (h : pattern &&& ~~~ mask ≠ 0) :
    statusMatches b mask pattern = false := by
  rw [← Bool.not_eq_true, statusMatches, beq_iff_eq]
  rintro rfl
  refine h ?_
  rw [BitVec.and_assoc]
  ext i hi
  simp

/-- A poll of such a wait leaves the peripheral as it is (R209). -/
theorem HopelessWait.pollCompare {op mask pattern : Byte} {s : State} (h : HopelessWait op mask pattern s) (b : Byte) :
    pollCompare b s.p = s.p := by
  rcases pollCompare_cases b s.p with hsame | ⟨d, hd, hm, _⟩
  · exact hsame
  · cases hd.symm.trans h.live
    simp only [snapshot, h.psmask, h.psmatch] at hm
    have hm : statusMatches b mask pattern = true := by simpa using hm
    exact Bool.noConfusion (hm.symm.trans (not_statusMatches h.hopeless))

theorem HopelessWait.poll_still {op mask pattern : Byte} {s : State} (h : HopelessWait op mask pattern s) (o : Byte) :
    StandsStill s (poll .four o s) := by
  cases hl : lineOk .four s.c
  · rw [poll_refused _ _ _ hl]
    exact ⟨rfl, rfl, rfl, rfl⟩
  · rw [poll_ok _ _ _ hl]
    exact ⟨rfl, rfl, h.pollCompare _, rfl⟩

/-- The busy-wait itself (R133, R247). -/
theorem HopelessWait.sequencerStep {op mask pattern : Byte} {s : State} (h : HopelessWait op mask pattern s) :
    sequencerStep s = .next s := by
  obtain ⟨rest, hst⟩ := h.waiting
  have hbusy : readBusy s = true := by rw [readBusy, if_neg h.phase, h.busy]
  have hstep : Machine.sequencerStep s = .next (spin ⟨.ws op mask pattern, 9⟩ rest s) := by
    simp only [Machine.sequencerStep, h.active, if_true, hst]
    rfl
  rw [hstep, spin_unbounded _ rest hbusy h.limit]

/-- No step of the sequencer, the peripheral or the chip leaves the wait. -/
theorem HopelessWait.agentStep_still {a : Agent} {op mask pattern : Byte} {s t : State} (ha : a ≠ .host)
    (h : HopelessWait op mask pattern s) (hstep : agentStep a s = .next t) : StandsStill s t := by
  cases a with
  | host => exact absurd rfl ha
  | sequencer =>
    cases h.sequencerStep.symm.trans hstep
    exact .refl s
  | peripheral =>
    rcases peripheralStep_poll h.live h.pcfg h.dlen with ⟨_, hp⟩ | ⟨_, r, hp⟩ <;> cases hp.symm.trans hstep
    · exact h.poll_still op
    · exact ⟨rfl, rfl, rfl, rfl⟩
  | chip =>
    rcases chipStep_cases hstep with rfl | ⟨_, op, _, _, _, rfl⟩ <;> exact ⟨rfl, rfl, rfl, rfl⟩

theorem HopelessWait.stepAs_still {a : Agent} {op mask pattern : Byte} {s t : State} (ha : a ≠ .host)
    (h : HopelessWait op mask pattern s) (hstep : stepAs a s = .next t) : StandsStill s t := by
  obtain ⟨u, hu, hcount⟩ := stepAs_counted hstep
  exact (h.agentStep_still ha hu).trans ⟨hcount.params, hcount.seq, hcount.p, hcount.events⟩

/-- A run without the host stands still. -/
theorem HopelessWait.runAs_still {l : List Agent} {op mask pattern : Byte} {s t : State} (hl : .host ∉ l)
    (h : HopelessWait op mask pattern s) (hrun : runAs l s = .next t) : StandsStill s t := by
  induction l generalizing s with
  | nil => cases hrun; exact .refl _
  | cons a l ih =>
    rw [List.mem_cons, not_or] at hl
    simp only [runAs] at hrun
    split at hrun
    · next s' hs' =>
      have hstill := h.stepAs_still (Ne.symm hl.1) hs'
      exact hstill.trans (ih hl.2 (h.of_still hstill) hrun)
    · cases hrun
    · cases hrun

/-- During a wait on a status read, over a chip in quad mode, every agent but the host answers without a mark. -/
theorem HopelessWait.agentStep_unmarked {a : Agent} {op mask pattern : Byte} {s : State} (ha : a ≠ .host)
    (h : HopelessWait op mask pattern s) (hB : Basic s) (hq : s.c.quad = true) (hop : op = opcRead05 ∨ op = opcRead15)
    (hr : s.refused = none) : ∃ t, agentStep a s = .next t ∧ t.refused = none := by
  cases a with
  | host => exact absurd rfl ha
  | sequencer => exact ⟨s, h.sequencerStep, hr⟩
  | peripheral =>
    rcases peripheralStep_poll h.live h.pcfg h.dlen with ⟨_, hp⟩ | ⟨hno, _⟩
    · exact ⟨_, hp, by rw [poll_ok .four op s hq]; exact hr⟩
    · exact absurd hop hno
  | chip =>
    rw [agentStep, chipStep_of s h.cause, completePending]
    split
    · next o _ ho => exact ⟨_, if_pos (hB.pending_range o ho), hr⟩
    · exact ⟨_, rfl, hr⟩

/-- Such a run never stops (R247). -/
theorem HopelessWait.runAs_next {l : List Agent} {op mask pattern : Byte} {s : State} (hl : .host ∉ l)
    (h : HopelessWait op mask pattern s) (hC : Consistent s) (hop : op = opcRead05 ∨ op = opcRead15)
    (hr : s.refused = none) : ∃ t, runAs l s = .next t := by
  induction l generalizing s with
  | nil => exact ⟨s, rfl⟩
  | cons a l ih =>
    rw [List.mem_cons, not_or] at hl
    have ha := Ne.symm hl.1
    obtain ⟨rest, hst⟩ := h.waiting
    obtain ⟨u, hu, hru⟩ := h.agentStep_unmarked ha hC.basic (hC.quad_of_top h.active hst (by simp)) hop hr
    obtain ⟨s', hs', hr'⟩ : ∃ s', stepAs a s = .next s' ∧ s'.refused = none := by
      rw [stepAs_unmarked hr, hu]
      exact ⟨_, rfl, (unsettle_refused u).trans hru⟩
    simp only [runAs, hs']
    exact ih hl.2 (h.of_still (h.stepAs_still ha hs')) (stepAs_consistent ha hC hs' hr') hr'

end Sys2Proof.Machine

namespace Sys2Proof.Proofs

open Sys2Proof.Machine

/-- Settles O25, branch by branch. -/
theorem busyWaitBranches : Obligations.BusyWaitBranches := by
  intro f rest s
  exact ⟨fun hph => by rw [readBusy, if_neg hph], fun hb => congrArg _ (spin_free f rest hb),
    fun hb hn => congrArg _ (spin_unbounded f rest hb hn), fun n hb hn hlt => congrArg _ (spin_below f rest hb hn hlt),
    fun n hb hn hge => ⟨unknownChip s, congrArg _ (spin_at_bound f rest hb hn hge)⟩⟩

/-- Settles O29: the wait stands still under every agent (`HopelessWait.runAs_still`), and none of them sets a mark
(`HopelessWait.runAs_next`). -/
theorem hopelessWaitHangs : Obligations.HopelessWaitHangs := by
  intro s op mask pattern rest hC hlimit hact hst hlive hno
  have hW := hC.hopelessWait hlimit hact hst hlive hno
  refine ⟨fun l t hl hrun => ?_, fun hr hop l hl => hW.runAs_next hl hC hop hr⟩
  have hstill := hW.runAs_still hl hrun
  exact ⟨hstill.seq, hstill.events, by rw [hstill.p, hW.busy]⟩

end Sys2Proof.Proofs

/-! SUPPORT. Runs of the sequencer over an idle peripheral, register access by register access, and the status-wait whose
condition the chip meets: one poll (spec/40 R132, R134). -/

namespace Sys2Proof.Machine

/-! ## Runs, up to the schedule's own fields -/

/-- The run ends in `t` but for the turn and the number of steps taken. -/
def Reaches (l : List Agent) (s t : State) : Prop :=
  ∃ turn draws, runAs l s = .next { t with turn := turn, draws := draws }

/-- A run goes on from where its first part ended. -/
theorem Reaches.after {l l' : List Agent} {s t u : State} (h : runAs l s = .next t) (h' : Reaches l' t u) :
    Reaches (l ++ l') s u := by
  obtain ⟨turn, draws, hrun⟩ := h'
  exact ⟨turn, draws, (runAs_append l l' s t h).trans hrun⟩

/-- Runs follow one another. -/
theorem Reaches.trans {l l' : List Agent} {s t u : State} (h : Reaches l s t)
    (h' : ∀ turn draws, Reaches l' { t with turn := turn, draws := draws } u) : Reaches (l ++ l') s u := by
  obtain ⟨turn, draws, hrun⟩ := h
  exact (h' turn draws).after hrun

/-- One step of an agent, where neither the mark is set nor a Timeout stands after it. -/
theorem reaches_step {a : Agent} {s t : State} (hr : s.refused = none) (h : agentStep a s = .next t)
    (hc : t.seq.cause ≠ causeTimeout) : Reaches [a] s t :=
  ⟨_, _, runAs_one a s _ (stepAs_next a s t hr h hc)⟩

/-- A command executes frame `f` over `rest`, and no mark is set. -/
structure Executing (f : Frame) (rest : List Frame) (s : State) : Prop where
  refused : s.refused = none
  active : s.seq.active = true
  cause : s.seq.cause ≠ causeTimeout
  stack : s.seq.stack = f :: rest

/-- The sequencer takes the top frame's step. -/
theorem Executing.step {f : Frame} {rest : List Frame} {s t : State} {m : Micro} (h : Executing f rest s)
    (hm : (routineSteps f.routine s.params s.seq.x)[f.step]? = some m) (hstep : microStep m f rest s = .next t)
    (hc : t.seq.cause ≠ causeTimeout) : Reaches [.sequencer] s t := by
  refine reaches_step h.refused ?_ hc
  simp only [agentStep, sequencerStep, h.active, if_true, h.stack, hm, hstep]

/-- A wait on an idle peripheral (R133). -/
theorem Executing.wait {f : Frame} {rest : List Frame} {s : State} (h : Executing f rest s)
    (hm : (routineSteps f.routine s.params s.seq.x)[f.step]? = some .spin) (hph : s.seq.phase ≠ .p3Mmap)
    (hb : s.p.busy = false) :
    Reaches [.sequencer] s { s with seq := { s.seq with stack := ⟨f.routine, f.step + 1⟩ :: rest, spincnt := 0 } } := by
  have hfree : readBusy s = false := by rw [readBusy, if_neg hph, hb]
  exact h.step hm (congrArg Host.Outcome.next (spin_free f rest hfree)) h.cause

/-- A return (R23). -/
theorem Executing.ret {f : Frame} {rest : List Frame} {s : State} (h : Executing f rest s)
    (hm : (routineSteps f.routine s.params s.seq.x)[f.step]? = some .ret) :
    Reaches [.sequencer] s { s with seq := { s.seq with stack := rest } } :=
  h.step hm rfl h.cause

/-! ## Register accesses over an idle peripheral -/

/-- The arming side effect of a write, on the peripheral alone (spec/46 R207). -/
def armed (written : Reg) (p : Periph) : Periph :=
  if arms written p then { p with live := some (snapshot p), busy := true } else p

/-- What a register access makes of an idle peripheral (R32 to R44). -/
def Micro.onIdle (m : Micro) (p : Periph) : Periph :=
  match m with
  | .en b => { p with en := b }
  | .disableIfActive => { p with en := false }
  | .psmask v => { p with psmask := v }
  | .psmatch v => { p with psmatch := v }
  | .pint v => { p with pint := v }
  | .apms => { p with apms := true }
  | .clearPcfg => armed .pcfg { p with pcfg := 0 }
  | .orPcfg k => armed .pcfg { p with pcfg := p.pcfg ||| k }
  | .dlen v => { p with dlen := v }
  | .addr v => armed .addr { p with addr := v }
  | .data v => armed .data { p with data := v }
  | .ackMatch => { p with smf := false }
  | .settle | .spin | .call _ | .ret => p

/-- The steps that are neither a wait, nor a call, nor a return. -/
def Micro.isAccess : Micro → Bool
  | .spin | .call _ | .ret => false
  | .en _ | .disableIfActive | .psmask _ | .psmatch _ | .pint _ | .apms | .clearPcfg | .orPcfg _ | .dlen _ | .addr _
  | .data _ | .ackMatch | .settle => true

/-- A disabled peripheral arms nothing (R206). -/
theorem armed_disabled (r : Reg) {p : Periph} (h : p.en = false) : armed r p = p := by
  simp [armed, arms, h]

theorem armed_of_arms {r : Reg} {p : Periph} (h : arms r p = true) :
    armed r p = { p with live := some (snapshot p), busy := true } := if_pos h

theorem arm_eq (r : Reg) (s : State) : arm r s = { s with p := armed r s.p } := by
  unfold arm armed
  split <;> rfl

/-- A descriptor register of an idle peripheral takes the value, and arms where it completes the descriptor. -/
theorem writeReg_idle (r : Reg) (v : Word) (s : State)
    (hr : r = .dlen ∨ r = .pcfg ∨ r = .addr ∨ r = .data ∨ r = .psmask ∨ r = .psmatch ∨ r = .pint)
    (hb : s.p.busy = false) : writeReg r v s = { s with p := armed r (setReg r v s.p) } := by
  rcases hr with rfl | rfl | rfl | rfl | rfl | rfl | rfl <;> simp [writeReg, hb, arm_eq]

/-- A register that completes no descriptor arms nothing. -/
theorem armed_untriggered {r : Reg} (p : Periph) (hr : r = .dlen ∨ r = .psmask ∨ r = .psmatch ∨ r = .pint) :
    armed r p = p := by
  rcases hr with rfl | rfl | rfl | rfl <;> simp [armed, arms, armTrigger]

theorem writeReg_untriggered (r : Reg) (v : Word) (s : State)
    (hr : r = .dlen ∨ r = .psmask ∨ r = .psmatch ∨ r = .pint) (hb : s.p.busy = false) :
    writeReg r v s = { s with p := setReg r v s.p } := by
  rw [writeReg_idle r v s (by tauto) hb, armed_untriggered _ hr]

/-- A register access over an idle peripheral changes the peripheral and the position alone. -/
theorem microStep_onIdle {m : Micro} (f : Frame) (rest : List Frame) {s : State} (hm : m.isAccess = true)
    (hb : s.p.busy = false) : microStep m f rest s = .next (advance f rest { s with p := m.onIdle s.p }) := by
  cases m with
  | en b => rw [microStep, writeEn_idle b s hb]; rfl
  | disableIfActive =>
    rw [microStep]
    split
    · rw [writeEn_idle false s hb]; rfl
    · next hen => rw [Micro.onIdle, ← Bool.eq_false_iff.mpr hen]
  | clearPcfg | orPcfg k | addr v | data v => rw [microStep, writeReg_idle _ _ s (by simp) hb]; rfl
  | psmask v | psmatch v | dlen v => rw [microStep, writeReg_untriggered _ _ s (by simp) hb]; rfl
  | pint v =>
    have hv : (v.setWidth 32).setWidth 16 = v := by simp
    rw [microStep, writeReg_untriggered _ _ s (by simp) hb, setReg, hv]
    rfl
  | apms => rw [microStep, setApms_idle s hb]; rfl
  | ackMatch => rw [microStep, ackMatch_eq]; rfl
  | settle => rfl
  | spin | call | ret => cases hm

/-- The peripheral after a list of register accesses, each over an idle one; none where it is busy before one of them, or
a step of the list is no access. -/
def Periph.afterAccesses : List Micro → Periph → Option Periph
  | [], p => some p
  | m :: ms, p => if m.isAccess && !p.busy then Periph.afterAccesses ms (m.onIdle p) else none

/-- The sequencer runs register accesses of its top frame one after the other. -/
theorem Executing.accesses {r : Routine} {rest : List Frame} {ms : List Micro} {q : Periph} :
    ∀ {k : Nat} {s : State}, Executing ⟨r, k⟩ rest s → ms <+: (routineSteps r s.params s.seq.x).drop k →
      s.p.afterAccesses ms = some q →
      Reaches (List.replicate ms.length .sequencer) s
        { s with p := q, seq := { s.seq with stack := ⟨r, k + ms.length⟩ :: rest } } := by
  induction ms with
  | nil =>
    intro k s h _ hq
    cases hq
    refine ⟨s.turn, s.draws, ?_⟩
    rw [List.length_nil, Nat.add_zero, ← h.stack]
    rfl
  | cons m ms ih =>
    intro k s h hpre hq
    simp only [Periph.afterAccesses, Bool.and_eq_true, Bool.not_eq_true', Option.ite_none_right_eq_some] at hq
    obtain ⟨⟨hm, hb⟩, hq⟩ := hq
    obtain ⟨tail, hdrop⟩ := hpre
    have hat : (routineSteps r s.params s.seq.x)[k]? = some m := by
      rw [← Nat.add_zero k, ← List.getElem?_drop, ← hdrop]
      rfl
    have hrest : (routineSteps r s.params s.seq.x).drop (k + 1) = ms ++ tail := by
      rw [← List.drop_drop, ← hdrop]
      rfl
    rw [List.length_cons, Nat.add_comm ms.length 1, ← Nat.add_assoc, Nat.add_comm 1, List.replicate_succ]
    refine (h.step hat (microStep_onIdle ⟨r, k⟩ rest hm hb) h.cause).trans fun turn draws => ?_
    exact ih (s := { advance ⟨r, k⟩ rest { s with p := m.onIdle s.p } with turn := turn, draws := draws })
      ⟨h.refused, h.active, h.cause, rfl⟩ ⟨tail, hrest.symm⟩ hq

/-! ## The status-wait that matches at its first poll (R132, R134) -/

/-- The registers a status-wait leaves (the table of R134); the length, address and data registers stay. -/
def Periph.leftByPoll (params : Params) (op mask pattern : Byte) (p : Periph) : Periph :=
  { p with en := false, apms := true, psmask := mask.setWidth 32, psmatch := pattern.setWidth 32,
           pint := params.pollInterval, pcfg := kPoll ||| op.setWidth 32, busy := false, smf := false, live := none }

/-- The peripheral during a status-wait, its poll live (R132 steps 0 to 8). -/
def Periph.polling (params : Params) (op mask pattern : Byte) (p : Periph) : Periph :=
  let q := p.leftByPoll params op mask pattern
  { q with en := true, busy := true, smf := p.smf, live := some (snapshot q) }

/-- The register accesses of WS up to its busy-wait arm the poll. -/
theorem afterAccesses_polling (params : Params) (op mask pattern : Byte) {p : Periph} (hb : p.busy = false) :
    p.afterAccesses ((wsSteps params op mask pattern).take 9) = some (p.polling params op mask pattern) := by
  have harms : arms .pcfg { p.leftByPoll params op mask pattern with en := true, live := p.live, smf := p.smf } = true :=
    arms_poll op _ rfl rfl rfl
  simp only [wsSteps, List.take_succ_cons, List.take_zero, Periph.afterAccesses, Micro.isAccess, Micro.onIdle, hb,
    armed_disabled, Bool.not_false, Bool.and_self, if_true, BitVec.ofNat_eq_ofNat, BitVec.zero_or]
  exact congrArg some (armed_of_arms harms)

/-- A poll whose byte matches ends the transaction (R210). -/
theorem pollCompare_matched {b : Byte} {p : Periph} {d : Descriptor} (hd : p.live = some d) (ha : p.apms = true)
    (hm : statusMatches b (d.psmask.setWidth 8) (d.psmatch.setWidth 8) = true) :
    pollCompare b p = { p with smf := true, live := none, busy := false } := by
  simp [pollCompare, hd, hm, ha]

/-- The opcode of a status register is one of the two status reads (R10). -/
theorem statusOpcode_read (p : Params) (r : StatusReg) :
    p.statusOpcode r = opcRead05 ∨ p.statusOpcode r = opcRead15 := by
  unfold Params.statusOpcode
  split <;> simp

/-- The poll of a status-wait whose condition the chip meets: it matches and is recorded (R209, R210). -/
theorem reaches_polled {s : State} {r : StatusReg} {mask pattern : Byte} {q : Periph} (hr : s.refused = none)
    (hc : s.seq.cause ≠ causeTimeout) (hq : s.c.quad = true) (hd : q.dlen = 0)
    (hp : s.p = q.polling s.params (s.params.statusOpcode r) mask pattern)
    (hmatch : ∀ free : Byte, statusByte s.params r s.c free &&& mask = pattern) :
    ∃ b, b &&& mask = pattern ∧ Reaches [.peripheral] s
      { s with
        bus := s.bus ++ [pollRecord (s.params.statusOpcode r) b]
        p := { q.leftByPoll s.params (s.params.statusOpcode r) mask pattern with en := true, smf := true } } := by
  have hpoll : peripheralStep s = .next (poll .four (s.params.statusOpcode r) s) := by
    rcases peripheralStep_poll (op := s.params.statusOpcode r) (s := s) (by rw [hp]; rfl) (by rw [hp]; rfl)
      (by rw [hp]; exact hd) with ⟨_, h⟩ | ⟨hno, _⟩
    · exact h
    · exact absurd (statusOpcode_read s.params r) hno
  have hb := hmatch (Config.freeStatus s.draws)
  refine ⟨_, hb, reaches_step hr (hpoll.trans (congrArg _ ?_)) hc⟩
  rw [poll_ok .four _ s hq, statusReg_statusOpcode,
    pollCompare_matched (p := s.p) (d := snapshot s.p) (by rw [hp]; rfl) (by rw [hp]; rfl) ?_, hp]
  · rfl
  · rw [hp]
    simpa [snapshot, Periph.polling, Periph.leftByPoll, statusMatches] using hb

/-- The end of WS once the peripheral is idle: its busy-wait, the acknowledgement of the match, and the return (R132 steps
9 to 12). -/
theorem Executing.ws_return {op mask pattern : Byte} {rest : List Frame} {s : State}
    (h : Executing ⟨.ws op mask pattern, 9⟩ rest s) (hph : s.seq.phase ≠ .p3Mmap) (hb : s.p.busy = false) :
    Reaches (List.replicate 4 .sequencer) s
      { s with
        p := { s.p with smf := false, en := false }
        seq := { s.seq with stack := rest, spincnt := 0 } } := by
  refine (h.wait rfl hph hb).trans (l' := List.replicate 2 .sequencer ++ [.sequencer]) fun turn draws => ?_
  refine Reaches.trans (Executing.accesses (k := 10) (ms := [.ackMatch, .en false])
    (q := { s.p with smf := false, en := false }) ⟨h.refused, h.active, h.cause, rfl⟩ ⟨[.ret], rfl⟩ ?_)
    fun turn draws => Executing.ret ⟨h.refused, h.active, h.cause, rfl⟩ rfl
  simp [Periph.afterAccesses, Micro.isAccess, Micro.onIdle, hb]

/-- Routine WS over an idle peripheral and a chip that meets its condition: one poll, and the registers of R134's table. -/
theorem Executing.ws_prompt {r : StatusReg} {mask pattern : Byte} {rest : List Frame} {s : State}
    (h : Executing ⟨.ws (s.params.statusOpcode r) mask pattern, 0⟩ rest s) (hph : s.seq.phase ≠ .p3Mmap)
    (hb : s.p.busy = false) (hd : s.p.dlen = 0) (hq : s.c.quad = true)
    (hmatch : ∀ free : Byte, statusByte s.params r s.c free &&& mask = pattern) :
    ∃ b, b &&& mask = pattern ∧ Reaches promptWs s
      { s with
        bus := s.bus ++ [pollRecord (s.params.statusOpcode r) b]
        p := s.p.leftByPoll s.params (s.params.statusOpcode r) mask pattern
        seq := { s.seq with stack := rest, spincnt := 0 } } := by
  obtain ⟨turn, draws, hrun⟩ :=
    h.accesses (ms := (wsSteps s.params (s.params.statusOpcode r) mask pattern).take 9) (List.take_prefix _ _)
      (afterAccesses_polling s.params (s.params.statusOpcode r) mask pattern hb)
  obtain ⟨b, hbm, turn', draws', hpoll⟩ := reaches_polled (r := r) (mask := mask) (pattern := pattern) (q := s.p)
    (s := { s with
      p := s.p.polling s.params (s.params.statusOpcode r) mask pattern
      seq := { s.seq with stack := ⟨.ws (s.params.statusOpcode r) mask pattern, 9⟩ :: rest }
      turn := turn
      draws := draws }) h.refused h.cause hq hd rfl hmatch
  refine ⟨b, hbm, Reaches.after ((runAs_append _ _ s _ hrun).trans hpoll) ?_⟩
  exact Executing.ws_return ⟨h.refused, h.active, h.cause, rfl⟩ hph rfl

/-- `done` of a command whose routine has returned (R24). -/
theorem reaches_done {s : State} (hr : s.refused = none) (hact : s.seq.active = true) (hst : s.seq.stack = [])
    (hc : s.seq.cause ≠ causeTimeout) : Reaches [.sequencer] s (commandDone s) := by
  refine reaches_step hr ?_ hc
  simp only [agentStep, sequencerStep, hact, if_true, hst]

end Sys2Proof.Machine

namespace Sys2Proof.Proofs

open Sys2Proof.Machine

/-- Settles O14: acceptance, the prompt run of WS (`Executing.ws_prompt`), and `done`. -/
theorem waitStatusRunsToDone : Obligations.WaitStatusRunsToDone := by
  intro s r mask pattern hC hr hact hf hph hmatch
  have hc : s.seq.cause ≠ 3 := by rw [hC.basic.fault_cause.mp hf]; decide
  have hph0 : s.seq.phase ≠ .p0Reset := by rcases hph with h | h <;> rw [h] <;> decide
  have hph3 : s.seq.phase ≠ .p3Mmap := by rcases hph with h | h <;> rw [h] <;> decide
  obtain ⟨⟨hlive, _, hdlen⟩, _, _, _, _⟩ := hC.idle hc hact
  have hbusy : s.p.busy = false := by rw [hC.basic.busy_live, hlive]; rfl
  let op := s.params.statusOpcode r
  let u := started ⟨0x01, mask.setWidth 32, pattern.setWidth 32, op⟩ (.ws op mask pattern) s
  obtain ⟨b, hbm, turn, draws, hws⟩ := Executing.ws_prompt (s := u) (r := r) (rest := []) (mask := mask)
    (pattern := pattern) ⟨hr, rfl, hc, rfl⟩ hph3 hbusy hdlen ((hC.phase hc).quad hph0).1 hmatch
  obtain ⟨turn', draws', hdone⟩ := Reaches.after hws (reaches_done hr rfl rfl hc)
  exact ⟨u, _, b, ((commandsStartTheirRoutines s hact hf).1 hph).1 op mask pattern, hdone, ⟨hr, rfl, hf, rfl, rfl⟩,
    ⟨rfl, rfl, rfl, rfl, rfl, rfl, rfl, rfl, rfl, hdlen⟩, rfl, hbm, rfl, rfl, rfl⟩

end Sys2Proof.Proofs

/-! SUPPORT. The routines that send one instruction and confirm it with a status-wait (spec/41 R146, spec/44 R176, R180),
on the prompt schedule; routine WE over an idle peripheral and an idle chip. -/

namespace Sys2Proof.Machine

/-! ## Sending an instruction and confirming it -/

/-- A run goes on to where a poll whose byte meets `P` leads. -/
theorem Reaches.polled {l l' : List Agent} {s t : State} {P : Byte → Prop} {u : Byte → State} (h : Reaches l s t)
    (h' : ∀ turn draws, ∃ b, P b ∧ Reaches l' { t with turn := turn, draws := draws } (u b)) :
    ∃ b, P b ∧ Reaches (l ++ l') s (u b) := by
  obtain ⟨turn, draws, hrun⟩ := h
  obtain ⟨b, hb, hrest⟩ := h' turn draws
  exact ⟨b, hb, hrest.after hrun⟩

/-- A register access over an idle peripheral. -/
theorem Executing.access {f : Frame} {rest : List Frame} {s : State} {m : Micro} (h : Executing f rest s)
    (hm : (routineSteps f.routine s.params s.seq.x)[f.step]? = some m) (hacc : m.isAccess = true)
    (hb : s.p.busy = false) :
    Reaches [.sequencer] s
      { s with p := m.onIdle s.p, seq := { s.seq with stack := ⟨f.routine, f.step + 1⟩ :: rest } } :=
  h.step hm (microStep_onIdle f rest hacc hb) h.cause

/-- A call (R23). -/
theorem Executing.call {f : Frame} {rest : List Frame} {s : State} {r : Routine} (h : Executing f rest s)
    (hm : (routineSteps f.routine s.params s.seq.x)[f.step]? = some (.call r)) (hrest : rest.length < 2) :
    Reaches [.sequencer] s
      { s with seq := { s.seq with stack := ⟨r, 0⟩ :: ⟨f.routine, f.step + 1⟩ :: rest } } :=
  h.step hm (if_pos hrest) h.cause

/-- The peripheral with a transaction of configuration `k` just armed, no other register changed. -/
def Periph.sending (k : Word) (p : Periph) : Periph :=
  { p with en := true, pcfg := k, busy := true, live := some (snapshot { p with pcfg := k }) }

/-- The first five steps of WE, EQ and E4 arm their transaction, where the opcode write completes the descriptor. -/
theorem afterAccesses_sending {m : Micro} {k op : Word} {p : Periph} (hm : m = .en false ∨ m = .disableIfActive)
    (hb : p.busy = false)
    (harms : ∀ q : Periph, q.en = true → q.busy = false → q.pcfg = k ||| op → arms .pcfg q = true) :
    p.afterAccesses [m, .clearPcfg, .orPcfg k, .en true, .orPcfg op] = some (p.sending (k ||| op)) := by
  rcases hm with rfl | rfl
  all_goals
    simp only [Periph.afterAccesses, Micro.isAccess, Micro.onIdle, hb, armed_disabled, Bool.not_false, Bool.and_self,
      if_true, BitVec.ofNat_eq_ofNat, BitVec.zero_or]
    exact congrArg some (armed_of_arms (harms _ rfl rfl rfl))

/-- The end of a routine that has sent its instruction: the busy-wait, `P.CTRL.EN <- 0`, the status-wait whose condition
the chip meets, and the return. -/
theorem Executing.confirm {r : Routine} {k : Nat} {reg : StatusReg} {mask pattern : Byte} {rest : List Frame} {s : State}
    (h : Executing ⟨r, k⟩ rest s)
    (hsteps : (routineSteps r s.params s.seq.x).drop k =
      [.spin, .en false, .call (.ws (s.params.statusOpcode reg) mask pattern), .ret])
    (hrest : rest.length < 2) (hph : s.seq.phase ≠ .p3Mmap) (hb : s.p.busy = false) (hd : s.p.dlen = 0)
    (hq : s.c.quad = true) (hmatch : ∀ free : Byte, statusByte s.params reg s.c free &&& mask = pattern) :
    ∃ b, b &&& mask = pattern ∧ Reaches (List.replicate 3 .sequencer ++ promptWs ++ [.sequencer]) s
      { s with
        bus := s.bus ++ [pollRecord (s.params.statusOpcode reg) b]
        p := s.p.leftByPoll s.params (s.params.statusOpcode reg) mask pattern
        seq := { s.seq with stack := rest, spincnt := 0 } } := by
  have hat (j : Nat) : (routineSteps r s.params s.seq.x)[k + j]? =
      [.spin, .en false, .call (.ws (s.params.statusOpcode reg) mask pattern), .ret][j]? := by
    rw [← hsteps, List.getElem?_drop]
  have hwaited : ∃ b, b &&& mask = pattern ∧ Reaches (List.replicate 3 .sequencer ++ promptWs) s
      { s with
        bus := s.bus ++ [pollRecord (s.params.statusOpcode reg) b]
        p := s.p.leftByPoll s.params (s.params.statusOpcode reg) mask pattern
        seq := { s.seq with stack := ⟨r, k + 3⟩ :: rest, spincnt := 0 } } := by
    refine Reaches.polled (l' := [.sequencer] ++ ([.sequencer] ++ promptWs)) (h.wait (hat 0) hph hb)
      fun turn draws => ?_
    refine Reaches.polled (Executing.access (f := ⟨r, k + 1⟩) ⟨h.refused, h.active, h.cause, rfl⟩ (hat 1) rfl hb)
      fun turn draws => ?_
    refine Reaches.polled (Executing.call (f := ⟨r, k + 2⟩) ⟨h.refused, h.active, h.cause, rfl⟩ (hat 2) hrest)
      fun turn draws => ?_
    exact Executing.ws_prompt ⟨h.refused, h.active, h.cause, rfl⟩ hph hb hd hq hmatch
  obtain ⟨b, hbm, hwaited⟩ := hwaited
  exact ⟨b, hbm, hwaited.trans fun turn draws =>
    Executing.ret (f := ⟨r, k + 3⟩) ⟨h.refused, h.active, h.cause, rfl⟩ (hat 3)⟩

/-! ## Routine WE (R146, R147) -/

/-- The opcode write of WE arms (spec/46 R207). -/
theorem arms_wren (p : Periph) (hen : p.en = true) (hb : p.busy = false) (hp : p.pcfg = kWren ||| opcWren.setWidth 32) :
    arms .pcfg p = true := by
  simp only [arms, hen, hb, hp]
  decide

/-- The write-enable reaches a chip in quad mode with nothing in progress: it is recorded and the latch is set (R208,
R216). -/
theorem reaches_latched {q : Periph} {s : State} (hr : s.refused = none) (hc : s.seq.cause ≠ causeTimeout)
    (hp : s.p = q.sending (kWren ||| opcWren.setWidth 32)) (hq : s.c.quad = true) (hw : s.c.wip = false) :
    Reaches [.peripheral] s
      { s with
        c := { s.c with wel := true }
        bus := s.bus ++ [⟨.four, opcWren, none, 0, none⟩]
        p := { s.p with live := none, busy := false } } := by
  have hlive : s.p.live = some (snapshot s.p) := by rw [hp]; rfl
  have hpcfg : s.p.pcfg = kWren ||| opcWren.setWidth 32 := by rw [hp]; rfl
  have hmode : pcfgFmode (snapshot s.p).pcfg = 0 := by rw [snapshot, hpcfg, fmode_we]
  refine reaches_step hr ?_ hc
  rw [agentStep, peripheralStep, hlive]
  simp only
  rw [if_neg (by rw [hmode]; decide), performLive_ok (request_we s.p hpcfg) (by rw [hmode]; simp [fmodePoll]) rfl,
    exec, execChipWren, performTxn, chipReact_ok .four _ s hq hw]
  rfl

/-- Every status byte of a chip with the latch set and nothing in progress meets the condition of WE's status-wait (R29,
R146). -/
theorem statusByte_latched {p : Params} {c : Chip} (hwf : p.wf = true) (hwel : c.wel = true) (hwip : c.wip = false)
    (free : Byte) : statusByte p .a c free &&& (p.welMask ||| p.wipMask) = p.welMask := by
  obtain ⟨hshowsWip, hshowsWel, _, _⟩ := Proofs.statusRegisterBits.2 p c free hwf
  rw [BitVec.and_or_distrib_left, hshowsWel, hshowsWip, hwel, hwip]
  simp

/-- Routine WE over an idle peripheral and an idle chip in quad mode: 0x06 and one poll of register A, the latch set, and
the registers of R134's table. -/
theorem Executing.we_prompt {rest : List Frame} {s : State} (h : Executing ⟨.we, 0⟩ rest s) (hrest : rest.length < 2)
    (hwf : s.params.wf = true) (hph : s.seq.phase ≠ .p3Mmap) (hb : s.p.busy = false) (hd : s.p.dlen = 0)
    (hq : s.c.quad = true) (hw : s.c.wip = false) :
    ∃ b, b &&& (s.params.welMask ||| s.params.wipMask) = s.params.welMask ∧ Reaches promptShort s
      { s with
        c := { s.c with wel := true }
        bus := s.bus ++ [⟨.four, opcWren, none, 0, none⟩] ++ [pollRecord s.params.opcRdsrA b]
        p := s.p.leftByPoll s.params s.params.opcRdsrA (s.params.welMask ||| s.params.wipMask) s.params.welMask
        seq := { s.seq with stack := rest, spincnt := 0 } } := by
  refine Reaches.polled (l' := [.peripheral] ++ (List.replicate 3 .sequencer ++ promptWs ++ [.sequencer]))
    (h.accesses (ms := (weSteps s.params).take 5) (List.take_prefix _ _)
      (afterAccesses_sending (.inl rfl) hb arms_wren)) fun turn draws => ?_
  refine Reaches.polled (reaches_latched (q := s.p) h.refused h.cause rfl hq hw) fun turn draws => ?_
  exact Executing.confirm (r := .we) (k := 5) (reg := .a) ⟨h.refused, h.active, h.cause, rfl⟩ rfl hrest hph rfl hd hq
    (statusByte_latched hwf rfl hw)

end Sys2Proof.Machine

namespace Sys2Proof.Proofs

open Sys2Proof.Machine

/-- Settles O15: acceptance, the prompt run of WE (`Executing.we_prompt`), and `done`. -/
theorem writeEnableRunsToDone : Obligations.WriteEnableRunsToDone := by
  intro s hC hr hact hf hph
  have hc : s.seq.cause ≠ 3 := by rw [hC.basic.fault_cause.mp hf]; decide
  have hph0 : s.seq.phase ≠ .p0Reset := by rcases hph with h | h <;> rw [h] <;> decide
  have hph3 : s.seq.phase ≠ .p3Mmap := by rcases hph with h | h <;> rw [h] <;> decide
  obtain ⟨⟨hlive, _, hdlen⟩, hwip, _, _, _⟩ := hC.idle hc hact
  have hbusy : s.p.busy = false := by rw [hC.basic.busy_live, hlive]; rfl
  let u := started ⟨0x02, 0, 0, 0⟩ .we s
  obtain ⟨b, hbm, turn, draws, hwe⟩ := Executing.we_prompt (s := u) (rest := []) ⟨hr, rfl, hc, rfl⟩ (by decide)
    hC.basic.params hph3 hbusy hdlen ((hC.phase hc).quad hph0).1 hwip
  obtain ⟨turn', draws', hdone⟩ := Reaches.after hwe (reaches_done hr rfl rfl hc)
  exact ⟨u, _, b, ((commandsStartTheirRoutines s hact hf).1 hph).2, hdone, ⟨hr, rfl, hf, rfl, rfl⟩, rfl,
    ⟨rfl, rfl, rfl, rfl, rfl, rfl, rfl, rfl, rfl, hdlen⟩, List.append_assoc .., hbm, rfl, rfl⟩

end Sys2Proof.Proofs

/-! SUPPORT. Routine ER over an idle peripheral and an idle chip, on the prompt schedule (spec/42 R156, R157): the indirect
transaction and the completion it starts, the status-wait that sees the completion, and the erased sector. -/

namespace Sys2Proof.Machine

/-! ## An indirect transaction, and the completion of what it started -/

/-- The peripheral performs an indirect-write transaction whose request the chip decodes (R208). -/
theorem reaches_performed {s t : State} {d : Descriptor} {req : BusReq} {i : Instr} (hr : s.refused = none)
    (hlive : s.p.live = some d) (hmode : pcfgFmode d.pcfg = fmodeWrite) (hreq : requestOf d = .ok req)
    (hdec : decodeBus req = .ok i) (hexec : exec i s = .next t) (hc : t.seq.cause ≠ causeTimeout) :
    Reaches [.peripheral] s t := by
  refine reaches_step hr ?_ hc
  rw [agentStep, peripheralStep, hlive]
  simp only
  rw [if_neg (by rw [hmode]; decide), performLive_ok hreq (by rw [hmode]; simp [fmodeWrite, fmodePoll]) hdec, hexec]

/-- The chip completes the operation in progress (R222). -/
theorem reaches_completed {s : State} {op : PendingOp} (hr : s.refused = none) (hc : s.seq.cause ≠ causeTimeout)
    (hw : s.c.wip = true) (hop : s.c.pending = some op) (hin : op.inChip s.params = true) :
    Reaches [.chip] s (completed op s) := by
  refine reaches_step hr ?_ hc
  rw [agentStep, chipStep_of s hc, completePending, hw, hop]
  exact if_pos hin

/-- Every status byte of a chip with nothing in progress meets the condition of the status-wait of ER and PW (R29, R156,
R166). -/
theorem statusByte_idle {p : Params} {c : Chip} (hwf : p.wf = true) (hwip : c.wip = false) (free : Byte) :
    statusByte p .a c free &&& p.wipMask = 0 := by
  rw [(Proofs.statusRegisterBits.2 p c free hwf).1, hwip]
  rfl

/-- The end of a routine that has started an operation: it calls the status-wait, the chip completes the operation and
then meets the wait's condition, and the routine returns. -/
theorem Executing.await_completion {r : Routine} {k : Nat} {op : PendingOp} {reg : StatusReg} {mask pattern : Byte}
    {rest : List Frame} {s : State} (h : Executing ⟨r, k⟩ rest s)
    (hsteps : (routineSteps r s.params s.seq.x).drop k = [.call (.ws (s.params.statusOpcode reg) mask pattern), .ret])
    (hrest : rest.length < 2) (hph : s.seq.phase ≠ .p3Mmap) (hb : s.p.busy = false) (hd : s.p.dlen = 0)
    (hq : s.c.quad = true) (hw : s.c.wip = true) (hop : s.c.pending = some op) (hin : op.inChip s.params = true)
    (hmatch : ∀ free : Byte, statusByte s.params reg (completed op s).c free &&& mask = pattern) :
    ∃ b, b &&& mask = pattern ∧ Reaches
      ([Agent.sequencer, Agent.chip] ++ promptWs ++ [Agent.sequencer]) s
      { s with
        c := (completed op s).c
        bus := s.bus ++ [pollRecord (s.params.statusOpcode reg) b]
        p := s.p.leftByPoll s.params (s.params.statusOpcode reg) mask pattern
        seq := { s.seq with stack := rest, spincnt := 0 } } := by
  have hat (j : Nat) : (routineSteps r s.params s.seq.x)[k + j]? =
      [.call (.ws (s.params.statusOpcode reg) mask pattern), .ret][j]? := by
    rw [← hsteps, List.getElem?_drop]
  have hwaited : ∃ b, b &&& mask = pattern ∧ Reaches ([Agent.sequencer, Agent.chip] ++ promptWs) s
      { s with
        c := (completed op s).c
        bus := s.bus ++ [pollRecord (s.params.statusOpcode reg) b]
        p := s.p.leftByPoll s.params (s.params.statusOpcode reg) mask pattern
        seq := { s.seq with stack := ⟨r, k + 1⟩ :: rest, spincnt := 0 } } := by
    refine Reaches.polled (l' := [.chip] ++ promptWs) (h.call (hat 0) hrest) fun turn draws => ?_
    refine Reaches.polled (reaches_completed h.refused h.cause hw hop hin) fun turn draws => ?_
    exact Executing.ws_prompt ⟨h.refused, h.active, h.cause, rfl⟩ hph hb hd hq hmatch
  obtain ⟨b, hbm, hwaited⟩ := hwaited
  exact ⟨b, hbm, hwaited.trans fun turn draws =>
    Executing.ret (f := ⟨r, k + 1⟩) ⟨h.refused, h.active, h.cause, rfl⟩ (hat 1)⟩

/-- The start of a command that calls WE first: the call, and WE's run. -/
theorem Executing.latch {r : Routine} {s : State} (h : Executing ⟨r, 0⟩ [] s)
    (hcall : (routineSteps r s.params s.seq.x)[0]? = some (.call .we)) (hwf : s.params.wf = true)
    (hph : s.seq.phase ≠ .p3Mmap) (hb : s.p.busy = false) (hd : s.p.dlen = 0) (hq : s.c.quad = true)
    (hw : s.c.wip = false) :
    ∃ b, b &&& (s.params.welMask ||| s.params.wipMask) = s.params.welMask ∧ Reaches ([Agent.sequencer] ++ promptShort) s
      { s with
        c := { s.c with wel := true }
        bus := s.bus ++ [⟨.four, opcWren, none, 0, none⟩] ++ [pollRecord s.params.opcRdsrA b]
        p := s.p.leftByPoll s.params s.params.opcRdsrA (s.params.welMask ||| s.params.wipMask) s.params.welMask
        seq := { s.seq with stack := [⟨r, 1⟩], spincnt := 0 } } := by
  refine Reaches.polled (h.call hcall Nat.two_pos) fun turn draws => ?_
  exact Executing.we_prompt (rest := [⟨r, 1⟩])
    (s := { s with seq := { s.seq with stack := [⟨.we, 0⟩, ⟨r, 1⟩] }, turn := turn, draws := draws })
    ⟨h.refused, h.active, h.cause, rfl⟩ Nat.one_lt_two hwf hph hb hd hq hw

/-! ## The erase transaction (R156, R217) -/

/-- The opcode write of ER completes no descriptor, which waits for the address (spec/46 R207). -/
theorem armed_pcfg_erase {p : Periph} (hp : p.pcfg = kErase ||| opcSe.setWidth 32) : armed .pcfg p = p := by
  have hwaits : armTrigger .pcfg p.pcfg = false := by rw [hp]; decide
  simp [armed, arms, hwaits]

/-- The address write of ER arms (spec/46 R207). -/
theorem arms_addr_erase {p : Periph} (hen : p.en = true) (hb : p.busy = false)
    (hp : p.pcfg = kErase ||| opcSe.setWidth 32) : arms .addr p = true := by
  simp only [arms, hen, hb, hp]
  decide

/-- Steps 2 to 6 of ER arm the erase of the sector at `a`. -/
theorem afterAccesses_erasing (a : Word) {p : Periph} (hen : p.en = false) (hb : p.busy = false) :
    p.afterAccesses [.clearPcfg, .orPcfg kErase, .en true, .orPcfg (opcSe.setWidth 32), .addr a] =
      some ({ p with addr := a }.sending (kErase ||| opcSe.setWidth 32)) := by
  simp only [Periph.afterAccesses, Micro.isAccess, Micro.onIdle, hen, hb, armed_disabled, armed_pcfg_erase,
    Bool.not_false, Bool.and_self, if_true, BitVec.ofNat_eq_ofNat, BitVec.zero_or]
  exact congrArg some (armed_of_arms (arms_addr_erase rfl rfl rfl))

/-- An enabled erase of a sector of the chip is recorded and in progress (R208, R217). -/
theorem execChipSe4k_accepted {a : Word} {s : State} (hq : s.c.quad = true) (hw : s.c.wip = false)
    (haddr4 : s.c.addr4 = true) (hwel : s.c.wel = true) (ha : a.toNat < s.params.flashSize) :
    exec (.chipSe4k a) s = .next
      { s with
        c := { s.c with pending := some (.erase (a - BitVec.ofNat 32 (a.toNat % sectorSize))), wip := true }
        bus := s.bus ++ [⟨.four, opcSe, some a, 0, none⟩]
        p := { s.p with live := none, busy := false } } := by
  rw [exec, execChipSe4k, performTxn, chipReact_ok .four _ s hq hw, acceptErase, if_neg (by simp [haddr4, hwel]),
    if_neg (Nat.not_le.mpr ha)]
  rfl

/-- An erase that starts in the chip lies in it: both the sector and the capacity are multiples of 4096 (R10, R62). -/
theorem eraseAddress_inChip {p : Params} {i : Word} (hwf : p.wf = true) (hi : (eraseAddress i).toNat < p.flashSize) :
    (PendingOp.erase (eraseAddress i)).inChip p = true := by
  have hsize : p.flashSize % 4096 = 0 := by
    simp only [Params.wf, Bool.and_eq_true, beq_iff_eq] at hwf
    tauto
  have haligned : (eraseAddress i).toNat % 4096 = 0 := by
    simp only [eraseAddress, BitVec.toNat_mul, show (4096 : Word).toNat = 4096 from rfl]
    omega
  have hfits : (eraseAddress i).toNat + sectorSize ≤ p.flashSize := by
    rw [sectorSize]
    omega
  exact decide_eq_true hfits

/-- The erase of a sector reaches a chip in 4-byte quad mode with the latch set and nothing in progress: it is recorded
and in progress (R217). -/
theorem reaches_erasing {i : Word} {q : Periph} {s : State} (hr : s.refused = none) (hc : s.seq.cause ≠ causeTimeout)
    (hp : s.p = { q with addr := eraseAddress i }.sending (kErase ||| opcSe.setWidth 32)) (hq : s.c.quad = true)
    (hw : s.c.wip = false) (haddr4 : s.c.addr4 = true) (hwel : s.c.wel = true)
    (hi : (eraseAddress i).toNat < s.params.flashSize) :
    Reaches [.peripheral] s
      { s with
        c := { s.c with pending := some (.erase (eraseAddress i)), wip := true }
        bus := s.bus ++ [⟨.four, opcSe, some (eraseAddress i), 0, none⟩]
        p := { s.p with live := none, busy := false } } := by
  have hpcfg : s.p.pcfg = kErase ||| opcSe.setWidth 32 := by rw [hp]; rfl
  have haddr : s.p.addr = eraseAddress i := by rw [hp]; rfl
  have hexec := execChipSe4k_accepted hq hw haddr4 hwel hi
  rw [erase_aligned] at hexec
  refine reaches_performed hr (d := snapshot s.p) (by rw [hp]; rfl) ?_ (request_er s.p hpcfg) ?_ hexec hc
  · rw [snapshot, hpcfg, fmode_er]; rfl
  · rw [haddr]; rfl

/-- A byte after the erase of a sector (R222). -/
theorem read_erased (p : Params) (base : Word) (m : Memory) (a : Nat) :
    Memory.read p.launchByte ((PendingOp.erase base).apply p m) a =
      if base.toNat ≤ a ∧ a < base.toNat + 4096 then p.erasedByte else Memory.read p.launchByte m a :=
  Memory.read_setRun ..

/-! ## Routine ER (R156, R157) -/

/-- The chip after the erase of sector `i`: the sector erased, the latch consumed, nothing in progress. -/
def Chip.erased (params : Params) (i : Word) (c : Chip) : Chip :=
  { c with
    flash := (PendingOp.erase (eraseAddress i)).apply params c.flash
    pending := none
    wip := false
    wel := false }

/-- Routine ER after its call of WE: steps 1 to 6, the transaction, steps 7 to 9, the erase, the status-wait, step 10. -/
def promptErase : List Agent :=
  [Agent.sequencer] ++ (List.replicate 5 Agent.sequencer ++ ([Agent.peripheral] ++ ([Agent.sequencer] ++
    ([Agent.sequencer] ++ ([Agent.sequencer, Agent.chip] ++ promptWs ++ [Agent.sequencer])))))

theorem promptSchedule_eraseSector (i : Word) :
    promptSchedule (.eraseSector i) =
      [Agent.sequencer] ++ promptShort ++ promptErase ++ [Agent.sequencer] := rfl

/-- The erase changes no flag of an idle chip but the latch. -/
theorem Chip.erased_of_idle (params : Params) (i : Word) {c : Chip} (hw : c.wip = false) (hp : c.pending = none) :
    c.erased params i = { c with flash := (c.erased params i).flash, wel := false } := by
  simp only [Chip.erased, hw, hp]

/-- Routine ER over an idle peripheral and an idle chip in 4-byte quad mode: routine WE, then the erase. -/
theorem Executing.er_prompt {s : State} (h : Executing ⟨.er, 0⟩ [] s) (hwf : s.params.wf = true)
    (hph : s.seq.phase ≠ .p3Mmap) (hb : s.p.busy = false) (hd : s.p.dlen = 0) (hq : s.c.quad = true)
    (haddr4 : s.c.addr4 = true) (hw : s.c.wip = false)
    (hi : (eraseAddress s.seq.x.a).toNat < s.params.flashSize) :
    ∃ b, b &&& (s.params.welMask ||| s.params.wipMask) = s.params.welMask ∧ ∃ b', b' &&& s.params.wipMask = 0 ∧
      Reaches ([Agent.sequencer] ++ promptShort ++ promptErase) s
        { s with
          c := s.c.erased s.params s.seq.x.a
          bus := s.bus ++ [⟨.four, opcWren, none, 0, none⟩] ++ [pollRecord s.params.opcRdsrA b] ++
            [⟨.four, opcSe, some (eraseAddress s.seq.x.a), 0, none⟩] ++ [pollRecord s.params.opcRdsrA b']
          p := { s.p with addr := eraseAddress s.seq.x.a }.leftByPoll s.params s.params.opcRdsrA s.params.wipMask 0
          seq := { s.seq with stack := [], spincnt := 0 } } := by
  obtain ⟨b, hbm, hlatched⟩ := h.latch rfl hwf hph hb hd hq hw
  refine ⟨b, hbm, hlatched.polled fun turn draws => ?_⟩
  refine Reaches.polled (Executing.wait (f := ⟨.er, 1⟩) ⟨h.refused, h.active, h.cause, rfl⟩ rfl hph rfl)
    fun turn draws => ?_
  refine Reaches.polled (Executing.accesses (r := .er) (k := 2) (ms := ((erSteps s.params s.seq.x).drop 2).take 5)
    ⟨h.refused, h.active, h.cause, rfl⟩ (List.take_prefix _ _)
    (afterAccesses_erasing (eraseAddress s.seq.x.a) rfl rfl)) fun turn draws => ?_
  refine Reaches.polled (reaches_erasing h.refused h.cause rfl hq hw haddr4 rfl hi) fun turn draws => ?_
  refine Reaches.polled (Executing.wait (f := ⟨.er, 7⟩) ⟨h.refused, h.active, h.cause, rfl⟩ rfl hph rfl)
    fun turn draws => ?_
  refine Reaches.polled (Executing.access (f := ⟨.er, 8⟩) ⟨h.refused, h.active, h.cause, rfl⟩ rfl rfl rfl)
    fun turn draws => ?_
  exact Executing.await_completion (r := .er) (k := 9) (op := .erase (eraseAddress s.seq.x.a)) (reg := .a)
    ⟨h.refused, h.active, h.cause, rfl⟩ rfl Nat.two_pos hph rfl hd hq rfl rfl (eraseAddress_inChip hwf hi)
    (statusByte_idle hwf rfl)

end Sys2Proof.Machine

namespace Sys2Proof.Proofs

open Sys2Proof.Machine

/-- Settles O16: acceptance, the prompt run of ER (`Executing.er_prompt`), and `done`; the bytes of Flash by
`read_erased`. -/
theorem eraseSectorRunsToDone : Obligations.EraseSectorRunsToDone := by
  intro s i hC hr hact hf hph hi
  have hc : s.seq.cause ≠ 3 := by rw [hC.basic.fault_cause.mp hf]; decide
  have hph3 : s.seq.phase ≠ .p3Mmap := by rw [hph]; decide
  obtain ⟨⟨hlive, _, hdlen⟩, hwip, _, _, _⟩ := hC.idle hc hact
  have hbusy : s.p.busy = false := by rw [hC.basic.busy_live, hlive]; rfl
  have hpend : s.c.pending = none := by simpa [hwip] using hC.basic.wip_pending
  have hphase := hC.phase hc
  let u := started ⟨0x03, i, 0, 0⟩ .er s
  obtain ⟨b, hbm, b', hbm', turn, draws, her⟩ := Executing.er_prompt (s := u) ⟨hr, rfl, hc, rfl⟩ hC.basic.params hph3
    hbusy hdlen (hphase.quad (by rw [hph]; decide)).1 (hphase.addr4 (.inl hph)) hwip hi
  obtain ⟨turn', draws', hdone⟩ := Reaches.after her (reaches_done hr rfl rfl hc)
  exact ⟨u, _, b, b', ((commandsStartTheirRoutines s hact hf).2.1 hph).1 i,
    (congrArg (runAs · u) (promptSchedule_eraseSector i)).trans hdone, ⟨hr, rfl, hf, hph, rfl⟩,
    Chip.erased_of_idle s.params i hwip hpend, read_erased s.params (eraseAddress i) s.c.flash,
    ⟨rfl, rfl, rfl, rfl, rfl, rfl, rfl, rfl, rfl, hdlen⟩, rfl, rfl,
    by simp only [commandDone_bus, List.append_assoc]; rfl, hbm, hbm'⟩

end Sys2Proof.Proofs

/-! SUPPORT. The AND law of WRITE_WORD on every schedule of the sequencer, the peripheral and the chip (spec/43 R167): only
the program of its own word is ever pending, so no step changes what a byte says of the bits its data has. -/

namespace Sys2Proof.Machine

/-! ## The bytes a program writes -/

/-- The program of the word `d` at `a` (R166). -/
def wordProgram (a d : Word) : PendingOp := .program a (wordByte d 0) (wordByte d 1) (wordByte d 2) (wordByte d 3)

/-- A byte of the word after its program (R222). -/
theorem read_programmed (p : Params) (a d : Word) (m : Memory) {k : Nat} (hk : k < 4) :
    Memory.read p.launchByte ((wordProgram a d).apply p m) (a.toNat + k) =
      Memory.read p.launchByte m (a.toNat + k) &&& wordByte d k := by
  have hbyte : [wordByte d 0, wordByte d 1, wordByte d 2, wordByte d 3].getD k 0 = wordByte d k := by
    interval_cases k <;> rfl
  rw [wordProgram, PendingOp.apply, Memory.read_setRun, if_pos (by omega), Nat.add_sub_cancel_left, hbyte]

/-- What an executing WRITE_WORD has left pending is the program of its word (R167). -/
theorem ActiveOk.pending_program {s : State} {op : PendingOp} (hA : ActiveOk s) (h4 : s.seq.x.op = 0x04)
    (hw : s.c.wip = true) (hop : s.c.pending = some op) :
    op = wordProgram s.seq.x.a s.seq.x.b := by
  have hst : s.seq.stack ≠ [] := fun h => Bool.noConfusion (hw.symm.trans (hA.finished h).wip)
  obtain ⟨f, hf, hx⟩ := stackOk_bottom hA.stack hst
  have hfr : f.routine = .pw := by simpa [routineOf, h4] using hx
  have hchip := hA.chip f hf
  simp only [chipOk, hfr] at hchip
  obtain ⟨before, after⟩ := hchip
  have hperf : performed f s := by_contra fun h => Bool.noConfusion (hw.symm.trans (before h))
  rcases after hperf with hpend | ⟨hnone, _⟩
  · exact Option.some.inj (hop.symm.trans hpend)
  · cases hop.symm.trans hnone

/-! ## What a run keeps -/

/-- What every step of the sequencer, the peripheral and the chip from a consistent state keeps, a run without the host
keeps, where no fault stands at its end. -/
theorem runAs_keeps {P : State → Prop} {l : List Agent} {s t : State} (hl : .host ∉ l) (hC : Consistent s)
    (h : runAs l s = .next t) (hf : t.seq.fault = false)
    (hkeep : ∀ a u v, a ≠ .host → Consistent u → stepAs a u = .next v → v.seq.fault = false → P u → P v) (hs : P s) :
    P t := by
  induction l generalizing s with
  | nil => cases h; exact hs
  | cons a l ih =>
    rw [List.mem_cons, not_or] at hl
    have ha : a ≠ .host := Ne.symm hl.1
    simp only [runAs] at h
    split at h
    · next s' hs' =>
      have hf' : s'.seq.fault = false := by
        by_contra hno
        exact Bool.noConfusion (hf.symm.trans
          (runAs_fault_stands hl.2 (Proofs.basicKept a s s' hC.basic hs') h (Bool.eq_true_of_not_eq_false hno)))
      have hP := hkeep a s s' ha hC hs' hf' hs
      by_cases hr : s'.refused = none
      · exact ih hl.2 (stepAs_consistent ha hC hs' hr) h hP
      · rw [runAs_marked hl.2 hr h]
        exact hP
    · cases h
    · cases h

/-- The latches stand, and the four bytes of the latched word have the same bits under the latched data. -/
structure SameUnderData (s t : State) : Prop where
  x : t.seq.x = s.seq.x
  bytes : ∀ k, k < 4 → flashByte t (s.seq.x.a.toNat + k) &&& wordByte s.seq.x.b k =
    flashByte s (s.seq.x.a.toNat + k) &&& wordByte s.seq.x.b k

theorem SameUnderData.trans {s t u : State} (h : SameUnderData s t) (h' : SameUnderData t u) : SameUnderData s u where
  x := h'.x.trans h.x
  bytes k hk := by
    have hbyte := h'.bytes k hk
    rw [h.x] at hbyte
    exact hbyte.trans (h.bytes k hk)

/-- A step of WRITE_WORD that leaves no fault: Flash stays, or the chip completes the program of the word, which ANDs
with the data. -/
theorem stepAs_sameUnderData {a : Agent} {s t : State} (ha : a ≠ .host) (hC : Consistent s) (h4 : s.seq.x.op = 0x04)
    (h : stepAs a s = .next t) (hf : t.seq.fault = false) : SameUnderData s t := by
  have hparams : t.params = s.params := (Proofs.lastingFacts a s t h).1
  have hx : t.seq.x = s.seq.x := by
    obtain ⟨u, hu, hcount⟩ := stepAs_counted h
    rw [hcount.seq, agentStep_x hu ha]
  refine ⟨hx, fun k hk => ?_⟩
  rcases Proofs.flashChangesOnlyByCompletion a s t h with
    hsame | ⟨op, hc, hop, hw, _, ⟨_, hdone⟩ | hn⟩ | ⟨hc, _⟩ | ⟨_, hn, _⟩ | ⟨hn, _⟩
  · rw [flashByte, hparams, hsame, flashByte]
  · have hact : s.seq.active = true := by
      by_contra hno
      exact Bool.noConfusion (hw.symm.trans (hC.idle hc (Bool.eq_false_of_not_eq_true hno)).wip)
    cases (hC.active hact).pending_program h4 hw hop
    rw [flashByte, hparams, hdone, read_programmed _ _ _ _ hk, BitVec.and_assoc, BitVec.and_self, flashByte]
  · exact absurd hn.1 ha
  · have hc0 : t.seq.cause = 0 := (Proofs.basicKept a s t hC.basic h).fault_cause.mp hf
    rw [hc0] at hc
    cases hc
  · exact absurd hn.1 ha
  · exact absurd hn.1 ha

/-- A run of WRITE_WORD without the host that leaves no fault. -/
theorem runAs_sameUnderData {l : List Agent} {s t : State} (hl : .host ∉ l) (hC : Consistent s)
    (h4 : s.seq.x.op = 0x04) (h : runAs l s = .next t) (hf : t.seq.fault = false) : SameUnderData s t :=
  runAs_keeps hl hC h hf
    (fun _ _ _ ha hCu hstep hfv hs => hs.trans (stepAs_sameUnderData ha hCu (by rw [hs.x, h4]) hstep hfv))
    ⟨rfl, fun _ _ => rfl⟩

/-- A byte without a bit its data lacks is its own AND with the data. -/
theorem and_eq_self_of_and_not {b d : Byte} (h : b &&& ~~~ d = 0) : b &&& d = b := by
  ext i hi
  have hbit : (b &&& ~~~ d)[i] = (0 : Byte)[i] := by rw [h]
  simpa using hbit

end Sys2Proof.Machine

namespace Sys2Proof.Proofs

open Sys2Proof.Machine

/-- Settles O23: at `done` no byte holds a bit its data lacks (`doneGuarantees`), and under its data each is what it was at
acceptance (`runAs_sameUnderData`). -/
theorem programAndsOnEverySchedule : Obligations.ProgramAndsOnEverySchedule := by
  intro l s t hl hC hact h4 _ h hr hidle hf k hk
  obtain ⟨_, _, _, _, _, _, _, _, _, _, _, programmed, _⟩ := doneGuarantees l s t hl hC hact h hr hidle hf
  have hlacks := (programmed h4).2 k hk
  calc flashByte t (s.seq.x.a.toNat + k)
      = flashByte t (s.seq.x.a.toNat + k) &&& wordByte s.seq.x.b k := (and_eq_self_of_and_not hlacks).symm
    _ = flashByte s (s.seq.x.a.toNat + k) &&& wordByte s.seq.x.b k :=
      (runAs_sameUnderData hl hC h4 h hf).bytes k hk

end Sys2Proof.Proofs

/-! SUPPORT. Routine PW over an idle peripheral and an idle chip, on the prompt schedule (spec/43 R166, R167): the program
transaction, armed by the data write, and the word it ANDs with its data. -/

namespace Sys2Proof.Machine

/-! ## The program transaction (R166, R218) -/

/-- The opcode and address writes of PW complete no descriptor, which waits for the data (spec/46 R207). -/
theorem armed_program {r : Reg} {p : Periph} (hr : r ≠ .data) (hp : p.pcfg = kProgram ||| opcPp4b.setWidth 32) :
    armed r p = p := by
  have hwaits : armTrigger r p.pcfg = false := by rw [hp]; revert hr; cases r <;> decide
  simp [armed, arms, hwaits]

/-- The data write of PW arms (spec/46 R207). -/
theorem arms_data_program {p : Periph} (hen : p.en = true) (hb : p.busy = false)
    (hp : p.pcfg = kProgram ||| opcPp4b.setWidth 32) : arms .data p = true := by
  simp only [arms, hen, hb, hp]
  decide

/-- Steps 1 to 7 of PW arm the program of `d` at `a`. -/
theorem afterAccesses_programming (a d : Word) {p : Periph} (hen : p.en = false) (hb : p.busy = false) :
    p.afterAccesses [.clearPcfg, .orPcfg kProgram, .dlen 3, .en true, .orPcfg (opcPp4b.setWidth 32), .addr a, .data d] =
      some ({ p with dlen := 3, addr := a, data := d }.sending (kProgram ||| opcPp4b.setWidth 32)) := by
  simp only [Periph.afterAccesses, Micro.isAccess, Micro.onIdle, hen, hb, armed_disabled, armed_program, ne_eq,
    reduceCtorEq, not_false_eq_true, Bool.not_false, Bool.and_self, if_true, BitVec.ofNat_eq_ofNat, BitVec.zero_or]
  exact congrArg some (armed_of_arms (arms_data_program rfl rfl rfl))

/-- An enabled program inside the chip and inside a page is recorded and in progress (R208, R218). -/
theorem execChipPp4b_accepted {a : Word} (d0 d1 d2 d3 : Byte) {s : State} (hq : s.c.quad = true) (hw : s.c.wip = false)
    (hwel : s.c.wel = true) (ha : a.toNat + 3 < s.params.flashSize)
    (hpage : a.toNat % s.params.pageSize + 4 ≤ s.params.pageSize) :
    exec (.chipPp4b a d0 d1 d2 d3) s = .next
      { s with
        c := { s.c with pending := some (.program a d0 d1 d2 d3), wip := true }
        bus := s.bus ++ [⟨.four, opcPp4b, some a, 0, some (.toChip, [d0, d1, d2, d3])⟩]
        p := { s.p with live := none, busy := false } } := by
  rw [exec, execChipPp4b, performTxn, chipReact_ok .four _ s hq hw, acceptProgram, if_neg (by simp [hwel]),
    if_neg (Nat.not_le.mpr ha), if_neg (Nat.not_lt.mpr hpage)]
  rfl

/-- The record of the transaction that programs the word `d` at `a` (R103, R166). -/
def programRecord (a d : Word) : BusTxn := ⟨.four, opcPp4b, some a, 0, some (.toChip, dataBytes d)⟩

/-- The program of a word reaches a chip in quad mode with the latch set and nothing in progress: it is recorded and in
progress (R218). -/
theorem reaches_programming {a d : Word} {q : Periph} {s : State} (hr : s.refused = none)
    (hc : s.seq.cause ≠ causeTimeout)
    (hp : s.p = { q with dlen := 3, addr := a, data := d }.sending (kProgram ||| opcPp4b.setWidth 32))
    (hq : s.c.quad = true) (hw : s.c.wip = false) (hwel : s.c.wel = true) (ha : a.toNat + 3 < s.params.flashSize)
    (hpage : a.toNat % s.params.pageSize + 4 ≤ s.params.pageSize) :
    Reaches [.peripheral] s
      { s with
        c := { s.c with pending := some (wordProgram a d), wip := true }
        bus := s.bus ++ [programRecord a d]
        p := { s.p with live := none, busy := false } } := by
  have hpcfg : s.p.pcfg = kProgram ||| opcPp4b.setWidth 32 := by rw [hp]; rfl
  have haddr : s.p.addr = a := by rw [hp]; rfl
  have hdata : s.p.data = d := by rw [hp]; rfl
  refine reaches_performed hr (d := snapshot s.p) (by rw [hp]; rfl) ?_ (request_pw s.p hpcfg (by rw [hp]; rfl)) ?_
    (execChipPp4b_accepted _ _ _ _ hq hw hwel ha hpage) hc
  · rw [snapshot, hpcfg, fmode_pw]; rfl
  · rw [haddr, hdata]; rfl

/-! ## Routine PW (R166, R167) -/

/-- The chip after the program of `d` at `a`: the word ANDed with its data, the latch consumed, nothing in progress. -/
def Chip.programmed (params : Params) (a d : Word) (c : Chip) : Chip :=
  { c with flash := (wordProgram a d).apply params c.flash, pending := none, wip := false, wel := false }

/-- The program changes no flag of an idle chip but the latch. -/
theorem Chip.programmed_of_idle (params : Params) (a d : Word) {c : Chip} (hw : c.wip = false) (hp : c.pending = none) :
    c.programmed params a d = { c with flash := (c.programmed params a d).flash, wel := false } := by
  simp only [Chip.programmed, hw, hp]

/-- Routine PW after its call of WE: steps 1 to 7, the transaction, steps 8 to 11, the program, the status-wait, step
12. -/
def promptProgram : List Agent :=
  List.replicate 7 Agent.sequencer ++ ([Agent.peripheral] ++ ([Agent.sequencer] ++ (List.replicate 2 Agent.sequencer ++
    ([Agent.sequencer, Agent.chip] ++ promptWs ++ [Agent.sequencer]))))

theorem promptSchedule_writeWord (a d : Word) :
    promptSchedule (.writeWord a d) = [Agent.sequencer] ++ promptShort ++ promptProgram ++ [Agent.sequencer] := rfl

/-- Routine PW over an idle peripheral and an idle chip in quad mode: routine WE, then the program. -/
theorem Executing.pw_prompt {s : State} (h : Executing ⟨.pw, 0⟩ [] s) (hwf : s.params.wf = true)
    (hph : s.seq.phase ≠ .p3Mmap) (hb : s.p.busy = false) (hd : s.p.dlen = 0) (hq : s.c.quad = true)
    (hw : s.c.wip = false) (ha : s.seq.x.a.toNat + 3 < s.params.flashSize)
    (hpage : s.seq.x.a.toNat % s.params.pageSize + 4 ≤ s.params.pageSize) :
    ∃ b, b &&& (s.params.welMask ||| s.params.wipMask) = s.params.welMask ∧ ∃ b', b' &&& s.params.wipMask = 0 ∧
      Reaches ([Agent.sequencer] ++ promptShort ++ promptProgram) s
        { s with
          c := s.c.programmed s.params s.seq.x.a s.seq.x.b
          bus := s.bus ++ [⟨.four, opcWren, none, 0, none⟩] ++ [pollRecord s.params.opcRdsrA b] ++
            [programRecord s.seq.x.a s.seq.x.b] ++ [pollRecord s.params.opcRdsrA b']
          p := { s.p with dlen := 0, addr := s.seq.x.a, data := s.seq.x.b }.leftByPoll s.params s.params.opcRdsrA
            s.params.wipMask 0
          seq := { s.seq with stack := [], spincnt := 0 } } := by
  obtain ⟨b, hbm, hlatched⟩ := h.latch rfl hwf hph hb hd hq hw
  refine ⟨b, hbm, hlatched.polled fun turn draws => ?_⟩
  refine Reaches.polled (Executing.accesses (r := .pw) (k := 1) (ms := ((pwSteps s.params s.seq.x).drop 1).take 7)
    ⟨h.refused, h.active, h.cause, rfl⟩ (List.take_prefix _ _)
    (afterAccesses_programming s.seq.x.a s.seq.x.b rfl rfl)) fun turn draws => ?_
  refine Reaches.polled (reaches_programming h.refused h.cause rfl hq hw rfl ha hpage) fun turn draws => ?_
  refine Reaches.polled (Executing.wait (f := ⟨.pw, 8⟩) ⟨h.refused, h.active, h.cause, rfl⟩ rfl hph rfl)
    fun turn draws => ?_
  refine Reaches.polled (Executing.accesses (r := .pw) (k := 9) (ms := [.en false, .dlen 0])
    ⟨h.refused, h.active, h.cause, rfl⟩ ⟨_, rfl⟩ rfl) fun turn draws => ?_
  exact Executing.await_completion (r := .pw) (k := 11) (op := wordProgram s.seq.x.a s.seq.x.b) (reg := .a)
    ⟨h.refused, h.active, h.cause, rfl⟩ rfl Nat.two_pos hph rfl rfl hq rfl rfl (decide_eq_true ha)
    (statusByte_idle hwf rfl)

end Sys2Proof.Machine

namespace Sys2Proof.Proofs

open Sys2Proof.Machine

/-- Settles O17: acceptance, the prompt run of PW (`Executing.pw_prompt`), and `done`; the bytes of Flash by
`read_programmed` and `apply_read_outside`. -/
theorem writeWordRunsToDone : Obligations.WriteWordRunsToDone := by
  intro s a d hC hr hact hf hph ha hpage
  have hc : s.seq.cause ≠ 3 := by rw [hC.basic.fault_cause.mp hf]; decide
  have hph3 : s.seq.phase ≠ .p3Mmap := by rw [hph]; decide
  obtain ⟨⟨hlive, _, hdlen⟩, hwip, _, _, _⟩ := hC.idle hc hact
  have hbusy : s.p.busy = false := by rw [hC.basic.busy_live, hlive]; rfl
  have hpend : s.c.pending = none := by simpa [hwip] using hC.basic.wip_pending
  let u := started ⟨0x04, a, d, 0⟩ .pw s
  obtain ⟨b, hbm, b', hbm', turn, draws, hpw⟩ := Executing.pw_prompt (s := u) ⟨hr, rfl, hc, rfl⟩ hC.basic.params hph3
    hbusy hdlen ((hC.phase hc).quad (by rw [hph]; decide)).1 hwip ha hpage
  obtain ⟨turn', draws', hdone⟩ := Reaches.after hpw (reaches_done hr rfl rfl hc)
  exact ⟨u, _, b, b', ((commandsStartTheirRoutines s hact hf).2.1 hph).2.1 a d,
    (congrArg (runAs · u) (promptSchedule_writeWord a d)).trans hdone, ⟨hr, rfl, hf, hph, rfl⟩,
    Chip.programmed_of_idle s.params a d hwip hpend, fun _ hk => read_programmed s.params a d s.c.flash hk,
    apply_read_outside s.params (wordProgram a d) s.c.flash,
    ⟨rfl, rfl, rfl, rfl, rfl, rfl, rfl, rfl, rfl, rfl⟩, rfl, rfl,
    by simp only [commandDone_bus, List.append_assoc]; rfl, hbm, hbm'⟩

end Sys2Proof.Proofs

/-! SUPPORT. Routines EQ and E4 over an idle peripheral and an idle chip, on the prompt schedule (spec/44 R176, R178, R180,
R181): an instruction that sets a flag of the chip, and the status-wait that reads the flag back. -/

namespace Sys2Proof.Machine

/-! ## An instruction alone, sent to the chip -/

/-- An armed transaction of configuration `cfg` is performed by the peripheral: the chip goes from `c` to `c'`, and `tx`
joins the history (R208). -/
def Sends (cfg : Word) (tx : BusTxn) (c c' : Chip) : Prop :=
  ∀ (q : Periph) (s : State), s.refused = none → s.seq.cause ≠ causeTimeout → s.p = q.sending cfg → s.c = c →
    Reaches [.peripheral] s
      { s with c := c', bus := s.bus ++ [tx], p := { s.p with live := none, busy := false } }

/-- An indirect-read configuration sends the instruction its request decodes to, with that instruction's effect. -/
theorem sends_of_exec {cfg : Word} {tx : BusTxn} {c c' : Chip} {req : BusReq} {i : Instr}
    (hmode : pcfgFmode cfg = fmodeRead) (hreq : ∀ p : Periph, p.pcfg = cfg → requestOf (snapshot p) = .ok req)
    (hdec : decodeBus req = .ok i)
    (hexec : ∀ s : State, s.c = c →
      exec i s = .next { s with c := c', bus := s.bus ++ [tx], p := { s.p with live := none, busy := false } }) :
    Sends cfg tx c c' := by
  intro q s hr hc hp hchip
  have hlive : s.p.live = some (snapshot s.p) := by rw [hp]; rfl
  have hpcfg : s.p.pcfg = cfg := by rw [hp]; rfl
  have hread : pcfgFmode (snapshot s.p).pcfg = fmodeRead := by rw [snapshot, hpcfg, hmode]
  refine reaches_step hr ?_ hc
  rw [agentStep, peripheralStep, hlive]
  simp only
  rw [if_neg (by rw [hread]; decide), performLive_ok (hreq s.p hpcfg) (by rw [hread]; simp [fmodeRead, fmodePoll]) hdec,
    hexec s hchip]

/-- 0x35 on one line reaches a chip outside quad mode with nothing in progress: quad mode is set (R219). -/
theorem sends_eqio {c : Chip} (hq : c.quad = false) (hw : c.wip = false) :
    Sends (kQuad ||| opcEqio.setWidth 32) ⟨.one, opcEqio, none, 0, none⟩ c { c with quad := true } := by
  refine sends_of_exec fmode_eq request_eq rfl fun s hchip => ?_
  subst hchip
  rw [exec, execChipEqio, performTxn, chipReact_ok .one _ s (by rw [lineOk, hq]; rfl) hw]
  rfl

/-- 0xB7 on four lines reaches a chip in quad mode with nothing in progress: 4-byte addressing is set (R220). -/
theorem sends_en4b {c : Chip} (hq : c.quad = true) (hw : c.wip = false) :
    Sends (kAddr4 ||| opcEn4b.setWidth 32) ⟨.four, opcEn4b, none, 0, none⟩ c { c with addr4 := true } := by
  refine sends_of_exec fmode_e4 request_e4 rfl fun s hchip => ?_
  subst hchip
  rw [exec, execChipEn4b, performTxn, chipReact_ok .four _ s hq hw]
  rfl

/-! ## The shape of EQ and E4 (R176, R180) -/

/-- The steps of a mode-entry routine: send the instruction configured by `k` and `op`, then the status-wait `wait`. -/
def modeEntrySteps (k op : Word) (wait : Routine) : List Micro :=
  [.disableIfActive, .clearPcfg, .orPcfg k, .en true, .orPcfg op, .spin, .en false, .call wait, .ret]

/-- A routine of that shape over an idle peripheral: its transaction, one poll of the chip as the transaction leaves it,
and the registers of R134's table. -/
theorem Executing.mode_entry_prompt {r : Routine} {reg : StatusReg} {k op : Word} {mask pattern : Byte} {tx : BusTxn}
    {c' : Chip} {s : State} (h : Executing ⟨r, 0⟩ [] s)
    (hsteps : routineSteps r s.params s.seq.x = modeEntrySteps k op (.ws (s.params.statusOpcode reg) mask pattern))
    (harms : ∀ q : Periph, q.en = true → q.busy = false → q.pcfg = k ||| op → arms .pcfg q = true)
    (hsends : Sends (k ||| op) tx s.c c') (hph : s.seq.phase ≠ .p3Mmap) (hb : s.p.busy = false) (hd : s.p.dlen = 0)
    (hq : c'.quad = true) (hmatch : ∀ free : Byte, statusByte s.params reg c' free &&& mask = pattern) :
    ∃ b, b &&& mask = pattern ∧ Reaches promptShort s
      { s with
        c := c'
        bus := s.bus ++ [tx] ++ [pollRecord (s.params.statusOpcode reg) b]
        p := s.p.leftByPoll s.params (s.params.statusOpcode reg) mask pattern
        seq := { s.seq with stack := [], spincnt := 0 } } := by
  refine Reaches.polled (l' := [.peripheral] ++ (List.replicate 3 .sequencer ++ promptWs ++ [.sequencer]))
    (h.accesses (ms := [.disableIfActive, .clearPcfg, .orPcfg k, .en true, .orPcfg op])
      (by rw [hsteps]; exact ⟨_, rfl⟩) (afterAccesses_sending (.inr rfl) hb harms)) fun turn draws => ?_
  refine Reaches.polled (hsends s.p _ h.refused h.cause rfl rfl) fun turn draws => ?_
  exact Executing.confirm (r := r) (k := 5) ⟨h.refused, h.active, h.cause, rfl⟩
    (congrArg (List.drop 5) hsteps) Nat.two_pos hph rfl hd hq hmatch

/-- The opcode write of EQ arms (spec/46 R207). -/
theorem arms_eqio (p : Periph) (hen : p.en = true) (hb : p.busy = false) (hp : p.pcfg = kQuad ||| opcEqio.setWidth 32) :
    arms .pcfg p = true := by
  simp only [arms, hen, hb, hp]
  decide

/-- The opcode write of E4 arms (spec/46 R207). -/
theorem arms_en4b (p : Periph) (hen : p.en = true) (hb : p.busy = false)
    (hp : p.pcfg = kAddr4 ||| opcEn4b.setWidth 32) : arms .pcfg p = true := by
  simp only [arms, hen, hb, hp]
  decide

/-- Every status byte of a chip in quad mode meets the condition of EQ's status-wait (R29, R176). -/
theorem statusByte_quad {p : Params} {c : Chip} (hwf : p.wf = true) (hq : c.quad = true) (free : Byte) :
    statusByte p p.quadReg c free &&& p.quadMask = p.quadMask := by
  obtain ⟨_, _, hshows, _⟩ := Proofs.statusRegisterBits.2 p c free hwf
  rw [hshows, if_pos hq]

/-- Every status byte of a chip in 4-byte addressing meets the condition of E4's status-wait (R29, R180). -/
theorem statusByte_addr4 {p : Params} {c : Chip} (hwf : p.wf = true) (ha : c.addr4 = true) (free : Byte) :
    statusByte p p.addr4Reg c free &&& p.addr4Mask = p.addr4Mask := by
  obtain ⟨_, _, _, hshows⟩ := Proofs.statusRegisterBits.2 p c free hwf
  rw [hshows, if_pos ha]

end Sys2Proof.Machine

namespace Sys2Proof.Proofs

open Sys2Proof.Machine

/-- Settles O18: acceptance, the prompt run of EQ (`Executing.mode_entry_prompt` with `sends_eqio`), and `done`. -/
theorem enterQuadRunsToDone : Obligations.EnterQuadRunsToDone := by
  intro s hC hr hact hf hph
  have hc : s.seq.cause ≠ 3 := by rw [hC.basic.fault_cause.mp hf]; decide
  have hph3 : s.seq.phase ≠ .p3Mmap := by rw [hph]; decide
  obtain ⟨⟨hlive, _, hdlen⟩, hwip, hp0, _, _⟩ := hC.idle hc hact
  have hbusy : s.p.busy = false := by rw [hC.basic.busy_live, hlive]; rfl
  obtain ⟨_, _, _, _, _, _, _, _, _, hquad, _⟩ := hp0 hph
  let u := started ⟨0x05, 0, 0, 0⟩ .eq s
  obtain ⟨b, hbm, turn, draws, heq⟩ := Executing.mode_entry_prompt (s := u) (r := .eq) ⟨hr, rfl, hc, rfl⟩ rfl arms_eqio
    (sends_eqio hquad hwip) hph3 hbusy hdlen rfl
    (statusByte_quad hC.basic.params rfl)
  obtain ⟨turn', draws', hdone⟩ := Reaches.after heq (reaches_done hr rfl rfl hc)
  exact ⟨u, _, b, (commandsStartTheirRoutines s hact hf).2.2.1 hph, hdone, ⟨hr, rfl, hf, rfl, rfl⟩, rfl,
    ⟨rfl, rfl, rfl, rfl, rfl, rfl, rfl, rfl, rfl, hdlen⟩, List.append_assoc .., hbm, rfl, rfl⟩

/-- Settles O19: acceptance, the prompt run of E4 (`Executing.mode_entry_prompt` with `sends_en4b`), and `done`. -/
theorem enterAddr4RunsToDone : Obligations.EnterAddr4RunsToDone := by
  intro s hC hr hact hf hph
  have hc : s.seq.cause ≠ 3 := by rw [hC.basic.fault_cause.mp hf]; decide
  have hph3 : s.seq.phase ≠ .p3Mmap := by rw [hph]; decide
  obtain ⟨⟨hlive, _, hdlen⟩, hwip, _, _, _⟩ := hC.idle hc hact
  have hbusy : s.p.busy = false := by rw [hC.basic.busy_live, hlive]; rfl
  have hquad : s.c.quad = true := ((hC.phase hc).quad (by rw [hph]; decide)).1
  let u := started ⟨0x06, 0, 0, 0⟩ .e4 s
  obtain ⟨b, hbm, turn, draws, he4⟩ := Executing.mode_entry_prompt (s := u) (r := .e4) ⟨hr, rfl, hc, rfl⟩ rfl arms_en4b
    (sends_en4b hquad hwip) hph3 hbusy hdlen hquad
    (statusByte_addr4 hC.basic.params rfl)
  obtain ⟨turn', draws', hdone⟩ := Reaches.after he4 (reaches_done hr rfl rfl hc)
  exact ⟨u, _, b, (commandsStartTheirRoutines s hact hf).2.2.2 hph, hdone, ⟨hr, rfl, hf, rfl, rfl⟩, rfl,
    ⟨rfl, rfl, rfl, rfl, rfl, rfl, rfl, rfl, rfl, hdlen⟩, List.append_assoc .., hbm, rfl, rfl⟩

end Sys2Proof.Proofs

/-! SUPPORT. Routine MM over an idle peripheral on the prompt schedule (spec/45 R191, R192), and the phase while no command
executes (R193). -/

namespace Sys2Proof.Machine

/-! ## Activation (R191) -/

/-- The configuration MM composes, in the form of R192. -/
theorem mapped_configuration (p : Params) :
    kMapped p ||| kMappedMode = 0x0F003FEC ||| (p.dummyCycles.setWidth 32 <<< 18) := by
  obtain ⟨_, _, _, _, _, _, _, _, _, _, hmapped, _⟩ := Proofs.sampleWordsDecode
  obtain ⟨_, _, _, _, _, _, _, hword⟩ := hmapped p
  exact hword

/-- The register accesses of MM: the configuration is written while the peripheral is disabled, so nothing is armed. -/
theorem afterAccesses_mapping (params : Params) {p : Periph} (hb : p.busy = false) :
    p.afterAccesses [.en false, .clearPcfg, .orPcfg (kMapped params), .orPcfg kMappedMode, .en true, .settle] =
      some { p with en := true, pcfg := kMapped params ||| kMappedMode } := by
  simp only [Periph.afterAccesses, Micro.isAccess, Micro.onIdle, hb, armed_disabled, Bool.not_false, Bool.and_self,
    if_true, BitVec.ofNat_eq_ofNat, BitVec.zero_or]

/-- Routine MM over an idle peripheral: no transaction, the peripheral enabled and configured for mapped reads. -/
theorem Executing.mm_prompt {rest : List Frame} {s : State} (h : Executing ⟨.mm, 0⟩ rest s) (hb : s.p.busy = false) :
    Reaches (List.replicate 7 .sequencer) s
      { s with
        p := { s.p with en := true, pcfg := kMapped s.params ||| kMappedMode }
        seq := { s.seq with stack := rest } } :=
  (h.accesses ⟨[.ret], rfl⟩ (afterAccesses_mapping s.params hb)).trans fun _ _ =>
    Executing.ret (f := ⟨.mm, 6⟩) ⟨h.refused, h.active, h.cause, rfl⟩ rfl

/-! ## The phase (R25) -/

/-- While no command executes only power-on reset moves the phase. -/
theorem agentStep_phase_of_idle {a : Agent} {s t : State} (h : agentStep a s = .next t)
    (hidle : s.seq.active = false) (hn : ¬ resetsNext a s) : t.seq.phase = s.seq.phase := by
  cases agentStep_stepOf h with
  | transacted ht => exact congrArg Seq.phase ht.seq
  | accepted w rest _ _ _ hacc => cases hacc <;> rfl
  | finished _ hact => exact Bool.noConfusion (hidle.symm.trans hact)
  | micro _ _ _ _ hact => exact Bool.noConfusion (hidle.symm.trans hact)
  | completed => rfl
  | reset hreset => exact absurd hreset hn

end Sys2Proof.Machine

namespace Sys2Proof.Proofs

open Sys2Proof.Machine

/-- Settles O20: acceptance, the prompt run of MM (`Executing.mm_prompt`), and `done`. -/
theorem enterMmapRunsToDone : Obligations.EnterMmapRunsToDone := by
  intro s hC hr hact hf hph
  have hc : s.seq.cause ≠ 3 := by rw [hC.basic.fault_cause.mp hf]; decide
  have hbusy : s.p.busy = false := by rw [hC.basic.busy_live, (hC.idle hc hact).quiet.live]; rfl
  obtain ⟨_, _, haccept⟩ := (commandsStartTheirRoutines s hact hf).2.1 hph
  let u := started ⟨0x07, 0, 0, 0⟩ .mm s
  obtain ⟨turn, draws, hmm⟩ := Executing.mm_prompt (s := u) (rest := []) ⟨hr, rfl, hc, rfl⟩ hbusy
  obtain ⟨turn', draws', hdone⟩ := Reaches.after hmm (reaches_done hr rfl rfl hc)
  exact ⟨u, _, haccept, hdone, ⟨hr, rfl, hf, rfl, rfl⟩, rfl, rfl,
    congrArg (fun w => { s.p with en := true, pcfg := w }) (mapped_configuration s.params)⟩

/-- Settles O54: no command executes in `P3_MMAP`, so no agent moves the phase (`agentStep_phase_of_idle`), and none is
legal there, so the port refuses every legal word (O9). -/
theorem activationIsOneWay : Obligations.ActivationIsOneWay := by
  intro s hC hph
  have hidle := hC.idle_of_mapped hph
  refine ⟨fun a t h hn => ?_, fun w rest hr hm hf hlegal => ?_⟩
  · obtain ⟨u, hu, hcount⟩ := stepAs_counted h
    rw [hcount.seq, agentStep_phase_of_idle hu hidle hn, hph]
  · obtain ⟨_, hviolation, _⟩ := (commandPortRules.1 s w rest hr hm).2 hidle hf
    rw [hviolation hlegal (hph ▸ p3_illegal _)]
    exact ⟨_, rfl, by simp, by simp⟩

end Sys2Proof.Proofs

/-! SUPPORT. What each chip opcode can do, said once (spec/46 R208 to R223): its record, the end of its transaction, and
the flags it may change; which writes arm, and which uses set the mark. -/

namespace Sys2Proof.Machine

/-! ## The register interface -/

/-- A register write arms exactly when the peripheral is enabled and idle, the configuration is one the peripheral
performs, and the write completes the descriptor (R207). -/
theorem arms_iff (r : Reg) (p : Periph) :
    arms r p = true ↔ p.en = true ∧ p.busy = false ∧ pcfgFmode p.pcfg ≠ fmodeMapped ∧ pcfgImode p.pcfg ≠ modeNone ∧
      armTrigger r p.pcfg = true := by
  simp [arms, and_assoc]

/-- Setting a register neither starts nor ends a transaction. -/
theorem setReg_transaction (r : Reg) (v : Word) (p : Periph) :
    (setReg r v p).live = p.live ∧ (setReg r v p).busy = p.busy := by
  cases r with
  | fclr => simp only [setReg]; split <;> exact ⟨rfl, rfl⟩
  | _ => exact ⟨rfl, rfl⟩

/-- A write to a disabled peripheral arms nothing: `P.CTRL`, which may enable it, is no trigger (R206). -/
theorem arms_setReg_disabled (r : Reg) (v : Word) {p : Periph} (h : p.en = false) :
    arms r (setReg r v p) = false := by
  rw [← Bool.not_eq_true, arms_iff]
  cases r <;> simp [setReg, h, armTrigger]

/-- The trigger of R207: the write that supplies the last phase the configuration asks for. -/
theorem armTrigger_iff {r : Reg} (hr : r = .pcfg ∨ r = .addr ∨ r = .data) (w : Word) :
    armTrigger r w = true ↔
      let needsAddr := pcfgAdmode w ≠ 0
      let needsData := pcfgDmode w ≠ 0 ∧ pcfgFmode w = 0
      (r = .pcfg ∧ ¬ needsAddr ∧ ¬ needsData) ∨ (r = .addr ∧ needsAddr ∧ ¬ needsData) ∨ (r = .data ∧ needsData) := by
  rcases hr with rfl | rfl | rfl <;> simp [armTrigger, modeNone, fmodeWrite, imp_iff_not_or]

/-! ## Transactions that bring nothing back (R208) -/

/-- What an opcode may change of the chip (R216 to R220): its own flag, or what is pending. -/
structure ChipFrame (i : Instr) (c d : Chip) : Prop where
  flash : d.flash = c.flash
  wel : i ≠ .chipWren → d.wel = c.wel
  quad : (∀ l, i ≠ .chipEqio l) → d.quad = c.quad
  addr4 : i ≠ .chipEn4b → d.addr4 = c.addr4
  pending : (∀ a, i ≠ .chipSe4k a) → (∀ a d0 d1 d2 d3, i ≠ .chipPp4b a d0 d1 d2 d3) →
    d.wip = c.wip ∧ d.pending = c.pending

theorem ChipFrame.refl (i : Instr) (c : Chip) : ChipFrame i c c :=
  ⟨rfl, fun _ => rfl, fun _ => rfl, fun _ => rfl, fun _ _ => ⟨rfl, rfl⟩⟩

/-- `t` is `s` but for the mark and what `i` may change of the chip. -/
def Reacted (i : Instr) (s t : State) : Prop := ∃ c m, t = { s with c := c, refused := m } ∧ ChipFrame i s.c c

theorem Reacted.refuse (i : Instr) (r : Refusal) (s : State) : Reacted i s (refuse r s) := ⟨_, _, rfl, .refl i s.c⟩

theorem Reacted.ofChip {i : Instr} {s : State} {c : Chip} (h : ChipFrame i s.c c) : Reacted i s { s with c := c } :=
  ⟨c, _, rfl, h⟩

theorem acceptErase_reacted (a : Word) (s : State) : Reacted (.chipSe4k a) s (acceptErase a s) := by
  unfold acceptErase
  split
  · exact .refuse ..
  split
  · exact .refuse ..
  · exact .ofChip ⟨rfl, fun _ => rfl, fun _ => rfl, fun _ => rfl, fun h => absurd rfl (h a)⟩

theorem acceptProgram_reacted (a : Word) (d0 d1 d2 d3 : Byte) (s : State) :
    Reacted (.chipPp4b a d0 d1 d2 d3) s (acceptProgram a d0 d1 d2 d3 s) := by
  unfold acceptProgram
  split
  · exact .refuse ..
  split
  · exact .refuse ..
  split
  · exact .refuse ..
  · exact .ofChip ⟨rfl, fun _ => rfl, fun _ => rfl, fun _ => rfl, fun _ h => absurd rfl (h a d0 d1 d2 d3)⟩

/-- A transaction that brings nothing back: it is recorded and ended, whatever the chip's reaction. -/
theorem performTxn_reacted {i : Instr} (tx : BusTxn) {effect : State → State} {s : State}
    (h : Reacted i s (effect s)) :
    ∃ c m, performTxn tx effect s =
      { s with c := c, refused := m, bus := s.bus ++ [tx], p := { s.p with live := none, busy := false } } ∧
      ChipFrame i s.c c := by
  have hreact : Reacted i s (chipReact tx.ilines effect s) := by
    rcases chipReact_cases tx.ilines effect s with ⟨r, hr⟩ | ⟨_, _, he⟩
    · exact hr ▸ .refuse i r s
    · exact he ▸ h
  obtain ⟨c, m, he, hc⟩ := hreact
  exact ⟨c, m, by rw [performTxn, he]; rfl, hc⟩

/-- An opcode whose request brings nothing back. -/
theorem exec_indirect {i : Instr} {r : BusReq} (s : State) (henc : encode i = .bus r) (hr : wantsData r = false) :
    ∃ c m, exec i s = .next
      { s with c := c, refused := m, bus := s.bus ++ [requestRecord r], p := { s.p with live := none, busy := false } } ∧
      ChipFrame i s.c c := by
  have recorded {i : Instr} {tx : BusTxn} {effect : State → State} (h : Reacted i s (effect s)) :
      ∃ c m, Host.Outcome.next (performTxn tx effect s) = (.next
        { s with c := c, refused := m, bus := s.bus ++ [tx], p := { s.p with live := none, busy := false } } :
          Host.Outcome State Fault Refusal) ∧ ChipFrame i s.c c := by
    obtain ⟨c, m, he, hc⟩ := performTxn_reacted tx h
    exact ⟨c, m, congrArg _ he, hc⟩
  cases i with
  | chipWren =>
    cases henc
    exact recorded (.ofChip ⟨rfl, fun h => absurd rfl h, fun _ => rfl, fun _ => rfl, fun _ _ => ⟨rfl, rfl⟩⟩)
  | chipSe4k a => cases henc; exact recorded (acceptErase_reacted a s)
  | chipPp4b a d0 d1 d2 d3 => cases henc; exact recorded (acceptProgram_reacted a d0 d1 d2 d3 s)
  | chipEqio l =>
    cases henc
    exact recorded (.ofChip ⟨rfl, fun _ => rfl, fun h => absurd rfl (h l), fun _ => rfl, fun _ _ => ⟨rfl, rfl⟩⟩)
  | chipEn4b =>
    cases henc
    exact recorded (.ofChip ⟨rfl, fun _ => rfl, fun _ => rfl, fun h => absurd rfl h, fun _ _ => ⟨rfl, rfl⟩⟩)
  | chipRdsrA | chipRdsrB | chipQiofr => cases henc; cases hr
  | _ => cases henc

/-! ## What sets the mark -/

/-- An instruction on the wrong lines, or to a chip with an operation in progress, is refused (R214, R215). -/
theorem chipReact_refused {l : Lines} {s : State} (effect : State → State)
    (h : lineOk l s.c = false ∨ s.c.wip = true) : ∃ r, chipReact l effect s = refuse r s := by
  rcases chipReact_cases l effect s with hr | ⟨hl, hw, _⟩
  · exact hr
  · simp [hl, hw] at h

/-- A transaction so refused is recorded and ended over an unchanged chip. -/
theorem performTxn_refused {tx : BusTxn} {s : State} (effect : State → State)
    (h : lineOk tx.ilines s.c = false ∨ s.c.wip = true) :
    ∃ r, performTxn tx effect s = finishTxn tx (refuse r s) := by
  obtain ⟨r, hr⟩ := chipReact_refused effect h
  exact ⟨r, by rw [performTxn, hr]⟩

/-- The peripheral's step over a descriptor it performs. -/
theorem peripheralStep_perform {s : State} {d : Descriptor} (hd : s.p.live = some d)
    (hmode : pcfgFmode d.pcfg ≠ fmodeMapped) : peripheralStep s = performLive d s := by
  rw [peripheralStep, hd]
  exact if_neg hmode

/-- A descriptor that stands for no request sets the mark alone. -/
theorem performLive_error {s : State} {d : Descriptor} {r : Refusal} (h : requestOf d = .error r) :
    performLive d s = .next (refuse r s) := by
  rw [performLive, h]

/-- A polling descriptor of another shape than R209's sets the mark alone. -/
theorem performLive_misshapen {s : State} {d : Descriptor} {req : BusReq} (h : requestOf d = .ok req)
    (hpoll : pcfgFmode d.pcfg = fmodePoll ∧ pollShape req = false) :
    performLive d s = .next (refuse .undefinedTransaction s) := by
  rw [performLive, h]
  exact if_pos hpoll

/-- The phases of a descriptor's request (R103). -/
theorem requestOf_ok {d : Descriptor} {req : BusReq} (h : requestOf d = .ok req) :
    requestLines d.pcfg = .ok req.ilines ∧ requestAddress d.pcfg d.addr = .ok req.addr ∧
      requestData d = .ok req.data := by
  unfold requestOf at h
  repeat' split at h
  all_goals cases h
  exact ⟨‹_›, ‹_›, ‹_›⟩

/-- A mode code the block never writes stands for no request (R211(c)). -/
theorem requestOf_unusedCode {d : Descriptor} {req : BusReq} (h : requestOf d = .ok req) :
    (pcfgImode d.pcfg = 1 ∨ pcfgImode d.pcfg = 3) ∧
    (pcfgAdmode d.pcfg = 0 ∨ pcfgAdmode d.pcfg = 3 ∧ pcfgAdsize d.pcfg = 3) ∧
    (pcfgDmode d.pcfg = 0 ∨ pcfgDmode d.pcfg = 3) := by
  obtain ⟨hl, ha, hd⟩ := requestOf_ok h
  refine ⟨?_, ?_, ?_⟩
  · unfold requestLines at hl
    split at hl
    · exact .inl ‹_›
    split at hl
    · exact .inr ‹_›
    · cases hl
  · unfold requestAddress at ha
    split at ha
    · exact .inl ‹_›
    split at ha
    · exact .inr ‹_›
    · cases ha
  · unfold requestData at hd
    split at hd
    · exact .inl ‹_›
    split at hd
    · exact .inr ‹_›
    · cases hd

/-- The data phase by the function mode: nothing or bytes to the chip in indirect-write mode, nothing in indirect-read
mode, nothing or one byte of a one-byte poll (R208, R211(d)). -/
theorem requestData_ok {d : Descriptor} {q : DataReq} (h : requestData d = .ok q) :
    pcfgDmode d.pcfg = 0 ∧ q = .none ∨
    pcfgFmode d.pcfg = 0 ∧ (∃ bytes, q = .toChip bytes) ∨
    pcfgFmode d.pcfg = 2 ∧ d.dlen = 0 ∧ q = .fromChip 1 := by
  unfold requestData at h
  split at h
  · next hmode => cases h; exact .inl ⟨hmode, rfl⟩
  split at h
  · split at h
    · next hmode =>
      split at h
      · cases h; exact .inr (.inl ⟨hmode, _, rfl⟩)
      · cases h
    split at h
    · next hmode =>
      split at h
      · next hlen => cases h; exact .inr (.inr ⟨hmode, hlen, rfl⟩)
      · cases h
    · cases h
  · cases h

end Sys2Proof.Machine

namespace Sys2Proof.Proofs

open Sys2Proof.Machine

/-- Settles O32: a disabled peripheral arms nothing (`arms_iff`). -/
theorem disabledStartsNothing : Obligations.DisabledStartsNothing := by
  intro s
  refine ⟨fun hen r v => ?_, by simp [writeEn], fun hb => writeEn_idle false s hb⟩
  rcases writeReg_cases r v s with ⟨_, k, hw⟩ | hw | hw <;> rw [hw]
  · exact ⟨rfl, rfl⟩
  · exact setReg_transaction r v s.p
  · rw [arm, if_neg (by simp [arms_setReg_disabled r v hen])]
    exact setReg_transaction r v s.p

/-- Settles O33: the model's condition is the rule's (`arms_iff`, `armTrigger_iff`). -/
theorem armingRule : Obligations.ArmingRule := by
  intro r v s hr
  have hreg : r = .dlen ∨ r = .pcfg ∨ r = .addr ∨ r = .data ∨ r = .psmask ∨ r = .psmatch ∨ r = .pint := by tauto
  have hset : (setReg r v s.p).en = s.p.en ∧ (setReg r v s.p).busy = s.p.busy := by
    rcases hr with rfl | rfl | rfl <;> exact ⟨rfl, rfl⟩
  have hiff := arms_iff r (setReg r v s.p)
  rw [hset.1, hset.2, armTrigger_iff hr] at hiff
  refine ⟨fun hb ⟨hen, hmode, hinstr, htrigger⟩ => ?_, fun hb hno => ?_⟩
  · exact writeReg_arms r v s hreg hb (hiff.mpr ⟨hen, hb, hmode, hinstr, htrigger⟩)
  · refine writeReg_quiet r v s hreg hb (Bool.eq_false_iff.mpr fun h => hno ?_)
    obtain ⟨hen, _, hmode, hinstr, htrigger⟩ := hiff.mp h
    exact ⟨hen, hmode, hinstr, htrigger⟩

/-- Settles O34: a request that is made has codes the block writes (`requestOf_unusedCode`), and one the chip rejects leaves
the chip and the sequencer as they were. -/
theorem misuseSetsTheMark : Obligations.MisuseSetsTheMark := by
  refine ⟨fun s v hb => ⟨fun r hr => writeReg_busy r v s (by tauto) hb, by simp [setApms, hb], by simp [writeEn, hb]⟩,
    fun s d hd hmode hbad => ?_, fun s d req e hd hmode hreq hdec => ?_⟩
  · rw [peripheralStep_perform hd hmode]
    cases hreq : requestOf d with
    | error r => exact ⟨r, performLive_error hreq⟩
    | ok req =>
      obtain ⟨himode, hadmode, hdmode⟩ := requestOf_unusedCode hreq
      have hpoll : pcfgFmode d.pcfg = 2 ∧ d.dlen ≠ 0 := by
        rcases hbad with h | h | h | ⟨h, hsize⟩ | h | h | h
        · simp [h] at himode
        · simp [h] at hadmode
        · simp [h] at hadmode
        · exact absurd (by simpa [h] using hadmode) hsize
        · simp [h] at hdmode
        · simp [h] at hdmode
        · exact h
      have hshape : pollShape req = false := by
        rcases requestData_ok (requestOf_ok hreq).2.2 with ⟨_, hq⟩ | ⟨hwrite, _⟩ | ⟨_, hlen, _⟩
        · simp [pollShape, hq]
        · exact absurd (hpoll.1.symm.trans hwrite) (by decide)
        · exact absurd hlen hpoll.2
      exact ⟨_, performLive_misshapen hreq ⟨hpoll.1, hshape⟩⟩
  · rw [peripheralStep_perform hd hmode]
    by_cases hpoll : pcfgFmode d.pcfg = fmodePoll ∧ pollShape req = false
    · exact ⟨_, performLive_misshapen hreq hpoll, refuse_ne _ s, rfl, rfl⟩
    · refine ⟨_, performLive_bad hreq hpoll hdec, unknown_ne e req s, ?_, ?_⟩ <;> unfold performUnknown <;> split <;> rfl

/-- Settles O35: the request brings nothing back (`requestData_ok`), so every opcode it may decode to is recorded and ended
(`exec_indirect`), and so is one the chip rejects. -/
theorem indirectTransactionIsOneStep : Obligations.IndirectTransactionIsOneStep := by
  intro s d hr hd
  have hstep (hmode : pcfgFmode d.pcfg ≠ fmodeMapped) : stepAs .peripheral s = tick (performLive d s) := by
    rw [stepAs_unmarked hr, agentStep, peripheralStep_perform hd hmode]
  refine ⟨fun req hmode hreq => ?_, fun hmode hdata => ?_⟩
  · have hindirect : pcfgFmode d.pcfg ≠ fmodeMapped ∧ pcfgFmode d.pcfg ≠ fmodePoll := by
      rcases hmode with h | h <;> rw [h] <;> decide
    have hpoll : ¬ (pcfgFmode d.pcfg = fmodePoll ∧ pollShape req = false) := fun h => hindirect.2 h.1
    have hnothing : wantsData req = false := by
      rcases requestData_ok (requestOf_ok hreq).2.2 with ⟨_, hq⟩ | ⟨_, bytes, hq⟩ | ⟨hno, _⟩
      · rw [wantsData, hq]
      · rw [wantsData, hq]
      · exact absurd hno hindirect.2
    rw [hstep hindirect.1]
    cases hdec : decodeBus req with
    | ok i =>
      obtain ⟨c, m, hexec, _⟩ := exec_indirect s (encodeOfDecode (.bus req) i hdec).1 hnothing
      exact ⟨c, m, by rw [performLive_ok hreq hpoll hdec, hexec]⟩
    | error e =>
      refine ⟨s.c, some (s.refused.getD (rejection e)), ?_⟩
      rw [performLive_bad hreq hpoll hdec, performUnknown, if_neg (by simp [hnothing])]
      rfl
  · rw [hstep (by rw [hmode]; decide)]
    cases hreq : requestOf d with
    | error r => exact ⟨r, by rw [performLive_error hreq]⟩
    | ok req =>
      rcases requestData_ok (requestOf_ok hreq).2.2 with ⟨hno, _⟩ | ⟨hwrite, _⟩ | ⟨hpoll, _⟩
      · exact absurd hno hdata
      · rw [hmode] at hwrite; cases hwrite
      · rw [hmode] at hpoll; cases hpoll

end Sys2Proof.Proofs

/-! SUPPORT. Polls and the mapped read (spec/46 R209, R210, R221, R223), and the frame of every chip opcode. -/

namespace Sys2Proof.Machine

/-! ## Polls and the mapped read -/

/-- A poll changes the history, SMF, BUSY and LIVE alone, or sets the mark alone (R209, R214). -/
theorem poll_frame (l : Lines) (op : Byte) (s : State) :
    (∃ r, poll l op s = refuse r s) ∨
    ∃ b smf live busy, poll l op s =
      { s with bus := s.bus ++ [⟨l, op, none, 0, some (.fromChip, [b])⟩],
               p := { s.p with smf := smf, live := live, busy := busy } } := by
  cases hl : lineOk l s.c
  · exact .inl ⟨_, poll_refused l op s hl⟩
  · refine .inr ?_
    rw [poll_ok l op s hl]
    generalize statusByte s.params (s.params.statusReg op) s.c (Config.freeStatus s.draws) = b
    rcases pollCompare_cases b s.p with h | ⟨_, _, _, ⟨_, h⟩ | ⟨_, h⟩⟩ <;> rw [h]
    · exact ⟨b, s.p.smf, s.p.live, s.p.busy, rfl⟩
    · exact ⟨b, true, none, false, rfl⟩
    · exact ⟨b, true, s.p.live, s.p.busy, rfl⟩

/-- The mapped read is served, or sets the mark alone (R223). -/
theorem execChipQiofr_cases (a : Word) (dummy : BitVec 5) (n : Nat) (s : State) :
    (∃ r, execChipQiofr a dummy n s = .next (refuse r s)) ∨
    lineOk .four s.c = true ∧ s.c.wip = false ∧ s.c.addr4 = true ∧ a.toNat + n ≤ s.params.flashSize ∧
      execChipQiofr a dummy n s = .next (serveRead a dummy n s) := by
  rw [execChipQiofr]
  rcases chipReact_cases .four (acceptRead a dummy n) s with ⟨r, hr⟩ | ⟨hl, hw, he⟩
  · exact .inl ⟨r, congrArg _ hr⟩
  rw [he, acceptRead]
  split
  · exact .inl ⟨_, rfl⟩
  next haddr4 =>
  split
  · exact .inl ⟨_, rfl⟩
  next hn => exact .inr ⟨hl, hw, by simpa using haddr4, Nat.not_lt.mp hn, rfl⟩

/-- The register a status read reads is A exactly for the opcode of A (R29, R221). -/
theorem statusReg_eq (p : Params) {op : Byte} (h : op = opcRead05 ∨ op = opcRead15) :
    p.statusReg op = if op = p.opcRdsrA then .a else .b := by
  rcases h with rfl | rfl <;> cases hp : p.reads05 <;>
    simp [Params.statusReg, Params.opcRdsrA, Params.statusOpcode, hp, StatusReg.other, opcRead05, opcRead15]

/-- What a chip opcode may change (R208 to R223): its flag of the chip, the mark, the history, the events, and SMF, LIVE
and BUSY. -/
structure OpcodeFrame (i : Instr) (s t : State) : Prop where
  rest : ∃ c m bus events smf live busy, t = { s with
    c := c, refused := m, bus := bus, events := events, p := { s.p with smf := smf, live := live, busy := busy } }
  chip : ChipFrame i s.c t.c
  smf : isStatusRead i = false → t.p.smf = s.p.smf
  events : (∀ a d n, i ≠ .chipQiofr a d n) → t.events = s.events
  read : ∀ a d n, i = .chipQiofr a d n → t.p = s.p

theorem OpcodeFrame.refuse (i : Instr) (r : Refusal) (s : State) : OpcodeFrame i s (refuse r s) :=
  ⟨⟨_, _, _, _, _, _, _, rfl⟩, .refl i s.c, fun _ => rfl, fun _ => rfl, fun _ _ _ _ => rfl⟩

/-- The frame of an opcode whose request brings nothing back. -/
theorem exec_indirect_frame {i : Instr} {r : BusReq} {s t : State} (henc : encode i = .bus r)
    (hr : wantsData r = false) (h : exec i s = .next t) : OpcodeFrame i s t := by
  obtain ⟨c, m, hexec, hc⟩ := exec_indirect s henc hr
  cases hexec.symm.trans h
  refine ⟨⟨_, _, _, _, _, _, _, rfl⟩, hc, fun _ => rfl, fun _ => rfl, ?_⟩
  rintro a d n rfl
  cases henc
  cases hr

theorem poll_opcodeFrame {i : Instr} (hi : isStatusRead i = true) (l : Lines) (op : Byte) (s : State) :
    OpcodeFrame i s (poll l op s) := by
  rcases poll_frame l op s with ⟨r, hr⟩ | ⟨b, smf, live, busy, hp⟩
  · rw [hr]
    exact .refuse i r s
  · rw [hp]
    refine ⟨⟨_, _, _, _, _, _, _, rfl⟩, .refl i s.c, fun hno => Bool.noConfusion (hi.symm.trans hno), fun _ => rfl, ?_⟩
    rintro a d n rfl
    cases hi

theorem exec_opcodeFrame {i : Instr} {s t : State} (hi : isCommand i = false) (h : exec i s = .next t) :
    OpcodeFrame i s t := by
  cases i with
  | chipWren | chipSe4k | chipPp4b | chipEqio | chipEn4b => exact exec_indirect_frame rfl rfl h
  | chipRdsrA l | chipRdsrB l => cases h; exact poll_opcodeFrame rfl l _ s
  | chipQiofr a dummy n =>
    rcases execChipQiofr_cases a dummy n s with ⟨r, hr⟩ | ⟨_, _, _, _, hserved⟩
    · cases hr.symm.trans h
      exact .refuse _ r s
    · cases hserved.symm.trans h
      exact ⟨⟨_, _, _, _, _, _, _, rfl⟩, .refl _ s.c, fun _ => rfl, fun hno => absurd rfl (hno a dummy n), fun _ _ _ _ => rfl⟩
  | _ => cases hi

end Sys2Proof.Machine

namespace Sys2Proof.Proofs

open Sys2Proof.Machine

/-- Settles O6: the live descriptor is performed, and its request is the one that decodes. -/
theorem stepRunsLiveTransaction : Obligations.StepRunsLiveTransaction := by
  intro s d r i hr hturn hd hmode hpoll hreq hdec
  have hshape : ¬ (pcfgFmode d.pcfg = fmodePoll ∧ pollShape r = false) := by
    rintro ⟨hp, hno⟩
    obtain ⟨haddr, hdata⟩ := hpoll hp
    simp [pollShape, haddr, hdata] at hno
  rw [step, hturn, stepAs_unmarked hr, agentStep, peripheralStep_perform hd hmode, performLive_ok hreq hshape hdec]

/-- Settles O37: on the right lines to an idle chip each opcode has its effect, and its transaction ends. -/
theorem flagOpcodesSetTheirFlag : Obligations.FlagOpcodesSetTheirFlag := by
  intro s hw
  have taken (tx : BusTxn) (effect : State → State) (hl : lineOk tx.ilines s.c = true) :
      Host.Outcome.next (performTxn tx effect s) = (.next (finishTxn tx (effect s)) : Host.Outcome State Fault Refusal) :=
    by rw [performTxn, chipReact_ok _ _ _ hl hw]
  refine ⟨fun hq => ⟨taken ⟨.four, opcWren, none, 0, none⟩ _ hq, taken ⟨.four, opcEn4b, none, 0, none⟩ _ hq, ?_⟩,
    fun hq => ⟨taken ⟨.one, opcEqio, none, 0, none⟩ _ (by rw [lineOk, hq]; rfl), rfl, rfl⟩⟩
  have hset : { s.c with quad := true } = s.c := by rw [← hq]
  refine (taken ⟨.four, opcEqio, none, 0, none⟩ _ hq).trans ?_
  rw [hset]
  rfl

/-- Settles O38: an erase that is not enabled or not the chip's is refused by the reaction, and its transaction ends. -/
theorem sectorEraseOpcode : Obligations.SectorEraseOpcode := by
  intro s a hq hw
  refine ⟨fun hno => ?_, fun haddr4 hwel ha => execChipSe4k_accepted hq hw haddr4 hwel ha⟩
  have hrefused : ∃ r, acceptErase a s = refuse r s := by
    rw [acceptErase]
    split
    · exact ⟨_, rfl⟩
    next henabled =>
    rw [if_pos (by simp at henabled; simpa [henabled] using hno)]
    exact ⟨_, rfl⟩
  obtain ⟨r, hr⟩ := hrefused
  exact ⟨r, by rw [exec, execChipSe4k, performTxn, chipReact_ok .four _ s hq hw, hr]; rfl⟩

/-- Settles O39: a program that is not enabled, not the chip's or across a page is refused by the reaction, and its
transaction ends. -/
theorem pageProgramOpcode : Obligations.PageProgramOpcode := by
  intro s a d0 d1 d2 d3 hq hw
  refine ⟨fun hno => ?_, fun hwel ha hpage => execChipPp4b_accepted d0 d1 d2 d3 hq hw hwel ha hpage⟩
  have hrefused : ∃ r, acceptProgram a d0 d1 d2 d3 s = refuse r s := by
    rw [acceptProgram]
    split
    · exact ⟨_, rfl⟩
    next henabled =>
    split
    · exact ⟨_, rfl⟩
    next hin =>
    rw [if_pos (by simp at henabled; simpa [henabled, hin] using hno)]
    exact ⟨_, rfl⟩
  obtain ⟨r, hr⟩ := hrefused
  exact ⟨r, by rw [exec, execChipPp4b, performTxn, chipReact_ok .four _ s hq hw, hr]; rfl⟩

/-- Settles O40: a poll of either opcode reads the register the parameters give it (`statusReg_eq`). -/
theorem statusReadsPoll : Obligations.StatusReadsPoll := by
  intro s l d hl hd r
  have polled (op : Byte) (hop : op = opcRead05 ∨ op = opcRead15) :
      let b := statusByte s.params (if op = s.params.opcRdsrA then .a else .b) s.c (Config.freeStatus s.draws)
      let p := if b &&& d.psmask.setWidth 8 = d.psmatch.setWidth 8 then
          (if s.p.apms then { s.p with smf := true, live := none, busy := false } else { s.p with smf := true })
        else s.p
      poll l op s = { s with bus := s.bus ++ [⟨l, op, none, 0, some (.fromChip, [b])⟩], p := p } := by
    rw [poll_ok l op s hl, statusReg_eq s.params hop, pollCompare, hd]
    simp only [statusMatches, beq_iff_eq]
    congr 1
    cases s.p.apms <;> simp [← hd]
  cases r with
  | a => exact congrArg _ (polled opcRead05 (.inl rfl))
  | b => exact congrArg _ (polled opcRead15 (.inr rfl))

/-- Settles O41: the mapped read is served (`execChipQiofr_served`). -/
theorem quadReadOpcode : Obligations.QuadReadOpcode := by
  intro s a dummy n hq haddr4 hw hn
  exact execChipQiofr_served hq haddr4 hw hn

/-- Settles O42: the reaction is refused (`performTxn_refused`, `poll_refused`), or the mapped read is not served
(`execChipQiofr_cases`). -/
theorem lineAndBusyDiscipline : Obligations.LineAndBusyDiscipline := by
  intro s i l hi hbad
  have txn {tx : BusTxn} {effect : State → State} (h : lineOk tx.ilines s.c = false ∨ s.c.wip = true) :
      ∃ t, Host.Outcome.next (performTxn tx effect s) = (.next t : Host.Outcome State Fault Refusal) ∧
        t.refused ≠ none ∧ t.c = s.c ∧ t.seq = s.seq := by
    obtain ⟨r, hr⟩ := performTxn_refused effect h
    exact ⟨_, congrArg _ hr, by simp, rfl, rfl⟩
  have polled (op : Byte) (h : lineOk l s.c = false) :
      ∃ t, Host.Outcome.next (poll l op s) = (.next t : Host.Outcome State Fault Refusal) ∧
        t.refused ≠ none ∧ t.c = s.c ∧ t.seq = s.seq :=
    ⟨_, congrArg _ (poll_refused l op s h), refuse_ne _ s, rfl, rfl⟩
  cases i with
  | chipWren | chipSe4k | chipPp4b | chipEn4b | chipEqio =>
    cases hi
    refine txn ?_
    simpa [isStatusRead] using hbad
  | chipRdsrA l | chipRdsrB l =>
    cases hi
    exact polled _ (by simpa [isStatusRead] using hbad)
  | chipQiofr a dummy n =>
    cases hi
    rcases execChipQiofr_cases a dummy n s with ⟨r, hr⟩ | ⟨hl, hw, haddr4, hn, _⟩
    · exact ⟨_, hr, refuse_ne _ s, rfl, rfl⟩
    · rcases hbad with hno | ⟨hno, _⟩ | ⟨a', d', n', heq, hno⟩
      · exact Bool.noConfusion (hl.symm.trans hno)
      · exact Bool.noConfusion (hw.symm.trans hno)
      · cases heq
        simp [haddr4, Nat.not_lt.mpr hn] at hno
  | _ => cases hi

/-- Settles O43: the completion writes the run of the operation and nothing else. -/
theorem pendingOperationCompletes : Obligations.PendingOperationCompletes := by
  intro s op hc hw hop hin
  refine ⟨completed op s, ?_, rfl, fun base hbase a => ?_, fun b d0 d1 d2 d3 hprog => ?_⟩
  · rw [chipStep_of s hc, completePending, hw, hop]
    exact if_pos hin
  · subst hbase
    exact read_erased s.params base s.c.flash a
  · subst hprog
    refine ⟨?_, ?_, ?_, ?_, fun a ha => apply_read_outside s.params (.program b d0 d1 d2 d3) s.c.flash a ha⟩ <;>
      simp [flashByte, completed, PendingOp.apply, Memory.read_setRun]

/-- Settles O52, from the frame of every chip opcode (`exec_opcodeFrame`). -/
theorem chipOpcodeFrame : Obligations.ChipOpcodeFrame := by
  intro i s t hi h
  obtain ⟨⟨c, m, bus, events, smf, live, busy, rfl⟩, ⟨hflash, hwel, hquad, haddr4, hpending⟩, hsmf, hevents, hread⟩ :=
    exec_opcodeFrame hi h
  exact ⟨rfl, rfl, rfl, rfl, rfl, fun a => congrArg (Memory.read s.params.launchByte · a) hflash, rfl, rfl, rfl, rfl, rfl,
    rfl, rfl, rfl, rfl, rfl, rfl, hsmf, hwel, hquad, haddr4, hpending, hevents, hread⟩

end Sys2Proof.Proofs

/-! SUPPORT. Runs under a schedule on which an awaited agent moves again and again (spec/46 R213, R225): a live transaction
is performed, a pending operation applied. -/

namespace Sys2Proof.Machine

/-! ## Runs under a schedule -/

/-- A run goes on under the rest of its schedule. -/
theorem runSched_add {sched : Nat → Agent} {n k : Nat} {s t u : State} (h : runSched sched n s = .next t)
    (h' : runSched (fun i => sched (n + i)) k t = .next u) : runSched sched (n + k) s = .next u := by
  rw [runSched, List.range_add, List.map_append, List.map_map]
  exact (runAs_append _ _ s t h).trans h'

theorem runSched_one {sched : Nat → Agent} {s t : State} (h : stepAs (sched 0) s = .next t) :
    runSched sched 1 s = .next t := runAs_one _ s t h

/-- Under the schedule the run comes to a state that meets `Goal`. -/
def Eventually (Goal : State → Prop) (sched : Nat → Agent) (s : State) : Prop :=
  ∃ n t, runSched sched n s = .next t ∧ Goal t

/-- What the rest of a schedule leads to, the schedule leads to. -/
theorem Eventually.after {Goal : State → Prop} {sched : Nat → Agent} {n : Nat} {s t : State}
    (h : runSched sched n s = .next t) (h' : Eventually Goal (fun i => sched (n + i)) t) : Eventually Goal sched s := by
  obtain ⟨k, u, hu, hgoal⟩ := h'
  exact ⟨n + k, u, runSched_add h hu, hgoal⟩

/-- The goal is reached at the latest when the awaited agent moves, where every other agent's step keeps the wait or
reaches it. -/
theorem eventually_of_awaited {Wait Goal : State → Prop} {awaited : Agent}
    (hstep : ∀ a s, Wait s → ∃ t, stepAs a s = .next t ∧ (Goal t ∨ a ≠ awaited ∧ Wait t)) :
    ∀ {m : Nat} {sched : Nat → Agent} {s : State}, sched m = awaited → Wait s → Eventually Goal sched s := by
  intro m
  induction m with
  | zero =>
    intro sched s hm hs
    obtain ⟨t, ht, hgoal | ⟨hne, _⟩⟩ := hstep (sched 0) s hs
    · exact ⟨1, t, runSched_one ht, hgoal⟩
    · exact absurd hm hne
  | succ m ih =>
    intro sched s hm hs
    obtain ⟨t, ht, hgoal | ⟨_, hwait⟩⟩ := hstep (sched 0) s hs
    · exact ⟨1, t, runSched_one ht, hgoal⟩
    · exact .after (runSched_one ht) (ih (by rw [Nat.add_comm 1 m]; exact hm) hwait)

/-- A run whose rank no step raises, and the awaited agent's step lowers, reaches the goal. -/
theorem eventually_of_rank {Inv Goal : State → Prop} {rank : State → Nat} {awaited : State → Agent}
    (hstep : ∀ a s, Inv s → ∃ t, stepAs a s = .next t ∧
      (Goal t ∨ Inv t ∧ (rank t < rank s ∨ a ≠ awaited s ∧ rank t = rank s ∧ awaited t = awaited s)))
    {sched : Nat → Agent} {s : State} (hfair : ∀ s k, ∃ m, k ≤ m ∧ sched m = awaited s) (hs : Inv s) :
    Eventually Goal sched s := by
  induction hn : rank s using Nat.strong_induction_on generalizing sched s with
  | _ n ih =>
    obtain ⟨m, _, hm⟩ := hfair s 0
    have hlower : Eventually (fun t => Goal t ∨ Inv t ∧ rank t < n) sched s := by
      refine eventually_of_awaited (Wait := fun t => Inv t ∧ rank t = n ∧ awaited t = awaited s) (fun a t ht => ?_) hm
        ⟨hs, hn, rfl⟩
      obtain ⟨hInv, hrank, hawaited⟩ := ht
      obtain ⟨u, hu, hgoal | ⟨hInv', hlt | ⟨hne, hrank', hawaited'⟩⟩⟩ := hstep a t hInv
      · exact ⟨u, hu, .inl (.inl hgoal)⟩
      · exact ⟨u, hu, .inl (.inr ⟨hInv', hrank ▸ hlt⟩)⟩
      · exact ⟨u, hu, .inr ⟨hawaited ▸ hne, hInv', hrank'.trans hrank, hawaited'.trans hawaited⟩⟩
    obtain ⟨k, t, ht, hgoal | ⟨hInv, hlt⟩⟩ := hlower
    · exact ⟨k, t, ht, hgoal⟩
    · refine .after ht (ih (rank t) hlt (fun u j => ?_) hInv rfl)
      obtain ⟨i, hi, hsched⟩ := hfair u (k + j)
      exact ⟨i - k, by omega, by rw [Nat.add_sub_cancel' (by omega)]; exact hsched⟩

/-! ## Steps without the host -/

/-- The step of an unmarked machine, from the agent's own. -/
theorem stepAs_of_agentStep {a : Agent} {s u : State} (hr : s.refused = none) (hu : agentStep a s = .next u) :
    ∃ t, stepAs a s = .next t ∧ Counted u t ∧ t.moves = u.moves := by
  rw [stepAs_unmarked hr, hu]
  exact ⟨_, rfl, by constructor <;> simp, by simp⟩

/-- A silent host does nothing. -/
theorem hostStep_silent {s : State} (hm : s.moves = []) : hostStep s = .next s := by
  rw [hostStep, hm]

/-- Only the host spends its moves. -/
theorem agentStep_moves {a : Agent} {s t : State} (h : agentStep a s = .next t) (ha : a ≠ .host) :
    t.moves = s.moves := by
  cases a with
  | host => exact absurd rfl ha
  | sequencer =>
    rcases sequencerStep_cases s t h with ⟨_, rfl⟩ | ⟨_, _, rfl⟩ | ⟨_, _, _, _, _, _, hstep⟩
    · rfl
    · rfl
    · exact (microStep_frame hstep).1.moves
  | peripheral =>
    rcases peripheralStep_cases s t h with rfl | ⟨d, _, _, ⟨r, rfl⟩ | ⟨req, _, _, ⟨i, hi, hexec⟩ | ⟨e, _, rfl⟩⟩⟩
    · rfl
    · rfl
    · obtain ⟨_, _, _, _, _, _, _, rfl⟩ := (exec_opcodeFrame (decodeBus_isCommand req i hi) hexec).rest
      rfl
    · unfold performUnknown
      split <;> rfl
  | chip => rcases chipStep_cases h with rfl | ⟨_, op, _, _, _, rfl⟩ <;> rfl

/-- Where the host is silent no step spends a move. -/
theorem agentStep_silent {a : Agent} {s t : State} (h : agentStep a s = .next t) (hm : s.moves = []) :
    t.moves = [] := by
  by_cases ha : a = .host
  · subst ha
    cases (hostStep_silent hm).symm.trans h
    exact hm
  · rw [agentStep_moves h ha, hm]

/-- A machine whose host is silent, unmarked at a control point or after a precise fault. -/
structure Silent (s : State) : Prop where
  consistent : Consistent s
  refused : s.refused = none
  moves : s.moves = []

/-- A step of such a machine that sets no mark leads to another. -/
theorem Silent.step {a : Agent} {s u : State} (h : Silent s) (hu : agentStep a s = .next u) (hr : u.refused = none) :
    ∃ t, stepAs a s = .next t ∧ Counted u t ∧ Silent t := by
  obtain ⟨t, ht, hcount, hm⟩ := stepAs_of_agentStep h.refused hu
  have hr' : t.refused = none := hcount.refused.trans hr
  exact ⟨t, ht, hcount, Proofs.consistentKept a s t h.consistent ht hr', hr', hm.trans (agentStep_silent hu h.moves)⟩

/-! ## The live transaction is performed (R213) -/

/-- A chip opcode is recorded, or sets the mark. -/
theorem exec_recorded {i : Instr} (hi : isCommand i = false) (s : State) :
    ∃ t, exec i s = .next t ∧ (t.refused ≠ none ∨ s.bus.length < t.bus.length) := by
  have grows (bus : List BusTxn) (tx : BusTxn) : bus.length < (bus ++ [tx]).length := by simp
  have indirect {r : BusReq} (henc : encode i = .bus r) (hr : wantsData r = false) :
      ∃ t, exec i s = .next t ∧ (t.refused ≠ none ∨ s.bus.length < t.bus.length) := by
    obtain ⟨c, m, hexec, _⟩ := exec_indirect s henc hr
    exact ⟨_, hexec, .inr (grows _ _)⟩
  cases i with
  | chipWren | chipSe4k | chipPp4b | chipEqio | chipEn4b => exact indirect rfl rfl
  | chipRdsrA l | chipRdsrB l =>
    refine ⟨_, rfl, ?_⟩
    rcases poll_frame l _ s with ⟨r, hr⟩ | ⟨b, smf, live, busy, hp⟩
    · exact .inl (hr ▸ refuse_ne r s)
    · exact .inr (by rw [hp]; exact grows _ _)
  | chipQiofr a dummy n =>
    rcases execChipQiofr_cases a dummy n s with ⟨r, hr⟩ | ⟨_, _, _, _, hserved⟩
    · exact ⟨_, hr, .inl (refuse_ne r s)⟩
    · exact ⟨_, hserved, .inr (grows _ _)⟩
  | _ => cases hi

/-- Performing a descriptor records a transaction, or sets the mark. -/
theorem performLive_recorded (d : Descriptor) (s : State) :
    ∃ t, performLive d s = .next t ∧ (t.refused ≠ none ∨ s.bus.length < t.bus.length) := by
  cases hreq : requestOf d with
  | error r => exact ⟨_, performLive_error hreq, .inl (refuse_ne r s)⟩
  | ok req =>
    by_cases hpoll : pcfgFmode d.pcfg = fmodePoll ∧ pollShape req = false
    · exact ⟨_, performLive_misshapen hreq hpoll, .inl (refuse_ne _ s)⟩
    cases hdec : decodeBus req with
    | error e => exact ⟨_, performLive_bad hreq hpoll hdec, .inl (unknown_ne e req s)⟩
    | ok i =>
      rw [performLive_ok hreq hpoll hdec]
      exact exec_recorded (decodeBus_isCommand req i hdec) s

/-- While a transaction is live the sequencer waits (R133, R227). -/
theorem Consistent.sequencer_waits {s : State} {d : Descriptor} (hC : Consistent s) (hd : s.p.live = some d) :
    ∃ u, sequencerStep s = .next u ∧ u.refused = s.refused ∧ u.p = s.p ∧ u.bus = s.bus := by
  cases hact : s.seq.active
  · exact ⟨s, by simp [sequencerStep, hact], rfl, rfl, rfl⟩
  · obtain ⟨⟨r, k⟩, rest, hst, hk, _, _⟩ := (hC.active hact).live_armed hd
    have hT := (hC.active hact).top _ _ hst
    obtain ⟨m, hm⟩ : ∃ m, (routineSteps r s.params s.seq.x)[k]? = some m := ⟨_, List.getElem?_eq_getElem hT.bound⟩
    simp only at hk
    subst hk
    obtain rfl := armed_spin hm
    refine ⟨spin ⟨r, r.armedStep⟩ rest s, ?_, spin_refused _ rest s, spin_p _ rest s,
      (microStep_frame (m := .spin) (f := ⟨r, r.armedStep⟩) rfl).1.bus⟩
    simp only [sequencerStep, hact, if_true, hst, hm]
    rfl

/-- Every agent but the peripheral leaves the peripheral and the history while a transaction is live. -/
theorem Silent.transaction_waits {a : Agent} {s : State} {d : Descriptor} (h : Silent s) (ha : a ≠ .peripheral)
    (hd : s.p.live = some d) :
    ∃ u, agentStep a s = .next u ∧ u.refused = none ∧ u.p = s.p ∧ u.bus = s.bus := by
  cases a with
  | peripheral => exact absurd rfl ha
  | host => exact ⟨s, hostStep_silent h.moves, h.refused, rfl, rfl⟩
  | sequencer =>
    obtain ⟨u, hu, hr, hp, hbus⟩ := h.consistent.sequencer_waits hd
    exact ⟨u, hu, hr.trans h.refused, hp, hbus⟩
  | chip =>
    by_cases hc : s.seq.cause = 3
    · exact ⟨s, chipStep_expired s hc, h.refused, rfl, rfl⟩
    · obtain ⟨u, hu, _⟩ := chipStep_answers h.consistent.basic hc h.refused
      refine ⟨u, hu, ?_⟩
      rcases chipStep_cases hu with rfl | ⟨_, op, _, _, _, rfl⟩ <;> exact ⟨h.refused, rfl, rfl⟩

/-- The live transaction waits for the peripheral, which records it or sets the mark. -/
theorem Silent.eventually_recorded {sched : Nat → Agent} {m : Nat} {s : State} {d : Descriptor} (h : Silent s)
    (hm : sched m = .peripheral) (hd : s.p.live = some d) (hmode : pcfgFmode d.pcfg ≠ fmodeMapped) :
    Eventually (fun t => t.refused ≠ none ∨ s.bus.length < t.bus.length) sched s := by
  refine eventually_of_awaited (Wait := fun t => Silent t ∧ t.p = s.p ∧ t.bus = s.bus) (fun a v hv => ?_) hm ⟨h, rfl, rfl⟩
  obtain ⟨hS, hp, hbus⟩ := hv
  have hlive : v.p.live = some d := by rw [hp, hd]
  by_cases ha : a = .peripheral
  · subst ha
    obtain ⟨u, hu, hrec⟩ := performLive_recorded d v
    obtain ⟨t, ht, hcount, _⟩ := stepAs_of_agentStep (a := .peripheral) hS.refused
      ((peripheralStep_perform hlive hmode).trans hu)
    exact ⟨t, ht, .inl (by rw [hcount.refused, hcount.bus, ← hbus]; exact hrec)⟩
  · obtain ⟨u, hu, hr, hpu, hbusu⟩ := hS.transaction_waits ha hlive
    obtain ⟨t, ht, hcount, hSt⟩ := hS.step hu hr
    exact ⟨t, ht, .inr ⟨ha, hSt, hcount.p.trans (hpu.trans hp), hcount.bus.trans (hbusu.trans hbus)⟩⟩

/-! ## The pending operation is applied (R225) -/

/-- A poll leaves the chip. -/
theorem poll_c (l : Lines) (op : Byte) (s : State) : (poll l op s).c = s.c := by
  rcases poll_frame l op s with ⟨r, hr⟩ | ⟨b, smf, live, busy, hp⟩
  · rw [hr, refuse_c]
  · rw [hp]

/-- While an operation is in progress a transaction leaves the chip or sets the mark (R215). -/
theorem peripheralStep_busy_chip {s t : State} (hw : s.c.wip = true) (h : peripheralStep s = .next t)
    (hr : t.refused = none) : t.c = s.c := by
  rcases peripheralStep_cases s t h with rfl | ⟨d, _, _, ⟨r, rfl⟩ | ⟨req, _, _, ⟨i, hi, hexec⟩ | ⟨e, _, rfl⟩⟩⟩
  · rfl
  · rfl
  · have hcmd := decodeBus_isCommand req i hi
    have refused {l : Lines} (hl : instrLines i = some l) (hread : isStatusRead i = false) : t.c = s.c := by
      obtain ⟨u, hu, hmark, _⟩ := Proofs.lineAndBusyDiscipline s i l hl (.inr (.inl ⟨hw, hread⟩))
      cases hu.symm.trans hexec
      exact absurd hr hmark
    cases i with
    | chipWren | chipSe4k | chipPp4b | chipEqio | chipEn4b | chipQiofr => exact refused rfl rfl
    | chipRdsrA l | chipRdsrB l => cases hexec; exact poll_c l _ s
    | _ => cases hcmd
  · exact absurd hr (unknown_ne e req s)

/-- While an operation is in progress no step of the sequencer or the peripheral that sets no mark and takes no Timeout
touches the chip. -/
theorem Silent.operation_waits {a : Agent} {s u : State} (h : Silent s) (ha : a ≠ .chip) (hw : s.c.wip = true)
    (hu : agentStep a s = .next u) (hr : u.refused = none) (hc : u.seq.cause ≠ 3) : u.c = s.c := by
  cases a with
  | chip => exact absurd rfl ha
  | host => cases (hostStep_silent h.moves).symm.trans hu; rfl
  | peripheral => exact peripheralStep_busy_chip hw hu hr
  | sequencer =>
    rcases sequencerStep_cases s u hu with ⟨_, rfl⟩ | ⟨_, _, rfl⟩ | ⟨_, _, _, _, _, _, hstep⟩
    · rfl
    · rfl
    · rcases (microStep_frame hstep).2 with ⟨_, rfl⟩ | ⟨hchip, _⟩
      · exact absurd rfl hc
      · exact hchip

/-- With a silent host every step answers, where no Timeout stands. -/
theorem Silent.answers {s : State} (h : Silent s) (hc : s.seq.cause ≠ 3) (a : Agent) : ∃ u, agentStep a s = .next u := by
  rcases agentStep_answers (a := a) h.consistent hc h.refused with ⟨u, hu, _⟩ | ⟨rfl, hno⟩
  · exact ⟨u, hu⟩
  · exact nomatch hno.symm.trans (hostStep_silent h.moves)

/-- The operation in progress, with the array and the parameters it will be applied to. -/
structure InProgress (op : PendingOp) (s t : State) : Prop where
  silent : Silent t
  cause : t.seq.cause ≠ 3
  wip : t.c.wip = true
  pending : t.c.pending = some op
  flash : t.c.flash = s.c.flash
  params : t.params = s.params

/-- The pending operation waits for the chip, which applies it, unless the mark or a Timeout comes first. -/
theorem InProgress.eventually_applied {sched : Nat → Agent} {m : Nat} {s : State} {op : PendingOp}
    (h : InProgress op s s) (hm : sched m = .chip) :
    Eventually (fun t => t.refused ≠ none ∨ t.seq.cause = 3 ∨
      (t.c.pending = none ∧ t.c.flash = op.apply s.params s.c.flash)) sched s := by
  refine eventually_of_awaited (Wait := InProgress op s) (fun a v hv => ?_) hm h
  obtain ⟨hS, hc, hw, hop, hflash, hparams⟩ := hv
  by_cases ha : a = .chip
  · subst ha
    have hstep : agentStep .chip v = .next (completed op v) := by
      rw [agentStep, chipStep_of v hc, completePending, hw, hop]
      exact if_pos (hS.consistent.basic.pending_range op hop)
    obtain ⟨t, ht, hcount, _⟩ := hS.step hstep hS.refused
    refine ⟨t, ht, .inl (.inr (.inr ?_))⟩
    rw [hcount.chip_of hc, ← hflash, ← hparams]
    exact ⟨rfl, rfl⟩
  · obtain ⟨u, hu⟩ := hS.answers hc a
    obtain ⟨t, ht, hcount, _⟩ := stepAs_of_agentStep hS.refused hu
    refine ⟨t, ht, ?_⟩
    by_cases hr : u.refused = none
    · by_cases hcu : u.seq.cause = 3
      · exact .inl (.inr (.inl (hcount.seq ▸ hcu)))
      obtain ⟨t', ht', _, hSt⟩ := hS.step hu hr
      cases ht'.symm.trans ht
      have hchip := (hcount.chip_of hcu).trans (hS.operation_waits ha hw hu hr hcu)
      exact .inr ⟨ha, hSt, hcount.seq ▸ hcu, hchip ▸ hw, hchip ▸ hop, hchip ▸ hflash,
        (Proofs.lastingFacts a v t ht).1.trans hparams⟩
    · exact .inl (.inl (hcount.refused ▸ hr))

end Sys2Proof.Machine

namespace Sys2Proof.Proofs

open Sys2Proof.Machine

/-- Settles O59: the live transaction waits for the peripheral (`Silent.eventually_recorded`), the pending operation for the
chip (`InProgress.eventually_applied`), and on a fair schedule both move. -/
theorem fairAgentsMakeProgress : Obligations.FairAgentsMakeProgress := by
  intro sched s hC hr hm hresp hfair
  obtain ⟨⟨m, _, hperipheral⟩, k, _, hchip⟩ := hfair hresp 0
  refine ⟨fun d hd hmode => Silent.eventually_recorded ⟨hC, hr, hm⟩ hperipheral hd hmode, fun op hop => ?_⟩
  by_cases hc : s.seq.cause = 3
  · exact ⟨0, s, rfl, .inr (.inl hc)⟩
  · have hw : s.c.wip = true := by rw [hC.basic.wip_pending, hop]; rfl
    exact InProgress.eventually_applied ⟨⟨hC, hr, hm⟩, hc, hw, hop, rfl, rfl⟩ hchip

end Sys2Proof.Proofs

/-! SUPPORT. The end of every command (spec/46 R227): the work left to an executing command, which no step raises and the
step of the agent it waits for lowers. -/

namespace Sys2Proof.Machine

/-! ## The work left to a command -/

/-- How many steps are left of a frame's routine. -/
def Frame.left (p : Params) (x : Latches) (f : Frame) : Nat := (routineSteps f.routine p x).length - f.step

/-- The steps left of every frame, a step of a caller weighing more than all the steps of the routine it calls. -/
def stackWork (p : Params) (x : Latches) : List Frame → Nat
  | [] => 0
  | f :: rest => f.left p x * 16 ^ (3 - rest.length) + stackWork p x rest

/-- The work left to an executing command: its routines' steps, its live transaction, the operation in progress. Each step
that starts the one or the other outweighs it. -/
def workLeft (s : State) : Nat :=
  4 * stackWork s.params s.seq.x s.seq.stack + 2 * s.p.live.isSome.toNat + s.c.wip.toNat

/-- The agent an executing command waits for: the sequencer, where no transaction is live; the chip, where the transaction
is a poll of a chip with an operation in progress; else the peripheral. -/
def awaitedAgent (s : State) : Agent :=
  if s.p.live.isSome then (if s.c.wip then .chip else .peripheral) else .sequencer

/-- No routine has as many steps as a caller's step weighs. -/
theorem routineSteps_length (r : Routine) (p : Params) (x : Latches) : (routineSteps r p x).length < 16 := by
  cases r <;> simp [routineSteps, wsSteps, weSteps, erSteps, pwSteps, eqSteps, e4Steps, mmSteps]

/-- The work of a stack whose top frame goes on, calls and returns. -/
theorem stackWork_advance {p : Params} {x : Latches} {f : Frame} (rest : List Frame)
    (h : f.step < (routineSteps f.routine p x).length) :
    stackWork p x (⟨f.routine, f.step + 1⟩ :: rest) + 16 ^ (3 - rest.length) = stackWork p x (f :: rest) := by
  have hleft : f.left p x = Frame.left p x ⟨f.routine, f.step + 1⟩ + 1 := by
    simp only [Frame.left]
    omega
  rw [stackWork, stackWork, hleft]
  ring

theorem stackWork_advance_lt {p : Params} {x : Latches} {f : Frame} (rest : List Frame)
    (h : f.step < (routineSteps f.routine p x).length) :
    stackWork p x (⟨f.routine, f.step + 1⟩ :: rest) < stackWork p x (f :: rest) := by
  rw [← stackWork_advance rest h]
  exact Nat.lt_add_of_pos_right (Nat.pow_pos (by decide))

theorem stackWork_return_lt {p : Params} {x : Latches} {f : Frame} (rest : List Frame)
    (h : f.step < (routineSteps f.routine p x).length) : stackWork p x rest < stackWork p x (f :: rest) := by
  refine lt_of_le_of_lt ?_ (stackWork_advance_lt rest h)
  rw [stackWork]
  exact Nat.le_add_left _ _

theorem stackWork_call_lt {p : Params} {x : Latches} {f : Frame} {rest : List Frame} (r : Routine)
    (h : f.step < (routineSteps f.routine p x).length) (hrest : rest.length < 2) :
    stackWork p x (startFrame r :: ⟨f.routine, f.step + 1⟩ :: rest) < stackWork p x (f :: rest) := by
  have hcalled : (startFrame r).left p x < 16 := lt_of_le_of_lt (Nat.sub_le _ _) (routineSteps_length r p x)
  have hweight : 3 - rest.length = (3 - (rest.length + 1)) + 1 := by omega
  rw [stackWork, List.length_cons, ← stackWork_advance rest h, hweight, pow_succ, Nat.add_comm]
  exact Nat.add_lt_add_left (by rw [Nat.mul_comm]; exact Nat.mul_lt_mul_of_pos_left hcalled (Nat.pow_pos (by decide))) _

/-! ## A command that goes on -/

/-- A step of an executing command that is neither `done` nor a Timeout. -/
structure GoesOn (s u : State) : Prop where
  params : u.params = s.params
  refused : u.refused = none
  events : u.events = s.events
  active : u.seq.active = true
  x : u.seq.x = s.seq.x
  phase : u.seq.phase = s.seq.phase
  chip : s.seq.x.op = 0x01 → u.c = s.c

theorem GoesOn.refl {s : State} (hr : s.refused = none) (hact : s.seq.active = true) : GoesOn s s :=
  ⟨rfl, hr, rfl, hact, rfl, rfl, fun _ => rfl⟩

/-- A step of agent `a` that lowers the work left, or leaves it and the agent awaited, another than `a`. -/
def Nearer (a : Agent) (s u : State) : Prop :=
  workLeft u < workLeft s ∨ a ≠ awaitedAgent s ∧ workLeft u = workLeft s ∧ awaitedAgent u = awaitedAgent s

theorem Nearer.stays {a : Agent} {s : State} (ha : a ≠ awaitedAgent s) : Nearer a s s := .inr ⟨ha, rfl, rfl⟩

/-- Fewer steps left outweigh what a step may start. -/
theorem Nearer.of_stack {a : Agent} {s u : State} (h : stackWork u.params u.seq.x u.seq.stack <
    stackWork s.params s.seq.x s.seq.stack) : Nearer a s u := by
  have hlive := Bool.toNat_le u.p.live.isSome
  have hwip := Bool.toNat_le u.c.wip
  refine .inl ?_
  rw [workLeft, workLeft]
  omega

/-- A transaction that ends outweighs the operation it may start. -/
theorem Nearer.of_transaction {a : Agent} {s u : State} (hparams : u.params = s.params) (hseq : u.seq = s.seq)
    (hs : s.p.live.isSome = true) (hu : u.p.live = none) (hw : s.c.wip = false ∨ u.c = s.c) : Nearer a s u := by
  have hwip := Bool.toNat_le u.c.wip
  refine .inl ?_
  rw [workLeft, workLeft, hparams, hseq, hs, hu]
  rcases hw with h | h
  · simp only [h, Option.isSome_none, Bool.toNat_false, Bool.toNat_true]
    omega
  · simp only [h, Option.isSome_none, Bool.toNat_false, Bool.toNat_true]
    omega

/-! ## The sequencer's step -/

/-- An elementary step of a command without a spin bound goes on, with fewer steps left, or waits on a busy peripheral. -/
theorem microStep_goes_on {m : Micro} {f : Frame} {rest : List Frame} {s u : State} (hn : s.params.spinLimit = none)
    (hst : s.seq.stack = f :: rest) (hm : (routineSteps f.routine s.params s.seq.x)[f.step]? = some m)
    (h : microStep m f rest s = .next u) :
    u = s ∧ readBusy s = true ∨
    u.seq.active = s.seq.active ∧ stackWork u.params u.seq.x u.seq.stack < stackWork s.params s.seq.x s.seq.stack := by
  have hbound : f.step < (routineSteps f.routine s.params s.seq.x).length := (List.getElem?_eq_some_iff.mp hm).1
  rw [hst]
  rcases microStep_cases m f rest s u h with ⟨_, ht⟩ | ⟨r, _, hrest, rfl⟩ | ⟨_, rfl⟩ | ⟨_, v, ⟨⟨p, mark, rfl⟩, _, _⟩, rfl⟩
  · rcases spin_cases f rest s with ⟨_, hs⟩ | ⟨hb, _, hs⟩ | ⟨_, n, hno, _⟩ | ⟨_, n, hno, _⟩
    · exact .inr (by rw [ht, hs]; exact ⟨rfl, stackWork_advance_lt rest hbound⟩)
    · exact .inl ⟨ht.trans hs, hb⟩
    · exact nomatch hn.symm.trans hno
    · exact nomatch hn.symm.trans hno
  · exact .inr ⟨rfl, stackWork_call_lt r hbound hrest⟩
  · exact .inr ⟨rfl, stackWork_return_lt rest hbound⟩
  · exact .inr ⟨rfl, stackWork_advance_lt rest hbound⟩

/-- The sequencer's step of an executing command without a spin bound: `done`, or nearer to it. -/
theorem Silent.sequencer_nearer {s : State} (h : Silent s) (hact : s.seq.active = true)
    (hn : s.params.spinLimit = none) :
    ∃ u, sequencerStep s = .next u ∧
      (s.seq.stack = [] ∧ u = commandDone s ∨ GoesOn s u ∧ Nearer .sequencer s u) := by
  have hA := h.consistent.active hact
  cases hst : s.seq.stack with
  | nil => exact ⟨commandDone s, by simp [sequencerStep, hact, hst], .inl ⟨rfl, rfl⟩⟩
  | cons f rest =>
    have hT := hA.top f rest hst
    obtain ⟨m, hm⟩ : ∃ m, (routineSteps f.routine s.params s.seq.x)[f.step]? = some m :=
      ⟨_, List.getElem?_eq_getElem hT.bound⟩
    obtain ⟨u, hu, hmark⟩ := microStep_unmarked m f rest s
      (fun hspin => hT.idle h.consistent.basic fun hk => hspin (armed_spin (hk ▸ hm)))
      (fun r hcall => call_depth (hst ▸ hA.stack) (hcall ▸ hm))
    refine ⟨u, by simp only [sequencerStep, hact, if_true, hst, hm, hu], .inr ?_⟩
    obtain ⟨hf, hchip⟩ := microStep_frame hu
    rcases microStep_goes_on hn hst hm hu with ⟨rfl, hbusy⟩ | ⟨hact', hlt⟩
    · refine ⟨.refl h.refused hact, .stays ?_⟩
      rw [active_readBusy u hA, h.consistent.basic.busy_live] at hbusy
      rw [awaitedAgent, if_pos hbusy]
      split <;> decide
    · rcases hchip with ⟨_, rfl⟩ | ⟨hc, hevents⟩
      · exact Bool.noConfusion (hact.symm.trans hact'.symm)
      · exact ⟨⟨hf.params, hmark.trans h.refused, hevents, hact'.trans hact, hf.x, hf.phase, fun _ => hc⟩, .of_stack hlt⟩

/-! ## The transaction -/

/-- WAIT_STATUS runs no routine but WS. -/
theorem stackOk_waits {p : Params} {x : Latches} {f : Frame} {rest : List Frame} (h : stackOk p x (f :: rest))
    (hop : x.op = 0x01) : ∃ o m t, f.routine = .ws o m t := by
  obtain ⟨b, hb, hx⟩ := stackOk_bottom h (List.cons_ne_nil f rest)
  have hws : b.routine = .ws x.c (x.a.setWidth 8) (x.b.setWidth 8) := by simpa [routineOf, hop] using hx
  rcases List.mem_cons.mp hb with rfl | hb
  · exact ⟨_, _, _, hws⟩
  · exact absurd hws (callers_not_ws h b hb _ _ _)

/-- A status-wait reads a status register, whose byte meets its condition once no operation is in progress (R227): by what
its caller says of the chip, or, of WAIT_STATUS, by the premise. -/
theorem ActiveOk.wait_meets {s : State} {op mask pattern : Byte} {k : Nat} {rest : List Frame} (hB : Basic s)
    (hA : ActiveOk s) (hst : s.seq.stack = ⟨.ws op mask pattern, k⟩ :: rest) (hreach : reachable s) :
    ∃ r : StatusReg, op = s.params.statusOpcode r ∧
      (s.c.wip = false → ∀ free, statusByte s.params r s.c free &&& mask = pattern) := by
  have hstack := hst ▸ hA.stack
  have hwf := hB.params
  cases rest with
  | nil =>
    have hroutine : some (.ws op mask pattern) = routineOf s.seq.x := hstack
    have hop := (routineOf_op s.seq.x).1 op mask pattern hroutine.symm
    simp only [routineOf, hop, if_true, Option.some.injEq, Routine.ws.injEq] at hroutine
    obtain ⟨rfl, rfl, rfl⟩ := hroutine
    obtain ⟨r, hr, hmeets⟩ := hreach.1 hop
    exact ⟨r, hr, fun _ => hmeets⟩
  | cons g rest =>
    obtain ⟨hpos, hcall, _⟩ := hstack
    have hchip := hA.chip g (by simp [hst])
    obtain ⟨r, j⟩ := g
    have hindex := call_index _ _ _ _ _ hcall
    simp only [wsLatch, wsIdle, reduceCtorEq, and_false, false_or, Routine.ws.injEq] at hindex hpos
    have after {r : Routine} (hj : r.armedStep < j) : performed ⟨r, j⟩ s := .inl hj
    rcases hindex with ⟨rfl, hj, rfl, rfl, rfl⟩ | ⟨rfl, hj, rfl, rfl, rfl⟩ | ⟨rfl, hj, rfl, rfl, rfl⟩ |
      ⟨rfl, hj, rfl, rfl, rfl⟩ | ⟨rfl, hj, rfl, rfl, rfl⟩
    · exact ⟨.a, rfl, fun hw => statusByte_latched hwf (hchip.2 (after (by simp only [Routine.armedStep]; omega))) hw⟩
    · exact ⟨.a, rfl, statusByte_idle hwf⟩
    · exact ⟨.a, rfl, statusByte_idle hwf⟩
    · exact ⟨_, rfl, fun _ => statusByte_quad hwf (hchip.2.1.mpr (after (by simp only [Routine.armedStep]; omega)))⟩
    · exact ⟨_, rfl, fun _ => statusByte_addr4 hwf (hchip.2 (after (by simp only [Routine.armedStep]; omega)))⟩

/-- The peripheral's step on a latched descriptor of one of the indirect modes is `exec` of the instruction it sends. -/
theorem peripheralStep_indirect {s t : State} {w : Word} {m : BitVec 2} {r : BusReq} {i : Instr}
    (hd : s.p.live = some (snapshot s.p)) (hp : s.p.pcfg = w) (hw : pcfgFmode w = m)
    (hm : m ≠ fmodePoll ∧ m ≠ fmodeMapped) (hreq : requestOf (snapshot s.p) = .ok r) (hdec : decodeBus r = .ok i)
    (hexec : exec i s = .next t) : peripheralStep s = .next t := by
  obtain ⟨hpoll, hmapped⟩ := hm
  have hmode : pcfgFmode (snapshot s.p).pcfg = m := by rw [snapshot, hp, hw]
  rw [peripheralStep_perform hd (hmode ▸ hmapped), performLive_ok hreq (fun h => hpoll (hmode.symm.trans h.1)) hdec, hexec]

/-- The transaction of every routine but WS is taken by a chip with nothing in progress (R208, R216 to R220): it is
recorded, ended and not marked. -/
theorem Consistent.transaction_taken {s : State} {d : Descriptor} {f : Frame} {rest : List Frame} (hC : Consistent s)
    (hact : s.seq.active = true) (hreach : reachable s) (hd : s.p.live = some d) (hst : s.seq.stack = f :: rest)
    (hws : ∀ o m t, f.routine ≠ .ws o m t) :
    s.c.wip = false ∧ ∃ c bus, peripheralStep s = .next
      { s with c := c, bus := bus, p := { s.p with live := none, busy := false } } := by
  have hA := hC.active hact
  obtain ⟨_, _, hst', hk, rfl, hnot⟩ := hA.live_armed hd
  cases hst.symm.trans hst'
  have hT := hA.top _ _ hst
  have hchip := hA.chip _ (hst ▸ List.mem_cons_self)
  have hkept := hA.kept _ (hst ▸ List.mem_cons_self)
  have hstack := hst ▸ hA.stack
  have hquad := hC.quad_of_top hact hst
  have hphase := hC.phase (by rw [hC.basic.cause_of_active hact]; decide)
  have hflags := Proofs.flagOpcodesSetTheirFlag s
  have hpcfg := hT.pcfg
  obtain ⟨r, k⟩ := f
  simp only at hk
  subst hk
  cases r with
  | ws => exact absurd rfl (hws _ _ _)
  | we =>
    have hp : s.p.pcfg = kWren ||| opcWren.setWidth 32 := hpcfg _ rfl
    exact ⟨hchip.1, _, _, peripheralStep_indirect hd hp fmode_we (by decide) (request_we s.p hp) rfl
      ((hflags hchip.1).1 (hquad (by simp))).1⟩
  | er =>
    have hp : s.p.pcfg = kErase ||| opcSe.setWidth 32 := hpcfg _ rfl
    have hw : s.c.wip = false := hchip.1 hnot
    have hop : s.seq.x.op = 3 := (op_of_bottom (bottom hstack (by simp) ▸ hstack)).1 rfl
    have hph : s.seq.phase = .p2Ready := by simpa [hop, legalPhase] using hA.legal
    have haddr : s.p.addr = eraseAddress s.seq.x.a := hkept (by decide)
    exact ⟨hw, _, _, peripheralStep_indirect hd hp fmode_er (by decide) (request_er s.p hp) rfl
      (execChipSe4k_accepted (hquad (by simp)) hw (hphase.addr4 (.inl hph)) (hT.latch (.inl rfl) (by decide) hnot)
        (haddr ▸ hreach.2.1 hop))⟩
  | pw =>
    have hp : s.p.pcfg = kProgram ||| opcPp4b.setWidth 32 := hpcfg _ rfl
    have hw : s.c.wip = false := hchip.1 hnot
    have hop : s.seq.x.op = 4 := (op_of_bottom (bottom hstack (by simp) ▸ hstack)).2 rfl
    have haddr : s.p.addr = s.seq.x.a := hkept.1 (by decide)
    obtain ⟨hin, hpage⟩ := haddr ▸ hreach.2.2 hop
    exact ⟨hw, _, _, peripheralStep_indirect hd hp fmode_pw (by decide) (request_pw s.p hp hT.dlen) rfl
      (execChipPp4b_accepted _ _ _ _ (hquad (by simp)) hw (hT.latch (.inr rfl) (by decide) hnot) hin hpage)⟩
  | eq =>
    have hp : s.p.pcfg = kQuad ||| opcEqio.setWidth 32 := hpcfg _ rfl
    have hsingle : s.c.quad = false := Bool.eq_false_iff.mpr fun h => hnot (hchip.2.1.mp h)
    exact ⟨hchip.1, _, _, peripheralStep_indirect hd hp fmode_eq (by decide) (request_eq s.p hp) rfl
      ((hflags hchip.1).2 hsingle).1⟩
  | e4 =>
    have hp : s.p.pcfg = kAddr4 ||| opcEn4b.setWidth 32 := hpcfg _ rfl
    exact ⟨hchip.1, _, _, peripheralStep_indirect hd hp fmode_e4 (by decide) (request_e4 s.p hp) rfl
      ((hflags hchip.1).1 (hquad (by simp))).2.1⟩
  | mm => exact absurd hT.bound (by simp [Routine.armedStep, routineSteps, mmSteps])

/-- The poll of a status-wait is recorded (R209), and ends once no operation is in progress (R210). -/
theorem Silent.poll_nearer {s : State} {d : Descriptor} {op mask pattern : Byte} {k : Nat} {rest : List Frame}
    (h : Silent s) (hact : s.seq.active = true) (hreach : reachable s) (hd : s.p.live = some d)
    (hst : s.seq.stack = ⟨.ws op mask pattern, k⟩ :: rest) :
    ∃ u, peripheralStep s = .next u ∧ GoesOn s u ∧ Nearer .peripheral s u := by
  have hA := h.consistent.active hact
  obtain ⟨_, _, hst', hk, rfl, _⟩ := hA.live_armed hd
  cases hst.symm.trans hst'
  have hT := hA.top _ _ hst
  simp only at hk
  subst hk
  obtain ⟨hmask, hmatch, _, hapms⟩ := hT.operands
  obtain ⟨r, rfl, hmeets⟩ := hA.wait_meets h.consistent.basic hst hreach
  have hstep : peripheralStep s = .next (poll .four (s.params.statusOpcode r) s) := by
    rcases peripheralStep_poll hd (hT.pcfg _ rfl) hT.dlen with ⟨_, hstep⟩ | ⟨hno, _⟩
    · exact hstep
    · exact absurd (statusOpcode_read s.params r) hno
  refine ⟨_, hstep, ?_⟩
  rw [poll_ok .four _ s (h.consistent.quad_of_top hact hst (by simp)), statusReg_statusOpcode]
  refine ⟨⟨rfl, h.refused, rfl, hact, rfl, rfl, fun _ => rfl⟩, ?_⟩
  have hap : s.p.apms = true := hapms (by simp [Routine.armedStep])
  have hends {u : State} (hparams : u.params = s.params) (hseq : u.seq = s.seq) (hc : u.c = s.c) (hu : u.p.live = none) :
      Nearer .peripheral s u := .of_transaction hparams hseq (by rw [hd]; rfl) hu (.inr hc)
  cases hw : s.c.wip with
  | false =>
    refine hends rfl rfl rfl (congrArg Periph.live (pollCompare_matched hd hap ?_))
    simpa [snapshot, hmask (by simp [Routine.armedStep]), hmatch (by simp [Routine.armedStep]), statusMatches]
      using hmeets hw (Config.freeStatus s.draws)
  | true =>
    rcases pollCompare_cases (statusByte s.params r s.c (Config.freeStatus s.draws)) s.p with
      hsame | ⟨_, _, _, ⟨_, hmatched⟩ | ⟨hno, _⟩⟩
    · exact .inr ⟨by simp [awaitedAgent, hd, hw], by rw [hsame]; rfl, by rw [hsame]; rfl⟩
    · exact hends rfl rfl rfl (congrArg Periph.live hmatched)
    · exact Bool.noConfusion (hap.symm.trans hno)

/-- The peripheral's step of an executing command whose condition the chip can reach. -/
theorem Silent.peripheral_nearer {s : State} (h : Silent s) (hact : s.seq.active = true) (hreach : reachable s) :
    ∃ u, peripheralStep s = .next u ∧ GoesOn s u ∧ Nearer .peripheral s u := by
  cases hd : s.p.live with
  | none =>
    refine ⟨s, by rw [peripheralStep, hd], .refl h.refused hact, .stays ?_⟩
    simp [awaitedAgent, hd]
  | some d =>
    obtain ⟨⟨r, k⟩, rest, hst, _, rfl, _⟩ := (h.consistent.active hact).live_armed hd
    by_cases hws : ∃ o m t, r = .ws o m t
    · obtain ⟨o, m, t, rfl⟩ := hws
      exact h.poll_nearer hact hreach hd hst
    · have hws : ∀ o m t, r ≠ .ws o m t := fun o m t hr => hws ⟨o, m, t, hr⟩
      obtain ⟨hw, c, bus, hperf⟩ := h.consistent.transaction_taken hact hreach hd hst hws
      have hop : s.seq.x.op ≠ 0x01 := fun hop => by
        obtain ⟨o, m, t, hr⟩ := stackOk_waits (hst ▸ (h.consistent.active hact).stack) hop
        exact hws o m t hr
      refine ⟨_, hperf, ⟨rfl, h.refused, rfl, hact, rfl, rfl, fun hno => absurd hno hop⟩,
        .of_transaction rfl rfl (by rw [hd]; rfl) rfl (.inl hw)⟩

/-- The chip's step of an executing command. -/
theorem Silent.chip_nearer {s : State} (h : Silent s) (hact : s.seq.active = true) :
    ∃ u, chipStep s = .next u ∧ GoesOn s u ∧ Nearer .chip s u := by
  have hc : s.seq.cause ≠ 3 := by rw [h.consistent.basic.cause_of_active hact]; decide
  cases hop : s.c.pending with
  | none =>
    have hw : s.c.wip = false := by rw [h.consistent.basic.wip_pending, hop]; rfl
    refine ⟨s, by rw [chipStep_of s hc, completePending, hw], .refl h.refused hact, .stays ?_⟩
    rw [awaitedAgent, hw]
    split <;> decide
  | some op =>
    have hw : s.c.wip = true := by rw [h.consistent.basic.wip_pending, hop]; rfl
    refine ⟨completed op s, ?_, ⟨rfl, h.refused, rfl, hact, rfl, rfl, fun h1 => ?_⟩, .inl ?_⟩
    · rw [chipStep_of s hc, completePending, hw, hop]
      exact if_pos (h.consistent.basic.pending_range op hop)
    · have hcalm := (h.consistent.active hact).calm (by rw [h1]; decide) (by rw [h1]; decide)
      exact Bool.noConfusion (hw.symm.trans hcalm)
    · simp only [workLeft, completed, hw]
      exact Nat.lt_succ_self _

/-! ## The end of every command -/

/-- The command of `s₀` still executes in `s`, nothing told to the host since, and the chip can give it what it waits
for. -/
structure Pursued (s₀ s : State) : Prop where
  silent : Silent s
  active : s.seq.active = true
  unbounded : s.params.spinLimit = none
  reachable : reachable s
  x : s.seq.x = s₀.seq.x
  phase : s.seq.phase = s₀.seq.phase
  events : s.events = s₀.events

/-- What the command waits for stays in the chip's reach. -/
theorem GoesOn.reachable {s u : State} (h : GoesOn s u) (hr : reachable s) : Machine.reachable u := by
  obtain ⟨hwait, herase, hprogram⟩ := hr
  rw [Machine.reachable, h.x, h.params]
  exact ⟨fun hop => by rw [h.chip hop]; exact hwait hop, herase, hprogram⟩

/-- Every agent's step of a pursued command: `done`, or nearer to it. -/
theorem Pursued.agentStep_nearer {s₀ s : State} (h : Pursued s₀ s) (a : Agent) :
    ∃ u, agentStep a s = .next u ∧ (u = commandDone s ∨ GoesOn s u ∧ Nearer a s u) := by
  cases a with
  | host =>
    refine ⟨s, hostStep_silent h.silent.moves, .inr ⟨.refl h.silent.refused h.active, .stays ?_⟩⟩
    rw [awaitedAgent]
    split
    · split <;> decide
    · decide
  | sequencer =>
    obtain ⟨u, hu, ⟨_, hdone⟩ | hgoes⟩ := h.silent.sequencer_nearer h.active h.unbounded
    · exact ⟨u, hu, .inl hdone⟩
    · exact ⟨u, hu, .inr hgoes⟩
  | peripheral =>
    obtain ⟨u, hu, hgoes⟩ := h.silent.peripheral_nearer h.active h.reachable
    exact ⟨u, hu, .inr hgoes⟩
  | chip =>
    obtain ⟨u, hu, hgoes⟩ := h.silent.chip_nearer h.active
    exact ⟨u, hu, .inr hgoes⟩

/-- The counted step of a pursued command. -/
theorem Pursued.step {s₀ s : State} (h : Pursued s₀ s) (a : Agent) :
    ∃ t, stepAs a s = .next t ∧ (ReportedDone (nextPhase s₀.seq.x.op s₀.seq.phase) s₀ t ∨
      Pursued s₀ t ∧ Nearer a s t) := by
  have hB := h.silent.consistent.basic
  have hcause : s.seq.cause = 0 := hB.cause_of_active h.active
  obtain ⟨u, hu, rfl | ⟨hgoes, hnear⟩⟩ := h.agentStep_nearer a
  · obtain ⟨t, ht, hcount, hS⟩ := h.silent.step hu h.silent.refused
    have hseq := hcount.seq
    refine ⟨t, ht, .inl ⟨hS.refused, by rw [hseq]; rfl, ?_, ?_, ?_⟩⟩
    · rw [hseq]
      exact hB.fault_cause.mpr hcause
    · rw [hseq, ← h.x, ← h.phase]
      rfl
    · rw [hcount.events, ← h.events]
      rfl
  · obtain ⟨t, ht, hcount, hS⟩ := h.silent.step hu hgoes.refused
    have hact : t.seq.active = true := by rw [hcount.seq, hgoes.active]
    have hc : u.seq.cause ≠ 3 := by
      rw [← hcount.seq, hS.consistent.basic.cause_of_active hact]
      decide
    have hchip := hcount.chip_of hc
    have hgoes' : GoesOn s t := ⟨hcount.params.trans hgoes.params, hS.refused, hcount.events.trans hgoes.events, hact,
      by rw [hcount.seq, hgoes.x], by rw [hcount.seq, hgoes.phase], fun hop => hchip.trans (hgoes.chip hop)⟩
    refine ⟨t, ht, .inr ⟨⟨hS, hact, hgoes'.params ▸ h.unbounded, hgoes'.reachable h.reachable, hgoes'.x.trans h.x,
      hgoes'.phase.trans h.phase, hgoes'.events.trans h.events⟩, ?_⟩⟩
    have hwork : workLeft t = workLeft u := by simp only [workLeft, hcount.params, hcount.seq, hcount.p, hchip]
    have hawaited : awaitedAgent t = awaitedAgent u := by simp only [awaitedAgent, hcount.p, hchip]
    rw [Nearer, hwork, hawaited]
    exact hnear

/-- The agent awaited is never the host. -/
theorem awaitedAgent_moves {sched : Nat → Agent} (hfair : Fair sched) (hseq : SequencerMoves sched) (s : State) (k : Nat) :
    ∃ m, k ≤ m ∧ sched m = awaitedAgent s := by
  rw [awaitedAgent]
  split
  · split
    · exact (hfair k).2
    · exact (hfair k).1
  · exact hseq k

end Sys2Proof.Machine

namespace Sys2Proof.Proofs

open Sys2Proof.Machine

/-- Settles O60: no step raises the work left to the command, and that of the agent it waits for, which moves again and
again, lowers it (`Pursued.step`). -/
theorem everyCommandEndsInDone : Obligations.EveryCommandEndsInDone := by
  intro sched s hC hr hm hact hn hresp hfair hseq hreach
  exact eventually_of_rank (rank := workLeft) (fun a t ht => Pursued.step ht a) (awaitedAgent_moves (hfair hresp) hseq)
    ⟨⟨hC, hr, hm⟩, hact, hn, hreach, rfl, rfl, rfl⟩

end Sys2Proof.Proofs

/-! SUPPORT. Fault entry and the standing of a fault (spec/60 R241 to R245): what a faulted machine can still tell the
host, and what its steps leave. -/

namespace Sys2Proof.Machine

/-! ## What the host is told -/

/-- The host is told nothing new, or the result of one window read (R63). -/
def TellsAtMostRead (s t : State) : Prop :=
  t.events = s.events ∨ ∃ n v, t.events = s.events ++ [.readData n v]

theorem TellsAtMostRead.no_fault {s t : State} (h : TellsAtMostRead s t) (code : BitVec 2) (info : FaultInfo) :
    t.events ≠ s.events ++ [.fault code info] := by
  rcases h with h | ⟨n, v, h⟩ <;> simp [h]

/-- The host's moves are nothing it is told. -/
theorem TellsAtMostRead.spend {s t : State} {m : List HostMove} (h : TellsAtMostRead { s with moves := m } t) :
    TellsAtMostRead s t := h

/-- Of the chip opcodes only the quad read tells the host anything (R223). -/
theorem exec_tellsAtMostRead {i : Instr} {s t : State} (hi : isCommand i = false) (h : exec i s = .next t) :
    TellsAtMostRead s t := by
  by_cases hread : ∃ a d n, i = .chipQiofr a d n
  · obtain ⟨a, d, n, rfl⟩ := hread
    rcases execChipQiofr_cases a d n s with ⟨r, hr⟩ | ⟨_, _, _, _, hserved⟩
    · cases hr.symm.trans h
      exact .inl rfl
    · cases hserved.symm.trans h
      exact .inr ⟨_, _, rfl⟩
  · exact .inl ((exec_opcodeFrame hi h).events fun a d n he => hread ⟨a, d, n, he⟩)

theorem windowRead_tellsAtMostRead {a n : Nat} {rest : List HostMove} {s t : State}
    (h : windowRead a n rest s = .next t) : TellsAtMostRead s t := by
  rcases windowRead_cases a n rest s t h with ⟨r, rfl⟩ | ⟨_, _, req, i, _, _, hdec, hexec⟩
  · exact .inl rfl
  · exact (exec_tellsAtMostRead (decodeBus_isCommand req i hdec) hexec).spend

theorem peripheralStep_tellsAtMostRead {s t : State} (h : peripheralStep s = .next t) : TellsAtMostRead s t := by
  rcases peripheralStep_cases s t h with rfl | ⟨d, _, _, ⟨r, rfl⟩ | ⟨req, _, _, ⟨i, hdec, hexec⟩ | ⟨e, _, rfl⟩⟩⟩
  · exact .inl rfl
  · exact .inl rfl
  · exact exec_tellsAtMostRead (decodeBus_isCommand req i hdec) hexec
  · unfold performUnknown
    split <;> exact .inl rfl

/-! ## A fault stands (R245) -/

/-- In a faulted machine the port takes no word and the sequencer has no frame to run: every step but power-on reset
leaves the sequencer, and tells the host at most what a window read gives. -/
theorem agentStep_of_faulted {a : Agent} {s t : State} (hB : Basic s) (hf : s.seq.fault = true)
    (hn : ¬ resetsNext a s) (h : agentStep a s = .next t) : t.seq = s.seq ∧ TellsAtMostRead s t := by
  have hidle : s.seq.active = false := hB.fault_idle hf
  cases a with
  | host =>
    rcases hostStep_cases s t h with rfl | ⟨_, _, _, hready, _⟩ | ⟨a, n, rest, _, hread⟩ | ⟨_, _, _, _, _, rfl⟩ |
      ⟨_, _, rfl⟩ | ⟨_, hm, _⟩
    · exact ⟨rfl, .inl rfl⟩
    · exact Bool.noConfusion (((portReady_iff s).mp hready).2.symm.trans hf)
    · exact ⟨(windowRead_transacted a n rest s t hread).seq, windowRead_tellsAtMostRead hread⟩
    · exact ⟨rfl, .inl rfl⟩
    · exact ⟨rfl, .inl rfl⟩
    · exact absurd ⟨rfl, by simp [hm]⟩ hn
  | sequencer =>
    rcases sequencerStep_cases s t h with ⟨_, rfl⟩ | ⟨hact, _⟩ | ⟨_, _, _, hact, _⟩
    · exact ⟨rfl, .inl rfl⟩
    · exact Bool.noConfusion (hidle.symm.trans hact)
    · exact Bool.noConfusion (hidle.symm.trans hact)
  | peripheral => exact ⟨(peripheralStep_transacted s t h).seq, peripheralStep_tellsAtMostRead h⟩
  | chip => rcases chipStep_cases h with rfl | ⟨_, op, _, _, _, rfl⟩ <;> exact ⟨rfl, .inl rfl⟩

end Sys2Proof.Machine

namespace Sys2Proof.Proofs

open Sys2Proof.Machine

/-- Settles O26: fault entry is `raise`, and it writes these fields and no other. -/
theorem faultEntry : Obligations.FaultEntry := fun _ _ _ => rfl

/-- Settles O11: the illegal word's case of the command port's rules, with fault entry written out. -/
theorem illegalCommandRaised : Obligations.IllegalCommandRaised := by
  intro s w rest hr hm hact hfault hlegal
  obtain ⟨_, hready⟩ := commandPortRules.1 s w rest hr hm
  obtain ⟨hillegal, _, _⟩ := hready hact hfault
  rw [hillegal hlegal, faultEntry]
  rfl

/-- Settles O12: the out-of-phase case of the command port's rules, with fault entry written out. -/
theorem preconditionViolationRaised : Obligations.PreconditionViolationRaised := by
  intro s w rest hr hm hact hfault hlegal hphase
  obtain ⟨_, hready⟩ := commandPortRules.1 s w rest hr hm
  obtain ⟨_, houtOfPhase, _⟩ := hready hact hfault
  rw [houtOfPhase hlegal hphase, faultEntry]
  rfl

/-- Settles O27: every step but power-on reset leaves a faulted sequencer and raises nothing (`agentStep_of_faulted`), the
port refuses the word by its own rule, and power-on reset writes the sequencer's reset record. -/
theorem faultStandsUntilReset : Obligations.FaultStandsUntilReset := by
  intro a s t hB hf h
  obtain ⟨u, hu, hcount⟩ := stepAs_counted h
  rw [hcount.seq, hcount.events]
  refine ⟨fun hn => (agentStep_of_faulted hB hf hn hu).1, ?_,
    fun code info hn => (agentStep_of_faulted hB hf hn hu).2.no_fault code info, fun hreset => ?_⟩
  · rintro w rest rfl hm
    have hunmarked : s.refused = none :=
      (stepAs_cases .host s t h).1.resolve_right fun ⟨_, hno⟩ => by simp [hm] at hno
    exact h.symm.trans ((commandPortRules.1 s w rest hunmarked hm).1 (.inr hf))
  · cases (agentStep_reset hreset).symm.trans hu
    exact ⟨rfl, rfl⟩

end Sys2Proof.Proofs
